-- ==== Sys2Proof/Word.lean ====
section
/-! DEFINITION. The plain word types of the block (spec/00_scope.md R14, R16; spec/10_state.md R20). -/

namespace Sys2Proof

/-- One byte of a buffer or of a byte string (R16). -/
abbrev Byte := BitVec 8

/-- A 16-bit register: `DST_LEN`, `XOUT_LEN` (R32, R33). -/
abbrev Half := BitVec 16

/-- A 32-bit register or command word: `CMD`, `STATUS`, `ERRINFO`, `MSG_LEN` (R27, R25, R29, R31), and a
word inside SHA-256 (R262). -/
abbrev Word := BitVec 32

/-- The 256-bit value part of a field register or one coordinate word of a point register (R22, R23). -/
abbrev Wide := BitVec 256

end Sys2Proof
end

