-- ==== Sys2Proof/Config.lean ====
section
/-! DEFINITION. What an implementation of the block fixes: the shape of the constant table `K` (spec/10_state.md R21)
and the values the spec leaves open, each a constant with no body that nothing in Lean can evaluate
(spec/92_eei_decisions.md D5, D12, D24; spec/93_implementation_defined.md U1 to U4, U10, U11). -/

namespace Sys2Proof

/-- An element `c0 + c1·i` of the quadratic extension (R10, R17): an ordered pair of canonical
representatives, held as natural numbers. -/
structure Fq2 where
  c0 : Nat
  c1 : Nat
  deriving DecidableEq, Repr, Inhabited

/-- The two groups; the `grp` bit of a point register is 0 for G1 and 1 for G2 (R23). -/
inductive Group where
  | g1
  | g2
  deriving DecidableEq, Repr, Inhabited

/-- The three byte buffers (R34). -/
inductive BufferId where
  | msg
  | dst
  | xout
  deriving DecidableEq, Repr

/-- The twenty named constants of the constant table `K` (R21). The values are in
`Sys2Proof.Machine.constTable`. -/
structure Consts where
  p : Nat
  rOrder : Nat
  xGen : Nat
  b1 : Nat
  z1 : Nat
  c1_1 : Nat
  c2_1 : Nat
  c3_1 : Nat
  c4_1 : Nat
  b2 : Fq2
  z2 : Fq2
  c1_2 : Fq2
  c2_2 : Fq2
  c3_2 : Fq2
  c4_2 : Fq2
  endoU : Fq2
  endoV : Fq2
  ellMax : Nat
  dstMax : Nat
  lBytes : Nat
  deriving DecidableEq, Repr

namespace Config

/-- `MSG_MAX`, the capacity of the message buffer in bytes: any value from 0 to 2^32 - 1 (R15, D5, U11).
The value 2^32 - 1 behaves as "no bound", since `MSG_LEN` has 32 bits. Log entry 3. -/
opaque msgMax : Word

/-- The free value of byte `offset` of a buffer that nothing has written since draw `draw` (R37, R75, U1, U3,
U4). Log entry 4. -/
opaque freeByte (buffer : BufferId) (draw offset : Nat) : Byte

/-- The free value part of field register `k` at draw `draw` (R36, R37, R71, R73, U2). Log entry 5. -/
opaque freeField (draw k : Nat) : Wide

/-- The free `grp` field of point register `k` at draw `draw` (R36, R37, R73, U2). Log entry 5. -/
opaque freeGroup (draw k : Nat) : Group

/-- The free `inf` field of point register `k` at draw `draw` (R36, R37, R73, U2). Log entry 5. -/
opaque freeInf (draw k : Nat) : Bool

/-- The free coordinate word `j` (0 to 3 for `x0`, `x1`, `y0`, `y1`) of point register `k` at draw `draw` (R36,
R37, R73, U2). Log entry 5. -/
opaque freeCoord (draw k j : Nat) : Wide

/-- Which of the two square roots of `a` the base-field collaborator returns: `false` for the root of the
reference realization, `true` for its negative (R236, D24, U10). Log entry 6. -/
opaque fqRootChoice (a : Nat) : Bool

/-- Which of the two square roots of `a` the extension-field collaborator returns (R246, D24, U10). Log entry 6. -/
opaque fq2RootChoice (a : Fq2) : Bool

end Config

end Sys2Proof
end

