-- ==== Sys2Proof/Syntax.lean ====
section
/-! DEFINITION. The eleven commands, one constructor per row of spec/opcode_table.json (spec/30_encoding.md R94). -/

namespace Sys2Proof

/-- A command with its operands as the unsigned integers R93 assembles from the word's fields. `fd`, `fs` name
field registers, `pd`, `ps` point registers; an index that names no register is still a legal command (R93, R95:
it raises `Fault(OPERAND)` when the command runs). -/
inductive Instr where
  /-- `EXPAND n` (R125): format L, `n = len16`. -/
  | expand (n : Nat)
  /-- `H2F Fd, count` (R141): format H. -/
  | h2f (fd count : Nat)
  /-- `SGN0 Fs` (R152): format S. -/
  | sgn0 (fs : Nat)
  /-- `SGN0E Fs` (R153): format S, the pair `F[fs]`, `F[fs+1]`. -/
  | sgn0e (fs : Nat)
  /-- `MAP1 Pd, Fs` (R170): format M. -/
  | map1 (pd fs : Nat)
  /-- `MAP2 Pd, Fs` (R171): format M, the pair `F[fs]`, `F[fs+1]`. -/
  | map2 (pd fs : Nat)
  /-- `PSI Pd, Ps` (R191): format P. -/
  | psi (pd ps : Nat)
  /-- `CLRCOF Pd, Ps` (R194): format P. -/
  | clrcof (pd ps : Nat)
  /-- `HASHG1 Pd` (R211): format O. -/
  | hashg1 (pd : Nat)
  /-- `HASHG2 Pd` (R212): format O. -/
  | hashg2 (pd : Nat)
  /-- `ENCG2 Pd` (R214): format O. -/
  | encg2 (pd : Nat)
  deriving DecidableEq, Repr

end Sys2Proof
end

