-- ==== Sys2Proof/WellFormed.lean ====
section
/-! DEFINITION. Which commands a 32-bit word can carry: every operand fits its field (spec/30_encoding.md R91, R92,
R93). A register index that names no register fits its field and is well formed. -/

namespace Sys2Proof

/-- The value fits one 8-bit field of the command word (R91). -/
def fitsByte (v : Nat) : Bool := v < 256

/-- The value fits the 16-bit field `len16` (R93). -/
def fitsLen16 (v : Nat) : Bool := v < 65536

/-- Every operand fits the field its format gives it (R92, R93, R96). -/
def Instr.wf : Instr → Bool
  | .expand n => fitsLen16 n
  | .h2f fd count => fitsByte fd && fitsByte count
  | .sgn0 fs => fitsByte fs
  | .sgn0e fs => fitsByte fs
  | .map1 pd fs => fitsByte pd && fitsByte fs
  | .map2 pd fs => fitsByte pd && fitsByte fs
  | .psi pd ps => fitsByte pd && fitsByte ps
  | .clrcof pd ps => fitsByte pd && fitsByte ps
  | .hashg1 pd => fitsByte pd
  | .hashg2 pd => fitsByte pd
  | .encg2 pd => fitsByte pd

end Sys2Proof
end

