-- ==== Sys2Proof/Decode.lean ====
section
/-! DEFINITION. The decoder, total on every 32-bit word, then the opcode table and the encoder
(spec/30_encoding.md R90 to R96). A command word is the value the host writes to `CMD`; it has no byte order inside
the block (spec/00_scope.md R15, spec/20_memory.md R63, R70). -/

namespace Sys2Proof

/-- Why a word is no legal command (R95). -/
inductive DecodeReject where
  /-- The opcode is 0x00 or one of 0x0C to 0xFF. Raised by `decode`; safe: the spec says the word is illegal. -/
  | reservedOpcode (op : Nat)
  /-- A must-be-zero field of a legal opcode is not zero. Raised by `decode`; safe: the spec says the word is
  illegal. -/
  | mustBeZero (op : Nat)
  deriving DecidableEq, Repr

/-- Field `op`, bits 31 to 24 (R91). -/
def opField (w : Word) : Nat := w.toNat / 16777216

/-- Field `a`, bits 23 to 16 (R91). -/
def aField (w : Word) : Nat := w.toNat / 65536 % 256

/-- Field `b`, bits 15 to 8 (R91). -/
def bField (w : Word) : Nat := w.toNat / 256 % 256

/-- Field `c`, bits 7 to 0 (R91). -/
def cField (w : Word) : Nat := w.toNat % 256

/-- `len16 = w[15:0]` (R93). -/
def len16Field (w : Word) : Nat := w.toNat % 65536

/-- The command `i` if the format's must-be-zero fields, together `mbz`, are zero (R92, R95). -/
def whenZero (op mbz : Nat) (i : Instr) : Except DecodeReject Instr :=
  if mbz = 0 then .ok i else .error (.mustBeZero op)

/-- The decoder (R90, R92, R94, R95): no state changes how a word is decoded. -/
def decode (w : Word) : Except DecodeReject Instr :=
  let a := aField w
  let b := bField w
  let c := cField w
  match opField w with
  | 0x01 => whenZero 0x01 a (.expand (len16Field w))
  | 0x02 => whenZero 0x02 b (.h2f a c)
  | 0x03 => whenZero 0x03 (a + c) (.sgn0 b)
  | 0x04 => whenZero 0x04 (a + c) (.sgn0e b)
  | 0x05 => whenZero 0x05 c (.map1 a b)
  | 0x06 => whenZero 0x06 c (.map2 a b)
  | 0x07 => whenZero 0x07 c (.psi a b)
  | 0x08 => whenZero 0x08 c (.clrcof a b)
  | 0x09 => whenZero 0x09 (b + c) (.hashg1 a)
  | 0x0A => whenZero 0x0A (b + c) (.hashg2 a)
  | 0x0B => whenZero 0x0B (b + c) (.encg2 a)
  | op => .error (.reservedOpcode op)

/-- One row of the opcode map: the word is the row's command exactly when `w & mask = value` (R94). -/
structure OpcodeRow where
  mnemonic : String
  mask : Word
  value : Word
  deriving DecidableEq, Repr

/-- The opcode map, row by row as R94 prints it. -/
def opcodeRows : List OpcodeRow := [
  ⟨"EXPAND", 0xFFFF0000#32, 0x01000000#32⟩,
  ⟨"H2F", 0xFF00FF00#32, 0x02000000#32⟩,
  ⟨"SGN0", 0xFFFF00FF#32, 0x03000000#32⟩,
  ⟨"SGN0E", 0xFFFF00FF#32, 0x04000000#32⟩,
  ⟨"MAP1", 0xFF0000FF#32, 0x05000000#32⟩,
  ⟨"MAP2", 0xFF0000FF#32, 0x06000000#32⟩,
  ⟨"PSI", 0xFF0000FF#32, 0x07000000#32⟩,
  ⟨"CLRCOF", 0xFF0000FF#32, 0x08000000#32⟩,
  ⟨"HASHG1", 0xFF00FFFF#32, 0x09000000#32⟩,
  ⟨"HASHG2", 0xFF00FFFF#32, 0x0A000000#32⟩,
  ⟨"ENCG2", 0xFF00FFFF#32, 0x0B000000#32⟩]

/-- The word selects the row (R94). -/
def OpcodeRow.selects (r : OpcodeRow) (w : Word) : Bool := w &&& r.mask == r.value

/-- The command's mnemonic as R94 writes it. -/
def mnemonicOf : Instr → String
  | .expand _ => "EXPAND"
  | .h2f _ _ => "H2F"
  | .sgn0 _ => "SGN0"
  | .sgn0e _ => "SGN0E"
  | .map1 _ _ => "MAP1"
  | .map2 _ _ => "MAP2"
  | .psi _ _ => "PSI"
  | .clrcof _ _ => "CLRCOF"
  | .hashg1 _ => "HASHG1"
  | .hashg2 _ => "HASHG2"
  | .encg2 _ => "ENCG2"

/-- The opcode of the command, the `op` column of R94. -/
def opcodeOf : Instr → Nat
  | .expand _ => 0x01
  | .h2f _ _ => 0x02
  | .sgn0 _ => 0x03
  | .sgn0e _ => 0x04
  | .map1 _ _ => 0x05
  | .map2 _ _ => 0x06
  | .psi _ _ => 0x07
  | .clrcof _ _ => 0x08
  | .hashg1 _ => 0x09
  | .hashg2 _ => 0x0A
  | .encg2 _ => 0x0B

/-- The word with the four fields of R91. -/
def wordOfFields (op a b c : Nat) : Word := BitVec.ofNat 32 (op * 16777216 + a * 65536 + b * 256 + c)

/-- The encoder: the word R96 gives for each assembler form. -/
def encode : Instr → Word
  | .expand n => wordOfFields 0x01 0 (n / 256) (n % 256)
  | .h2f fd count => wordOfFields 0x02 fd 0 count
  | .sgn0 fs => wordOfFields 0x03 0 fs 0
  | .sgn0e fs => wordOfFields 0x04 0 fs 0
  | .map1 pd fs => wordOfFields 0x05 pd fs 0
  | .map2 pd fs => wordOfFields 0x06 pd fs 0
  | .psi pd ps => wordOfFields 0x07 pd ps 0
  | .clrcof pd ps => wordOfFields 0x08 pd ps 0
  | .hashg1 pd => wordOfFields 0x09 pd 0 0
  | .hashg2 pd => wordOfFields 0x0A pd 0 0
  | .encg2 pd => wordOfFields 0x0B pd 0 0

/-- The command the decoder reads from a command word given as `nbits` bits, numbered as spec/opcode_table.json
numbers them. Every command is one 32-bit word (R90). -/
def decodeTableWord (nbits w : Nat) : Option Instr :=
  match decode (BitVec.ofNat 32 (w % 2 ^ nbits)) with
  | .ok i => some i
  | .error _ => none

end Sys2Proof
end

