-- ==== Sys2Proof/Machine/Constants.lean ====
section
/-! DEFINITION. The sizes and the values of the constant table `K` (spec/00_scope.md R8, R9, R11, R12, R14;
spec/10_state.md R21). -/

namespace Sys2Proof.Machine

/-- The base-field prime `P` (R9). -/
def fieldP : Nat := 21888242871839275222246405745257275088696311157297823662689037894645226208583

/-- The subgroup order `R_ORDER` (R9). -/
def orderR : Nat := 21888242871839275222246405745257275088548364400416034343698204186575808495617

/-- The curve parameter `X_GEN` (R9). -/
def generatorX : Nat := 4965661367192848881

/-- The constant table after reset, and always (R9, R11, R12, R21, R36). -/
def constTable : Consts where
  p := fieldP
  rOrder := orderR
  xGen := generatorX
  b1 := 3
  z1 := 1
  c1_1 := 4
  c2_1 := 10944121435919637611123202872628637544348155578648911831344518947322613104291
  c3_1 := 8815841940592487685674414971303048083897117035520822607866
  c4_1 := 7296080957279758407415468581752425029565437052432607887563012631548408736189
  b2 := ⟨19485874751759354771024239261021720505790618469301721065564631296452457478373,
    266929791119991161246907387137283842545076965332900288569378510910307636690⟩
  z2 := ⟨1, 0⟩
  c1_2 := ⟨19485874751759354771024239261021720505790618469301721065564631296452457478374,
    266929791119991161246907387137283842545076965332900288569378510910307636690⟩
  c2_2 := ⟨10944121435919637611123202872628637544348155578648911831344518947322613104291, 0⟩
  c3_2 := ⟨18992192239972082890849143911285057164064277369389217330423471574879236301292,
    21819008332247140148575583693947636719449476128975323941588917397607662637108⟩
  c4_2 := ⟨10499238450719652342378357227399831140106360636427411350395554762472100376473,
    6940174569119770192419592065569379906172001098655407502803841283667998553941⟩
  endoU := ⟨21575463638280843010398324269430826099269044274347216827212613867836435027261,
    10307601595873709700152284273816112264069230130616436755625194854815875713954⟩
  endoV := ⟨2821565182194536844548159561693502659359617185244120367078079554186484126554,
    3505843767911556378687030309984248845540243509899259641013678093033130930403⟩
  ellMax := 255
  dstMax := 255
  lBytes := 48

/-- `B_BYTES`, the digest size in bytes (R8). -/
def digestBytes : Nat := 32

/-- `ELL_MAX`, the largest number of output blocks (R8). -/
def maxBlocks : Nat := 255

/-- `DST_MAX`, the largest tag length and the size of the `DST` buffer (R8, R34). -/
def maxTagBytes : Nat := 255

/-- `L_BYTES`, the expanded bytes consumed per field element (R8). -/
def windowBytes : Nat := 48

/-- `XOUT_CAP`, the size of the `XOUT` buffer (R8, R34). -/
def xoutBytes : Nat := 8160

/-- `NF`, the number of field registers (R14). -/
abbrev numFieldRegs : Nat := 256

/-- `NP`, the number of point registers (R14). -/
abbrev numPointRegs : Nat := 16

end Sys2Proof.Machine
end

