-- ==== Sys2Proof/Machine/Bytes.lean ====
section
/-! DEFINITION. Byte strings and the integers they spell (spec/00_scope.md R16, spec/20_memory.md R63). -/

namespace Sys2Proof.Machine

/-- `byte(v)` for `0 <= v <= 255` (R16). -/
def byteOf (v : Nat) : Byte := BitVec.ofNat 8 v

/-- `be<n>(v)`: the low `8 * n` bits of `v` as `n` bytes, most significant byte first (R16 `be2`, R262 `be4`,
`be8`). -/
def bigEndian : Nat → Nat → List Byte
  | 0, _ => []
  | n + 1, v => byteOf (v / 256 ^ n) :: bigEndian n v

/-- `be2(v)` (R16). -/
def be2 (v : Nat) : List Byte := bigEndian 2 v

/-- `0x00^n` (R16). -/
def zeroBytes (n : Nat) : List Byte := List.replicate n 0

/-- `os2ip(s)`: the unsigned integer `s` spells, most significant byte first (R16). -/
def os2ip (s : List Byte) : Nat := s.foldl (fun acc b => acc * 256 + b.toNat) 0

/-- `xor(a, b)` of two byte strings of equal length (R16). -/
def xorBytes (a b : List Byte) : List Byte := List.zipWith (· ^^^ ·) a b

/-- `s[a .. a+n)` (R16). -/
def slice (s : List Byte) (a n : Nat) : List Byte := (s.drop a).take n

/-- `ceil(a / b)` (R16). -/
def ceilDiv (a b : Nat) : Nat := (a + (b - 1)) / b

end Sys2Proof.Machine
end

