-- ==== Sys2Proof/Machine/Field.lean ====
section
/-! DEFINITION. The field collaborators: the base field Fq and its quadratic extension Fq2, and the dictionary of
their operations that the map and the curve take (spec/49_collaborators.md R230 to R246, spec/42_sgn0.md R150, R151,
spec/43_svdw_map.md R161). -/

namespace Sys2Proof.Machine

/-! ### The base field (R230 to R236) -/

/-- R231. -/
def fqAdd (a b : Nat) : Nat := (a + b) % fieldP

/-- R231: the least non-negative residue of `a - b`. -/
def fqSub (a b : Nat) : Nat := (a + (fieldP - b % fieldP)) % fieldP

/-- R231: `(P - a) mod P`. -/
def fqNeg (a : Nat) : Nat := (fieldP - a % fieldP) % fieldP

/-- R232. -/
def fqMul (a b : Nat) : Nat := a * b % fieldP

/-- R232. -/
def fqSqr (a : Nat) : Nat := fqMul a a

/-- The bits of `e`, most significant first, from bit `n - 1` down to bit 0. -/
def bitsBelow : Nat → Nat → List Bool
  | 0, _ => []
  | n + 1, e => e.testBit n :: bitsBelow n e

/-- The bits of `e` from its most significant set bit down to bit 0; none for 0 (R235, R255). -/
def bitsOf (e : Nat) : List Bool := if e = 0 then [] else bitsBelow (e.log2 + 1) e

/-- `a^e mod P` by square-and-multiply, most significant bit first (R235). -/
def fqPow (a e : Nat) : Nat :=
  (bitsOf e).foldl (fun r b => if b then fqMul (fqSqr r) a else fqSqr r) 1

/-- The inverse, or 0 for 0 (R233). -/
def fqInv0 (a : Nat) : Nat := fqPow a (fieldP - 2)

/-- Euler's criterion; 0 is a square (R234). -/
def fqIsSquare (a : Nat) : Bool := fqPow a ((fieldP - 1) / 2) != fieldP - 1

/-- The root of the reference realization, or none for a non-square (R236). -/
def fqRefRoot (a : Nat) : Option Nat :=
  let r := fqPow a ((fieldP + 1) / 4)
  if fqSqr r = a then some r else none

/-- A square-root collaborator that meets R236: `choice` says which of the two roots it returns. -/
def fqSqrtBy (choice : Nat → Bool) (a : Nat) : Option Nat :=
  (fqRefRoot a).map fun r => if choice a then fqNeg r else r

/-- R150: bit 0 of the canonical representative. -/
def sgn0Fq (x : Nat) : Bool := x % 2 == 1

/-! ### The extension field (R240 to R246) -/

/-- R241. -/
def fq2Add (a b : Fq2) : Fq2 := ⟨fqAdd a.c0 b.c0, fqAdd a.c1 b.c1⟩

/-- R241. -/
def fq2Sub (a b : Fq2) : Fq2 := ⟨fqSub a.c0 b.c0, fqSub a.c1 b.c1⟩

/-- R241. -/
def fq2Neg (a : Fq2) : Fq2 := ⟨fqNeg a.c0, fqNeg a.c1⟩

/-- R241. -/
def fq2Conj (a : Fq2) : Fq2 := ⟨a.c0, fqNeg a.c1⟩

/-- R242. -/
def fq2Mul (a b : Fq2) : Fq2 :=
  ⟨fqSub (fqMul a.c0 b.c0) (fqMul a.c1 b.c1), fqAdd (fqMul a.c0 b.c1) (fqMul a.c1 b.c0)⟩

/-- R242. -/
def fq2Sqr (a : Fq2) : Fq2 := fq2Mul a a

/-- The norm `a0^2 + a1^2` (R243, R244). -/
def fq2Norm (a : Fq2) : Nat := fqAdd (fqSqr a.c0) (fqSqr a.c1)

/-- R243. -/
def fq2Inv0 (a : Fq2) : Fq2 :=
  let t := fqInv0 (fq2Norm a)
  ⟨fqMul a.c0 t, fqNeg (fqMul a.c1 t)⟩

/-- R244: an element is a square exactly when its norm is. -/
def fq2IsSquare (a : Fq2) : Bool := fqIsSquare (fq2Norm a)

/-- R245; no command calls it. -/
def fq2Pow (a : Fq2) (e : Nat) : Fq2 :=
  (bitsOf e).foldl (fun r b => if b then fq2Mul (fq2Sqr r) a else fq2Sqr r) ⟨1, 0⟩

/-- `half = fq_inv0(2)` (R246). -/
def fqHalf : Nat := fqInv0 2

/-- The last part of the complex method: from a root `x0` of `d`, the pair `(x0, a1 / 2·x0)`, if its square is `a`
(R246). -/
def fq2RootFrom (a : Fq2) (x0 : Nat) : Option Fq2 :=
  let r : Fq2 := ⟨x0, fqMul a.c1 (fqInv0 (fqAdd x0 x0))⟩
  if fq2Sqr r = a then some r else none

/-- The root of the reference realization, the complex method, or none for a non-square (R246). -/
def fq2RefRoot (a : Fq2) : Option Fq2 :=
  if a.c0 = 0 ∧ a.c1 = 0 then some ⟨0, 0⟩
  else if a.c1 = 0 then
    match fqRefRoot a.c0 with
    | some r => some ⟨r, 0⟩
    | none => (fqRefRoot (fqNeg a.c0)).map fun r => ⟨0, r⟩
  else
    match fqRefRoot (fq2Norm a) with
    | none => none
    | some n =>
      match fqRefRoot (fqMul (fqAdd a.c0 n) fqHalf) with
      | some x0 => fq2RootFrom a x0
      | none =>
        match fqRefRoot (fqMul (fqSub a.c0 n) fqHalf) with
        | some x0 => fq2RootFrom a x0
        | none => none

/-- A square-root collaborator that meets R246: `choice` says which of the two roots it returns. -/
def fq2SqrtBy (choice : Fq2 → Bool) (a : Fq2) : Option Fq2 :=
  (fq2RefRoot a).map fun r => if choice a then fq2Neg r else r

/-- R151: the sign of `c0` unless `c0` is zero. -/
def sgn0Fq2 (x : Fq2) : Bool := if x.c0 ≠ 0 then sgn0Fq x.c0 else sgn0Fq x.c1

/-! ### The operations as one dictionary (R161) -/

/-- The field operations the map and the point arithmetic use, by the generic names of R161. -/
structure FieldOps (α : Type) where
  zero : α
  one : α
  add : α → α → α
  sub : α → α → α
  neg : α → α
  mul : α → α → α
  sqr : α → α
  inv0 : α → α
  isSquare : α → Bool
  sqrt : α → Option α
  sgn0 : α → Bool

/-- The base field, with the square-root collaborator that `choice` names (R161). -/
def fqOpsBy (choice : Nat → Bool) : FieldOps Nat where
  zero := 0
  one := 1
  add := fqAdd
  sub := fqSub
  neg := fqNeg
  mul := fqMul
  sqr := fqSqr
  inv0 := fqInv0
  isSquare := fqIsSquare
  sqrt := fqSqrtBy choice
  sgn0 := sgn0Fq

/-- The extension field, with the square-root collaborator that `choice` names (R161). -/
def fq2OpsBy (choice : Fq2 → Bool) : FieldOps Fq2 where
  zero := ⟨0, 0⟩
  one := ⟨1, 0⟩
  add := fq2Add
  sub := fq2Sub
  neg := fq2Neg
  mul := fq2Mul
  sqr := fq2Sqr
  inv0 := fq2Inv0
  isSquare := fq2IsSquare
  sqrt := fq2SqrtBy choice
  sgn0 := sgn0Fq2

/-- The base field of this block: which root its collaborator returns is open (D24). -/
def fqOps : FieldOps Nat := fqOpsBy Config.fqRootChoice

/-- The extension field of this block: which root its collaborator returns is open (D24). -/
def fq2Ops : FieldOps Fq2 := fq2OpsBy Config.fq2RootChoice

end Sys2Proof.Machine
end

