-- ==== Sys2Proof/Machine/Curve.lean ====
section
/-! DEFINITION. The curve collaborator: the on-curve predicates, points, the group law and scalar multiplication
(spec/49_collaborators.md R250 to R255). -/

namespace Sys2Proof.Machine

/-- A point: `INF`, or a pair of coordinates (R17, R251). -/
inductive Point (α : Type) where
  | inf
  | affine (x y : α)
  deriving DecidableEq, Repr

variable {α : Type}

/-- `g(x) = x^3 + b` (R162). -/
def curveRhs (F : FieldOps α) (b x : α) : α := F.add (F.mul (F.sqr x) x) b

/-- `on_curve(x, y)`: `y^2 = x^3 + b` (R250). -/
def onCurve [DecidableEq α] (F : FieldOps α) (b x y : α) : Bool := F.sqr y == curveRhs F b x

/-- The test `R != INF and not on_curve(R)` turned round: the point is `INF` or on the curve (R213, R191, R193). -/
def pointOnCurve [DecidableEq α] (F : FieldOps α) (b : α) : Point α → Bool
  | .inf => true
  | .affine x y => onCurve F b x y

/-- R252. -/
def ptNeg (F : FieldOps α) : Point α → Point α
  | .inf => .inf
  | .affine x y => .affine x (F.neg y)

/-- `two(v)` (R253). -/
def fieldTwo (F : FieldOps α) (v : α) : α := F.add v v

/-- `three(v)` (R253). -/
def fieldThree (F : FieldOps α) (v : α) : α := F.add (fieldTwo F v) v

/-- The third point of a line of slope `lam` through points with these coordinates, reflected (R253). -/
def ptChord (F : FieldOps α) (lam x1 y1 x2 : α) : Point α :=
  let x3 := F.sub (F.sub (F.sqr lam) x1) x2
  .affine x3 (F.sub (F.mul lam (F.sub x1 x3)) y1)

/-- The group law in affine form (R253). -/
def ptAdd [DecidableEq α] (F : FieldOps α) : Point α → Point α → Point α
  | .inf, b => b
  | a, .inf => a
  | .affine x1 y1, .affine x2 y2 =>
    if x1 = x2 then
      if F.add y1 y2 = F.zero then .inf
      else ptChord F (F.mul (fieldThree F (F.sqr x1)) (F.inv0 (fieldTwo F y1))) x1 y1 x2
    else ptChord F (F.mul (F.sub y2 y1) (F.inv0 (F.sub x2 x1))) x1 y1 x2

/-- `n · A` by double-and-add, most significant set bit first (R255). -/
def ptMul [DecidableEq α] (F : FieldOps α) (n : Nat) (a : Point α) : Point α :=
  (bitsOf n).foldl (fun r b => if b then ptAdd F (ptAdd F r r) a else ptAdd F r r) .inf

end Sys2Proof.Machine
end

