-- ==== Sys2Proof/Machine/State.lean ====
section
/-! DEFINITION. The architectural state of the block (spec/10_state.md R20 to R37), the host's pending accesses
(spec/20_memory.md R60 to R62), the ways a step can stop, and the state after reset (R36). -/

namespace Sys2Proof.Machine

/-- A byte buffer (R34): the bytes written since `draw`, in rising offset order. A byte that is not listed has not
been written since then and reads as a free value (R37, R75). `draw` is the model's own field (log entry 4). -/
structure Memory where
  cells : List Host.Cell
  draw : Nat
  deriving DecidableEq, Repr

/-- A field register: a valid bit and a 256-bit value (R22). -/
structure FieldReg where
  valid : Bool
  val : Wide
  deriving DecidableEq, Repr

/-- A point register: valid bit, group tag, infinity flag and four coordinate words (R23). -/
structure PointReg where
  valid : Bool
  grp : Group
  inf : Bool
  x0 : Wide
  x1 : Wide
  y0 : Wide
  y1 : Wide
  deriving DecidableEq, Repr

/-- The two fields of `STATUS` (R25, R26). Bits 31 to 2 of the register are not stored: they read as 0
(`statusWord` in Flags.lean). -/
structure Status where
  fault : Bool
  sgn : Bool
  deriving DecidableEq, Repr

/-- The names `HostRead(K, name)` takes (R21, R62). -/
inductive ConstName where
  | p | rOrder | xGen
  | b1 | z1 | c1_1 | c2_1 | c3_1 | c4_1
  | b2 | z2 | c1_2 | c2_2 | c3_2 | c4_2 | endoU | endoV
  | ellMax | dstMax | lBytes
  deriving DecidableEq, Repr

/-- One event of the total order of R61: a host access of R62, an access R67 says does not exist, or the hardware
reset input (R320, R321). -/
inductive HostEvent where
  /-- The hardware reset input `rst` is asserted (R320). -/
  | assertRst
  /-- `HostWrite(CMD, w)`: issues the command `w` (R27, R90). -/
  | writeCmd (w : Word)
  | readCmd
  | readStatus
  /-- Ignored (R25). -/
  | writeStatus (w : Word)
  | readErr
  /-- Ignored (R28). -/
  | writeErr (w : Word)
  | readErrInfo
  /-- Ignored (R29). -/
  | writeErrInfo (w : Word)
  /-- Reads 0 (R30). -/
  | readCtrl
  /-- Bit 0 set: soft reset (R30). -/
  | writeCtrl (w : Word)
  | readMsgLen
  | writeMsgLen (v : Word)
  | readDstLen
  | writeDstLen (v : Half)
  | readXoutLen
  /-- Ignored (R33). -/
  | writeXoutLen (v : Half)
  | readMsg (i : Nat)
  | writeMsg (i : Nat) (b : Byte)
  | readDst (i : Nat)
  | writeDst (i : Nat) (b : Byte)
  | readXout (i : Nat)
  /-- Does not exist (R67). -/
  | writeXout (i : Nat) (b : Byte)
  | readF (k : Nat)
  | writeF (k : Nat) (v : Wide)
  | readPt (k : Nat)
  | writePt (k : Nat) (grp : Group) (inf : Bool) (x0 x1 y0 y1 : Wide)
  | readK (name : ConstName)
  /-- Does not exist (R67). -/
  | writeK (name : ConstName) (v : Nat)
  deriving DecidableEq, Repr

/-- What a host access returns: each item whole, at its own width (R62, R65). -/
inductive HostValue where
  /-- A write or a reset returns nothing. -/
  | nothing
  | word (v : Word)
  | half (v : Half)
  | byte (v : Byte)
  /-- `(F[k].valid, F[k].val)` (R73). -/
  | field (valid : Bool) (val : Wide)
  /-- `(valid, grp, inf, x0, x1, y0, y1)` (R73). -/
  | point (r : PointReg)
  /-- A constant of `K` that is an integer. -/
  | const (v : Nat)
  /-- A constant of `K` that is a pair. -/
  | const2 (v : Fq2)
  deriving DecidableEq, Repr

/-- The state of the block, and beside it three fields of the model's own: `draws`, `pending`, `returned`. -/
structure State where
  /-- The constant table (R21). -/
  k : Consts
  /-- The message buffer (R34). -/
  msg : Memory
  /-- The tag buffer (R34). -/
  dst : Memory
  /-- The buffer of expanded bytes (R34). -/
  xout : Memory
  /-- R31. -/
  msgLen : Word
  /-- R32. -/
  dstLen : Half
  /-- R33. -/
  xoutLen : Half
  /-- The field register file (R22). -/
  f : Vector FieldReg numFieldRegs
  /-- The point register file (R23). -/
  pt : Vector PointReg numPointRegs
  /-- The command register (R27). -/
  cmd : Word
  /-- `STATUS` (R25, R26). -/
  status : Status
  /-- `ERR` (R28). -/
  err : BitVec 8
  /-- `ERRINFO` (R29). -/
  errInfo : Word
  /-- The model's own: the number of the next free draw (log entries 4, 5). -/
  draws : Nat
  /-- The model's own, the host's side: the host accesses still to come, the next one first (R24, R61). -/
  pending : List HostEvent
  /-- The model's own, the host's side: what the last host access returned (R62). -/
  returned : HostValue
  deriving DecidableEq, Repr

/-- The causes of the block's own fault, in the order of their codes 0x01 to 0x08 (R281). -/
inductive Cause where
  /-- The requested expansion needs more than 255 hash blocks. -/
  | cfgLenTooLarge
  /-- The tag is longer than 255 bytes. -/
  | cfgDstTooLong
  /-- None of `g(x1)`, `g(x2)`, `g(x3)` is a square. -/
  | intNoSquare
  /-- The square-root collaborator returned no root of a value the residue test called a square. -/
  | intSqrtFailed
  /-- A produced point fails the curve equation. -/
  | intNotOnCurve
  /-- A final G2 point is not annihilated by `R_ORDER`. -/
  | intNotInSubgroup
  /-- An operand cannot be obtained (R291). -/
  | operand
  /-- The word written to `CMD` is no legal command (R292). -/
  | illegalCmd
  deriving DecidableEq, Repr

/-- A step that stops the machine with a fault. There is none: the block's faults (R280, R281) are entered as next
states (`raiseFault` in Ops.lean, R284), and the block goes on answering host accesses (R290). -/
inductive Fault where
  deriving DecidableEq, Repr

/-- A step with no meaning. -/
inductive Refusal where
  /-- Raised by `exec` for an instruction that has no meaning yet; safe. -/
  | notModelled (mnemonic : String)
  /-- Raised by a host access to an item that does not exist: an index at or beyond the size of its buffer or
  file, a write to `XOUT` or to `K` (R67: "A model refuses it"); safe. -/
  | noSuchAccess
  deriving DecidableEq, Repr

/-- Field register `k` with its valid bit clear and a free value (R36, R37). -/
def emptyFieldReg (draw k : Nat) : FieldReg := ⟨false, Config.freeField draw k⟩

/-- Point register `k` with its valid bit clear and free fields (R36, R37). -/
def emptyPointReg (draw k : Nat) : PointReg :=
  ⟨false, Config.freeGroup draw k, Config.freeInf draw k, Config.freeCoord draw k 0, Config.freeCoord draw k 1,
    Config.freeCoord draw k 2, Config.freeCoord draw k 3⟩

/-- A buffer of which nothing has been written since draw `draw` (R36, R37). -/
def emptyMemory (draw : Nat) : Memory := ⟨[], draw⟩

/-- The block right after reset (R36, R320): no host access is pending. -/
def State.reset : State where
  k := constTable
  msg := emptyMemory 0
  dst := emptyMemory 0
  xout := emptyMemory 0
  msgLen := 0
  dstLen := 0
  xoutLen := 0
  f := Vector.ofFn fun k => emptyFieldReg 0 k.val
  pt := Vector.ofFn fun k => emptyPointReg 0 k.val
  cmd := 0
  status := ⟨false, false⟩
  err := 0
  errInfo := 0
  draws := 1
  pending := []
  returned := .nothing

end Sys2Proof.Machine
end

