-- ==== Sys2Proof/Machine/SvdwMap.lean ====
section
/-! DEFINITION. The Shallue and van de Woestijne map, once for both groups (spec/43_svdw_map.md R160 to R169). -/

namespace Sys2Proof.Machine

/-- The constants the map names generically: `Z`, `C1` to `C4`, `B` (R161). -/
structure MapConsts (α : Type) where
  z : α
  c1 : α
  c2 : α
  c3 : α
  c4 : α
  b : α
  deriving DecidableEq, Repr

/-- The constants of the G1 column of R161. -/
def mapConstsG1 (k : Consts) : MapConsts Nat := ⟨k.z1, k.c1_1, k.c2_1, k.c3_1, k.c4_1, k.b1⟩

/-- The constants of the G2 column of R161. -/
def mapConstsG2 (k : Consts) : MapConsts Fq2 := ⟨k.z2, k.c1_2, k.c2_2, k.c3_2, k.c4_2, k.b2⟩

/-- The three candidates of steps 1 to 5 (R162). -/
structure MapCandidates (α : Type) where
  x1 : α
  x2 : α
  x3 : α
  deriving DecidableEq, Repr

variable {α : Type}

/-- `t` of step 1: `C1 · u^2` (R162). -/
def mapT (F : FieldOps α) (c : MapConsts α) (u : α) : α := F.mul c.c1 (F.sqr u)

/-- `tv2` of step 2: `1 + t` (R162). -/
def mapTv2 (F : FieldOps α) (c : MapConsts α) (u : α) : α := F.add F.one (mapT F c u)

/-- `tv1` of step 2: `1 - t` (R162). -/
def mapTv1 (F : FieldOps α) (c : MapConsts α) (u : α) : α := F.sub F.one (mapT F c u)

/-- `tv3` of step 3: the inverse of `tv1 · tv2`, or 0 at a pole (R162, R164). -/
def mapTv3 (F : FieldOps α) (c : MapConsts α) (u : α) : α := F.inv0 (F.mul (mapTv1 F c u) (mapTv2 F c u))

/-- `tv4` of step 4 (R162). -/
def mapTv4 (F : FieldOps α) (c : MapConsts α) (u : α) : α :=
  F.mul (F.mul (F.mul c.c3 u) (mapTv1 F c u)) (mapTv3 F c u)

/-- Step 5 (R162). -/
def mapCandidates (F : FieldOps α) (c : MapConsts α) (u : α) : MapCandidates α where
  x1 := F.sub c.c2 (mapTv4 F c u)
  x2 := F.add c.c2 (mapTv4 F c u)
  x3 := F.add c.z (F.mul c.c4 (F.sqr (F.mul (F.sqr (mapTv2 F c u)) (mapTv3 F c u))))

/-- Steps 6 and 7: the first candidate whose `g` is a square (R162, R163). -/
def selectCandidate (F : FieldOps α) (b : α) (x : MapCandidates α) : Except Cause α :=
  if F.isSquare (curveRhs F b x.x1) then .ok x.x1
  else if F.isSquare (curveRhs F b x.x2) then .ok x.x2
  else if F.isSquare (curveRhs F b x.x3) then .ok x.x3
  else .error .intNoSquare

/-- The sign adjustment of step 8 (R162, R168). -/
def matchSign (F : FieldOps α) (u y : α) : α := if F.sgn0 y = F.sgn0 u then y else F.neg y

/-- Steps 8 and 9 for the selected `x`; the on-curve check is made for G2 only (R162, R166, R167). -/
def liftCandidate [DecidableEq α] (F : FieldOps α) (g : Group) (b u x : α) : Except Cause (α × α) :=
  match F.sqrt (curveRhs F b x) with
  | none => .error .intSqrtFailed
  | some r =>
    let y := matchSign F u r
    if g = .g2 ∧ onCurve F b x y = false then .error .intNotOnCurve else .ok (x, y)

/-- `svdw_map_g(u)` (R160, R162). -/
def svdwMap [DecidableEq α] (F : FieldOps α) (c : MapConsts α) (g : Group) (u : α) : Except Cause (α × α) :=
  match selectCandidate F c.b (mapCandidates F c u) with
  | .error e => .error e
  | .ok x => liftCandidate F g c.b u x

/-- `svdw_map_G1(u)` (R161). -/
def svdwMapG1 (F : FieldOps Nat) (k : Consts) (u : Nat) : Except Cause (Nat × Nat) :=
  svdwMap F (mapConstsG1 k) .g1 u

/-- `svdw_map_G2(u)` (R161). -/
def svdwMapG2 (F : FieldOps Fq2) (k : Consts) (u : Fq2) : Except Cause (Fq2 × Fq2) :=
  svdwMap F (mapConstsG2 k) .g2 u

end Sys2Proof.Machine
end

