-- ==== Sys2Proof/Machine/Clearing.lean ====
section
/-! DEFINITION. The endomorphism psi and cofactor clearing for G2 as pure functions (spec/44_cofactor.md R190, R193),
and the final checks of the orchestrators (spec/45_orchestrators.md R213). -/

namespace Sys2Proof.Machine

/-- `psi(Q)`: conjugate both coordinates, scale x by `ENDO_U` and y by `ENDO_V`; `INF` is fixed (R190). -/
def psiPoint (k : Consts) : Point Fq2 → Point Fq2
  | .inf => .inf
  | .affine x y => .affine (fq2Mul (fq2Conj x) k.endoU) (fq2Mul (fq2Conj y) k.endoV)

/-- A G2 point if it is `INF` or on E2, else `INT_NOT_ON_CURVE` (R191, R193, R213). -/
def checkedG2 (F : FieldOps Fq2) (k : Consts) (r : Point Fq2) : Except Cause (Point Fq2) :=
  if pointOnCurve F k.b2 r then .ok r else .error .intNotOnCurve

/-- The sum `[x]Q + psi([3x]Q) + psi(psi([x]Q)) + psi(psi(psi(Q)))` of R193, before its check. -/
def clearingSum (F : FieldOps Fq2) (k : Consts) (q : Point Fq2) : Point Fq2 :=
  let xq := ptMul F k.xGen q
  let t1 := psiPoint k (ptMul F 3 xq)
  let t2 := psiPoint k (psiPoint k xq)
  let t3 := psiPoint k (psiPoint k (psiPoint k q))
  ptAdd F (ptAdd F (ptAdd F xq t1) t2) t3

/-- `clear_cofactor(Q)` (R193). -/
def clearCofactor (F : FieldOps Fq2) (k : Consts) (q : Point Fq2) : Except Cause (Point Fq2) :=
  checkedG2 F k (clearingSum F k q)

/-- `final_check_G1(R)`, answering `R` when it passes (R213). -/
def finalCheckG1 (F : FieldOps Nat) (k : Consts) (r : Point Nat) : Except Cause (Point Nat) :=
  if pointOnCurve F k.b1 r then .ok r else .error .intNotOnCurve

/-- `final_check_G2(R)`, answering `R` when it passes: on the curve first, then annihilated by `R_ORDER` (R213). -/
def finalCheckG2 (F : FieldOps Fq2) (k : Consts) (r : Point Fq2) : Except Cause (Point Fq2) :=
  if pointOnCurve F k.b2 r then
    if ptMul F k.rOrder r = .inf then .ok r else .error .intNotInSubgroup
  else .error .intNotOnCurve

end Sys2Proof.Machine
end

