-- ==== Sys2Proof/Machine/Ops.lean ====
section
/-! DEFINITION. The named operations over buffers and registers, taking a fault, and reset, the only return from one
(spec/10_state.md R18 notation, R22, R23, R34; spec/60_exceptions.md R281, R284, R287; spec/70_reset_and_hazards.md
R320). -/

namespace Sys2Proof.Machine

/-! ### Buffers (R34, R37, R64, R68) -/

/-- The byte listed at `a`, if one is. -/
def cellsRead : List Host.Cell → Nat → Option Byte
  | [], _ => none
  | (a', b) :: rest, a => if a = a' then some b else cellsRead rest a

/-- The cells with byte `b` listed at `a`, in rising order. -/
def cellsWrite : List Host.Cell → Nat → Byte → List Host.Cell
  | [], a, b => [(a, b)]
  | (a', b') :: rest, a, b =>
    if a < a' then (a, b) :: (a', b') :: rest
    else if a = a' then (a, b) :: rest
    else (a', b') :: cellsWrite rest a b

/-- Byte `i` of a buffer: the byte last written, or the free value of a byte never written (R37, R68). -/
def Memory.read (m : Memory) (buffer : BufferId) (i : Nat) : Byte :=
  (cellsRead m.cells i).getD (Config.freeByte buffer m.draw i)

/-- A buffer after a write of byte `i` (R62). -/
def Memory.write (m : Memory) (i : Nat) (b : Byte) : Memory := { m with cells := cellsWrite m.cells i b }

/-- `MemRead(B, a, n)` (R18). -/
def Memory.readBytes (m : Memory) (buffer : BufferId) (a n : Nat) : List Byte :=
  (List.range n).map fun j => m.read buffer (a + j)

/-- A buffer that holds exactly the string `out` from offset 0; every other byte is a free value of draw `draw`
(R75, R125). -/
def Memory.ofBytes (out : List Byte) (draw : Nat) : Memory := ⟨(List.range out.length).zip out, draw⟩

/-- The canonical form of a buffer of `size` bytes: the offsets strictly rise and lie below `size`. What an unlisted
offset reads as is no byte but "never written", so no listed byte is redundant (log entry 4). -/
def Memory.wf (m : Memory) (size : Nat) : Bool :=
  decide ((m.cells.map Prod.fst).Pairwise (· < ·)) && m.cells.all fun c => c.1 < size

/-! ### Field registers (R18, R22) -/

/-- `F[k]`, if register `k` exists and is valid (R22). -/
def State.readField (s : State) (k : Nat) : Option Nat :=
  match s.f[k]? with
  | some r => if r.valid then some r.val.toNat else none
  | none => none

/-- Register `k` replaced; an index that names no register changes nothing. -/
def State.setFieldReg (s : State) (k : Nat) (r : FieldReg) : State := { s with f := s.f.setIfInBounds k r }

/-- `F[k] <- v` for a field value `v`: sets the valid bit (R18). -/
def State.writeField (s : State) (k v : Nat) : State := s.setFieldReg k ⟨true, BitVec.ofNat 256 v⟩

/-- `for j = 0 .. : F[fd + j] <- us[j]` (R141). -/
def State.writeFields (s : State) (fd : Nat) : List Nat → State
  | [] => s
  | u :: us => (s.writeField fd u).writeFields (fd + 1) us

/-! ### Point registers (R18, R23) -/

/-- Register `k` replaced; an index that names no register changes nothing. -/
def State.setPointReg (s : State) (k : Nat) (r : PointReg) : State := { s with pt := s.pt.setIfInBounds k r }

/-- The point register that holds a G1 point (R23, R170, R211). -/
def pointRegG1 : Point Nat → PointReg
  | .inf => ⟨true, .g1, true, 0, 0, 0, 0⟩
  | .affine x y => ⟨true, .g1, false, BitVec.ofNat 256 x, 0, BitVec.ofNat 256 y, 0⟩

/-- The point register that holds a G2 point (R23, R171, R191). -/
def pointRegG2 : Point Fq2 → PointReg
  | .inf => ⟨true, .g2, true, 0, 0, 0, 0⟩
  | .affine x y =>
    ⟨true, .g2, false, BitVec.ofNat 256 x.c0, BitVec.ofNat 256 x.c1, BitVec.ofNat 256 y.c0, BitVec.ofNat 256 y.c1⟩

/-- The point a register of group G2 holds: `INF` or `((x0, x1), (y0, y1))` (R23, R191). -/
def PointReg.pointG2 (r : PointReg) : Point Fq2 :=
  if r.inf then .inf else .affine ⟨r.x0.toNat, r.x1.toNat⟩ ⟨r.y0.toNat, r.y1.toNat⟩

/-- The point a register of group G1 holds (R23). -/
def PointReg.pointG1 (r : PointReg) : Point Nat :=
  if r.inf then .inf else .affine r.x0.toNat r.y0.toNat

/-- `wellformed(grp, inf, x0, x1, y0, y1)` of R72, which is also the invariant of a valid point register (R23). The
valid bit of `r` is not looked at. -/
def PointReg.wellFormed (k : Consts) (r : PointReg) : Bool :=
  decide (r.x0.toNat < fieldP ∧ r.x1.toNat < fieldP ∧ r.y0.toNat < fieldP ∧ r.y1.toNat < fieldP) &&
  (r.grp != .g1 || (r.x1 == 0 && r.y1 == 0)) &&
  (if r.inf then r.x0 == 0 && r.x1 == 0 && r.y0 == 0 && r.y1 == 0
   else match r.grp with
    | .g1 => onCurve fqOps k.b1 r.x0.toNat r.y0.toNat
    | .g2 => onCurve fq2Ops k.b2 ⟨r.x0.toNat, r.x1.toNat⟩ ⟨r.y0.toNat, r.y1.toNat⟩)

/-! ### Taking a fault (R281, R284) -/

/-- The code `ERR` takes (R281). -/
def causeCode : Cause → BitVec 8
  | .cfgLenTooLarge => 0x01
  | .cfgDstTooLong => 0x02
  | .intNoSquare => 0x03
  | .intSqrtFailed => 0x04
  | .intNotOnCurve => 0x05
  | .intNotInSubgroup => 0x06
  | .operand => 0x07
  | .illegalCmd => 0x08

/-- Fault entry: `STATUS.FAULT`, `ERR` and `ERRINFO` are written and nothing else changes; `CMD` already holds the
faulting word (R284). -/
def raiseFault (c : Cause) (s : State) : State :=
  { s with status := { s.status with fault := true }, err := causeCode c, errInfo := s.cmd }

/-- The end of a command that started in `s`: the state with its results written, or fault entry in `s` with no
destination written (R19, R284, R331). -/
def complete (s : State) (r : Except Cause State) : Host.Outcome State Fault Refusal :=
  .next (match r with
    | .ok t => t
    | .error c => raiseFault c s)

/-! ### Reset (R36, R287, R320) -/

/-- Reset, by the input `rst` or by `CTRL.SRST`: the only way out of the fault state. Unspecified storage takes free
values of a fresh draw; `K` is unchanged (R320). -/
def softReset (s : State) : State :=
  { s with
    msg := emptyMemory s.draws
    dst := emptyMemory s.draws
    xout := emptyMemory s.draws
    msgLen := 0
    dstLen := 0
    xoutLen := 0
    f := Vector.ofFn fun k => emptyFieldReg s.draws k.val
    pt := Vector.ofFn fun k => emptyPointReg s.draws k.val
    cmd := 0
    status := ⟨false, false⟩
    err := 0
    errInfo := 0
    draws := s.draws + 1 }

end Sys2Proof.Machine
end

