-- ==== Sys2Proof/Machine/Operands.lean ====
section
/-! DEFINITION. How a command obtains its operands, and the checks made before its algorithm runs
(spec/30_encoding.md R93; spec/60_exceptions.md R282, R291, R295). A command that cannot obtain an operand raises
`OPERAND`. -/

namespace Sys2Proof.Machine

/-- The valid field register `F[fs]` (R152, R170). -/
def fieldOperand (s : State) (fs : Nat) : Except Cause Nat :=
  match s.readField fs with
  | some v => .ok v
  | none => .error .operand

/-- The pair `(F[fs], F[fs+1])` as an extension-field element: `fs = 255` names no pair, and both registers must be
valid (R93, R153, R171). -/
def pairOperand (s : State) (fs : Nat) : Except Cause Fq2 :=
  if fs ≥ 255 then .error .operand
  else
    match s.readField fs, s.readField (fs + 1) with
    | some c0, some c1 => .ok ⟨c0, c1⟩
    | _, _ => .error .operand

/-- A destination point register: `pd > 15` names none (R93). -/
def checkPointIndex (pd : Nat) : Except Cause Unit :=
  if pd > 15 then .error .operand else .ok ()

/-- The valid G2 point held in `PT[ps]` (R191, R194). -/
def pointOperandG2 (s : State) (ps : Nat) : Except Cause (Point Fq2) :=
  match s.pt[ps]? with
  | some r => if r.valid = false ∨ r.grp ≠ .g2 then .error .operand else .ok r.pointG2
  | none => .error .operand

/-- `MSG_LEN > MSG_MAX` (R31, R291). -/
def checkMessageLength (s : State) : Except Cause Unit :=
  if s.msgLen.toNat > Config.msgMax.toNat then .error .operand else .ok ()

/-- `ceil(n / 32) > 255` (R121, R282). -/
def checkExpansionLength (n : Nat) : Except Cause Unit :=
  if ceilDiv n digestBytes > maxBlocks then .error .cfgLenTooLarge else .ok ()

/-- `DST_LEN > 255` (R32, R282). -/
def checkTagLength (s : State) : Except Cause Unit :=
  if s.dstLen.toNat > maxTagBytes then .error .cfgDstTooLong else .ok ()

/-- The message `MSG[0..MSG_LEN)` (R31). -/
def messageOf (s : State) : List Byte := s.msg.readBytes .msg 0 s.msgLen.toNat

/-- The tag `DST[0..DST_LEN)` (R32, R215). -/
def tagOf (s : State) : List Byte := s.dst.readBytes .dst 0 s.dstLen.toNat

end Sys2Proof.Machine
end

