-- ==== Sys2Proof/Machine/Cofactor.lean ====
section
/-! DEFINITION. The commands of cofactor_clear_endomorphism_g2: PSI and CLRCOF (spec/44_cofactor.md R191, R194). -/

namespace Sys2Proof.Machine

/-- The checks and the effect of `PSI Pd, Ps` (R191). -/
def runPsi (pd ps : Nat) (s : State) : Except Cause State := do
  checkPointIndex pd
  checkPointIndex ps
  let q ← pointOperandG2 s ps
  let r ← checkedG2 fq2Ops s.k (psiPoint s.k q)
  .ok (s.setPointReg pd (pointRegG2 r))

/-- `PSI Pd, Ps` (R191). -/
def execPsi (pd ps : Nat) (s : State) : Host.Outcome State Fault Refusal := complete s (runPsi pd ps s)

/-- The checks and the effect of `CLRCOF Pd, Ps` (R194). -/
def runClrcof (pd ps : Nat) (s : State) : Except Cause State := do
  checkPointIndex pd
  checkPointIndex ps
  let q ← pointOperandG2 s ps
  let r ← clearCofactor fq2Ops s.k q
  .ok (s.setPointReg pd (pointRegG2 r))

/-- `CLRCOF Pd, Ps` (R194). -/
def execClrcof (pd ps : Nat) (s : State) : Host.Outcome State Fault Refusal := complete s (runClrcof pd ps s)

end Sys2Proof.Machine
end

