-- ==== Sys2Proof/Machine/Sha256.lean ====
section
/-! DEFINITION. The hash collaborator SHA-256 (spec/49_collaborators.md R260 to R262). -/

namespace Sys2Proof.Machine

/-- The eight working words `a` to `h`, or the chaining value `H[0]` to `H[7]` (R262). -/
structure ShaState where
  a : Word
  b : Word
  c : Word
  d : Word
  e : Word
  f : Word
  g : Word
  h : Word
  deriving DecidableEq, Repr

/-- The initial hash words `H0[0..7]` (R261). -/
def shaInit : ShaState :=
  ⟨0x6a09e667#32, 0xbb67ae85#32, 0x3c6ef372#32, 0xa54ff53a#32, 0x510e527f#32, 0x9b05688c#32, 0x1f83d9ab#32,
    0x5be0cd19#32⟩

/-- The round constants `KS[0..63]` (R261). -/
def shaRoundConstants : List Word := [
  0x428a2f98#32, 0x71374491#32, 0xb5c0fbcf#32, 0xe9b5dba5#32, 0x3956c25b#32, 0x59f111f1#32, 0x923f82a4#32, 0xab1c5ed5#32,
  0xd807aa98#32, 0x12835b01#32, 0x243185be#32, 0x550c7dc3#32, 0x72be5d74#32, 0x80deb1fe#32, 0x9bdc06a7#32, 0xc19bf174#32,
  0xe49b69c1#32, 0xefbe4786#32, 0x0fc19dc6#32, 0x240ca1cc#32, 0x2de92c6f#32, 0x4a7484aa#32, 0x5cb0a9dc#32, 0x76f988da#32,
  0x983e5152#32, 0xa831c66d#32, 0xb00327c8#32, 0xbf597fc7#32, 0xc6e00bf3#32, 0xd5a79147#32, 0x06ca6351#32, 0x14292967#32,
  0x27b70a85#32, 0x2e1b2138#32, 0x4d2c6dfc#32, 0x53380d13#32, 0x650a7354#32, 0x766a0abb#32, 0x81c2c92e#32, 0x92722c85#32,
  0xa2bfe8a1#32, 0xa81a664b#32, 0xc24b8b70#32, 0xc76c51a3#32, 0xd192e819#32, 0xd6990624#32, 0xf40e3585#32, 0x106aa070#32,
  0x19a4c116#32, 0x1e376c08#32, 0x2748774c#32, 0x34b0bcb5#32, 0x391c0cb3#32, 0x4ed8aa4a#32, 0x5b9cca4f#32, 0x682e6ff3#32,
  0x748f82ee#32, 0x78a5636f#32, 0x84c87814#32, 0x8cc70208#32, 0x90befffa#32, 0xa4506ceb#32, 0xbef9a3f7#32, 0xc67178f2#32]

/-- `s0` of the message schedule (R262). -/
def shaSmall0 (x : Word) : Word := x.rotateRight 7 ^^^ x.rotateRight 18 ^^^ (x >>> 3)

/-- `s1` of the message schedule (R262). -/
def shaSmall1 (x : Word) : Word := x.rotateRight 17 ^^^ x.rotateRight 19 ^^^ (x >>> 10)

/-- `S0` of a round (R262). -/
def shaBig0 (x : Word) : Word := x.rotateRight 2 ^^^ x.rotateRight 13 ^^^ x.rotateRight 22

/-- `S1` of a round (R262). -/
def shaBig1 (x : Word) : Word := x.rotateRight 6 ^^^ x.rotateRight 11 ^^^ x.rotateRight 25

/-- `ch` of a round (R262). -/
def shaCh (e f g : Word) : Word := (e &&& f) ^^^ (~~~e &&& g)

/-- `maj` of a round (R262). -/
def shaMaj (a b c : Word) : Word := (a &&& b) ^^^ (a &&& c) ^^^ (b &&& c)

/-- `n` further words of the message schedule. The words so far stand newest first, so `W[t-2]`, `W[t-7]`,
`W[t-15]`, `W[t-16]` are at 1, 6, 14, 15 (R262). -/
def shaExtend : Nat → List Word → List Word
  | 0, w => w
  | n + 1, w =>
    shaExtend n ((w.getD 15 0 + shaSmall0 (w.getD 14 0) + w.getD 6 0 + shaSmall1 (w.getD 1 0)) :: w)

/-- Words of a byte string, four bytes each, most significant byte first (R262). -/
def shaWords : List Byte → List Word
  | b0 :: b1 :: b2 :: b3 :: rest => BitVec.ofNat 32 (os2ip [b0, b1, b2, b3]) :: shaWords rest
  | _ => []

/-- The schedule `W[0..63]` of one 64-byte block (R262). -/
def shaSchedule (block : List Byte) : List Word := (shaExtend 48 (shaWords block).reverse).reverse

/-- One round with `KS[t]` and `W[t]` (R262). -/
def shaRound (s : ShaState) (kw : Word × Word) : ShaState :=
  let t1 := s.h + shaBig1 s.e + shaCh s.e s.f s.g + kw.1 + kw.2
  let t2 := shaBig0 s.a + shaMaj s.a s.b s.c
  ⟨t1 + t2, s.a, s.b, s.c, s.d + t1, s.e, s.f, s.g⟩

/-- Word by word addition of the working words to the chaining value (R262). -/
def shaAdd (x y : ShaState) : ShaState :=
  ⟨x.a + y.a, x.b + y.b, x.c + y.c, x.d + y.d, x.e + y.e, x.f + y.f, x.g + y.g, x.h + y.h⟩

/-- One block (R262). -/
def shaBlock (h : ShaState) (block : List Byte) : ShaState :=
  shaAdd h ((shaRoundConstants.zip (shaSchedule block)).foldl shaRound h)

/-- `n` consecutive 64-byte blocks of `s` (R262). -/
def shaBlocks : Nat → List Byte → ShaState → ShaState
  | 0, _, h => h
  | n + 1, s, h => shaBlocks n (s.drop 64) (shaBlock h (s.take 64))

/-- `m || byte(0x80) || 0x00^k || be8(8 * L)` with `k = (55 - L) mod 64` (R262). The subtraction is written so that
it stays a natural number. -/
def shaPad (m : List Byte) : List Byte :=
  m ++ byteOf 0x80 :: zeroBytes ((119 - m.length % 64) % 64) ++ bigEndian 8 (8 * m.length)

/-- The digest of a chaining value: `be4(H[0]) || ... || be4(H[7])` (R262). -/
def shaDigest (h : ShaState) : List Byte :=
  [h.a, h.b, h.c, h.d, h.e, h.f, h.g, h.h].flatMap fun w => bigEndian 4 w.toNat

/-- `sha256(m)` (R260, R262). -/
def sha256 (m : List Byte) : List Byte :=
  let pad := shaPad m
  shaDigest (shaBlocks (pad.length / 64) pad shaInit)

end Sys2Proof.Machine
end

