-- ==== Sys2Proof/Machine/Expander.lean ====
section
/-! DEFINITION. The pure functions `expand_xmd` and `hash_to_field` (spec/40_xmd.md R120 to R124,
spec/41_hash_to_field.md R140). -/

namespace Sys2Proof.Machine

/-- `dst_prime` (R122). -/
def dstPrime (dst : List Byte) : List Byte := dst ++ [byteOf dst.length]

/-- `msg_prime` (R122). -/
def msgPrime (msg dst : List Byte) (n : Nat) : List Byte :=
  zeroBytes 64 ++ msg ++ be2 n ++ [byteOf 0] ++ dstPrime dst

/-- `b_0` (R122). -/
def xmdFirstHash (msg dst : List Byte) (n : Nat) : List Byte := sha256 (msgPrime msg dst n)

/-- The concatenation of `count` output blocks `b_i || b_(i+1) || ...`, where `mixed` is what block `i` hashes
before its counter byte: `b_0` for `i = 1`, else `xor(b_0, b_(i-1))` (R123). -/
def xmdBlocks (b0 dst' : List Byte) : Nat → Nat → List Byte → List Byte
  | 0, _, _ => []
  | count + 1, i, mixed =>
    let bi := sha256 (mixed ++ [byteOf i] ++ dst')
    bi ++ xmdBlocks b0 dst' count (i + 1) (xorBytes b0 bi)

/-- `expand_xmd(msg, dst, n)` (R120, R121, R124): the length is tested before the tag. -/
def expandXmd (msg dst : List Byte) (n : Nat) : Except Cause (List Byte) :=
  let ell := ceilDiv n digestBytes
  if ell > maxBlocks then .error .cfgLenTooLarge
  else if dst.length > maxTagBytes then .error .cfgDstTooLong
  else
    let b0 := xmdFirstHash msg dst n
    .ok ((xmdBlocks b0 (dstPrime dst) ell 1 b0).take n)

/-- The field element of window `j` of the expanded bytes: 48 bytes, big-endian, modulo `p` (R140). -/
def windowElement (p : Nat) (e : List Byte) (j : Nat) : Nat := os2ip (slice e (windowBytes * j) windowBytes) % p

/-- `hash_to_field(msg, dst, count)` with the modulus `K.P` (R140). -/
def hashToField (p : Nat) (msg dst : List Byte) (count : Nat) : Except Cause (List Nat) :=
  match expandXmd msg dst (windowBytes * count) with
  | .error c => .error c
  | .ok e => .ok ((List.range count).map (windowElement p e))

end Sys2Proof.Machine
end

