-- ==== Sys2Proof/Machine/Expand.lean ====
section
/-! DEFINITION. The commands of message_expander_xmd and the field hasher: EXPAND and H2F (spec/40_xmd.md R125,
spec/41_hash_to_field.md R141). -/

namespace Sys2Proof.Machine

/-- `MemWrite(XOUT, 0, n, out)` and `XOUT_LEN <- n`; the bytes of `XOUT` beyond become unspecified (R75, R125). -/
def State.writeXout (s : State) (out : List Byte) (n : Nat) : State :=
  { s with xout := Memory.ofBytes out s.draws, xoutLen := BitVec.ofNat 16 n, draws := s.draws + 1 }

/-- The checks and the effect of `EXPAND n` (R125). -/
def runExpand (n : Nat) (s : State) : Except Cause State := do
  checkMessageLength s
  checkExpansionLength n
  checkTagLength s
  let out ← expandXmd (messageOf s) (tagOf s) n
  .ok (s.writeXout out n)

/-- `EXPAND n` (R125). -/
def execExpand (n : Nat) (s : State) : Host.Outcome State Fault Refusal := complete s (runExpand n s)

/-- `fd + count > 256`: the destination range passes register 255 (R93, R141). -/
def checkFieldRange (fd count : Nat) : Except Cause Unit :=
  if fd + count > 256 then .error .operand else .ok ()

/-- The checks and the effect of `H2F Fd, count` (R141). -/
def runH2f (fd count : Nat) (s : State) : Except Cause State := do
  checkFieldRange fd count
  checkMessageLength s
  checkExpansionLength (windowBytes * count)
  checkTagLength s
  let us ← hashToField s.k.p (messageOf s) (tagOf s) count
  .ok (s.writeFields fd us)

/-- `H2F Fd, count` (R141). -/
def execH2f (fd count : Nat) (s : State) : Host.Outcome State Fault Refusal := complete s (runH2f fd count s)

end Sys2Proof.Machine
end

