-- ==== Sys2Proof/Machine/Map.lean ====
section
/-! DEFINITION. The commands of the SVDW mapper: MAP1 and MAP2 (spec/43_svdw_map.md R170, R171). -/

namespace Sys2Proof.Machine

/-- The checks and the effect of `MAP1 Pd, Fs` (R170). -/
def runMap1 (pd fs : Nat) (s : State) : Except Cause State := do
  checkPointIndex pd
  let u ← fieldOperand s fs
  let xy ← svdwMapG1 fqOps s.k u
  .ok (s.setPointReg pd (pointRegG1 (.affine xy.1 xy.2)))

/-- `MAP1 Pd, Fs` (R170). -/
def execMap1 (pd fs : Nat) (s : State) : Host.Outcome State Fault Refusal := complete s (runMap1 pd fs s)

/-- The checks and the effect of `MAP2 Pd, Fs` (R171). -/
def runMap2 (pd fs : Nat) (s : State) : Except Cause State := do
  checkPointIndex pd
  let u ← pairOperand s fs
  let xy ← svdwMapG2 fq2Ops s.k u
  .ok (s.setPointReg pd (pointRegG2 (.affine xy.1 xy.2)))

/-- `MAP2 Pd, Fs` (R171). -/
def execMap2 (pd fs : Nat) (s : State) : Host.Outcome State Fault Refusal := complete s (runMap2 pd fs s)

end Sys2Proof.Machine
end

