-- ==== Sys2Proof/Machine/Hashing.lean ====
section
/-! DEFINITION. The orchestrator sequences as pure functions of the message and the tag (spec/45_orchestrators.md
R210 to R216). -/

namespace Sys2Proof.Machine

/-- The affine point of a map's answer. -/
def affineOf {α : Type} (xy : α × α) : Point α := .affine xy.1 xy.2

/-- From `(u0, u1)` to the sum of the two mapped points; `u0` is mapped first (R211). -/
def sumMapsG1 (F : FieldOps Nat) (k : Consts) (u0 u1 : Nat) : Except Cause (Point Nat) := do
  let q0 ← svdwMapG1 F k u0
  let q1 ← svdwMapG1 F k u1
  .ok (ptAdd F (affineOf q0) (affineOf q1))

/-- From `U0`, `U1` to the sum of the two mapped points; `U0` is mapped first (R212). -/
def sumMapsG2 (F : FieldOps Fq2) (k : Consts) (u0 u1 : Fq2) : Except Cause (Point Fq2) := do
  let q0 ← svdwMapG2 F k u0
  let q1 ← svdwMapG2 F k u1
  .ok (ptAdd F (affineOf q0) (affineOf q1))

/-- `HashToG1` (R211). -/
def hashToG1 (F : FieldOps Nat) (k : Consts) (msg dst : List Byte) : Except Cause (Point Nat) := do
  let us ← hashToField k.p msg dst 2
  let r ← sumMapsG1 F k (us.getD 0 0) (us.getD 1 0)
  finalCheckG1 F k r

/-- `HashToG2` up to and with the clearing, before the final check (R212): `U0 = (u0, u1)`, `U1 = (u2, u3)`. -/
def clearedHashG2 (F : FieldOps Fq2) (k : Consts) (msg dst : List Byte) : Except Cause (Point Fq2) := do
  let us ← hashToField k.p msg dst 4
  let s ← sumMapsG2 F k ⟨us.getD 0 0, us.getD 1 0⟩ ⟨us.getD 2 0, us.getD 3 0⟩
  clearCofactor F k s

/-- `HashToG2` (R212). -/
def hashToG2 (F : FieldOps Fq2) (k : Consts) (msg dst : List Byte) : Except Cause (Point Fq2) := do
  let r ← clearedHashG2 F k msg dst
  finalCheckG2 F k r

/-- `EncodeToG2` up to and with the clearing, before the final check (R214): one map application,
`U = (u0, u1)`. -/
def clearedEncodeG2 (F : FieldOps Fq2) (k : Consts) (msg dst : List Byte) : Except Cause (Point Fq2) := do
  let us ← hashToField k.p msg dst 2
  let q ← svdwMapG2 F k ⟨us.getD 0 0, us.getD 1 0⟩
  clearCofactor F k (affineOf q)

/-- `EncodeToG2` (R214). -/
def encodeToG2 (F : FieldOps Fq2) (k : Consts) (msg dst : List Byte) : Except Cause (Point Fq2) := do
  let r ← clearedEncodeG2 F k msg dst
  finalCheckG2 F k r

end Sys2Proof.Machine
end

