-- ==== Sys2Proof/Machine/Orchestrators.lean ====
section
/-! DEFINITION. The orchestrator commands HASHG1, HASHG2, ENCG2 (spec/45_orchestrators.md R211, R212, R214). Their
expansion lengths, 96 and 192 bytes, always pass the length check. -/

namespace Sys2Proof.Machine

/-- The checks the three commands make before their algorithm (R211, R212, R214). -/
def checkHashOperands (pd : Nat) (s : State) : Except Cause Unit := do
  checkPointIndex pd
  checkMessageLength s
  checkTagLength s

/-- The checks and the effect of `HASHG1 Pd` (R211). -/
def runHashg1 (pd : Nat) (s : State) : Except Cause State := do
  checkHashOperands pd s
  let r ← hashToG1 fqOps s.k (messageOf s) (tagOf s)
  .ok (s.setPointReg pd (pointRegG1 r))

/-- `HASHG1 Pd` (R211). -/
def execHashg1 (pd : Nat) (s : State) : Host.Outcome State Fault Refusal := complete s (runHashg1 pd s)

/-- The checks and the effect of `HASHG2 Pd` (R212). -/
def runHashg2 (pd : Nat) (s : State) : Except Cause State := do
  checkHashOperands pd s
  let r ← hashToG2 fq2Ops s.k (messageOf s) (tagOf s)
  .ok (s.setPointReg pd (pointRegG2 r))

/-- `HASHG2 Pd` (R212). -/
def execHashg2 (pd : Nat) (s : State) : Host.Outcome State Fault Refusal := complete s (runHashg2 pd s)

/-- The checks and the effect of `ENCG2 Pd` (R214). -/
def runEncg2 (pd : Nat) (s : State) : Except Cause State := do
  checkHashOperands pd s
  let r ← encodeToG2 fq2Ops s.k (messageOf s) (tagOf s)
  .ok (s.setPointReg pd (pointRegG2 r))

/-- `ENCG2 Pd` (R214). -/
def execEncg2 (pd : Nat) (s : State) : Host.Outcome State Fault Refusal := complete s (runEncg2 pd s)

end Sys2Proof.Machine
end

