-- ==== Sys2Proof/Machine/Flags.lean ====
section
/-! DEFINITION. `STATUS` as the host sees it, its flag `SGN`, and the fault output (spec/10_state.md R25, R26;
spec/60_exceptions.md R289). -/

namespace Sys2Proof.Machine

/-- The 32 bits of `STATUS`: bit 0 is `FAULT`, bit 1 is `SGN`, bits 31 to 2 read as 0 (R25). -/
def statusWord (st : Status) : Word :=
  (if st.fault then 1#32 else 0#32) ||| (if st.sgn then 2#32 else 0#32)

/-- `STATUS.SGN <- b` (R18, R26). -/
def State.writeSgn (s : State) (b : Bool) : State := { s with status := { s.status with sgn := b } }

/-- The output line `fault_o`: its level equals `STATUS.FAULT` at all times (R289). -/
def faultOutput (s : State) : Bool := s.status.fault

end Sys2Proof.Machine
end

