-- ==== Sys2Proof/Machine/Sign.lean ====
section
/-! DEFINITION. The commands of sgn0_function: SGN0 and SGN0E (spec/42_sgn0.md R152, R153). -/

namespace Sys2Proof.Machine

/-- The checks and the effect of `SGN0 Fs` (R152). -/
def runSgn0 (fs : Nat) (s : State) : Except Cause State := do
  let x ← fieldOperand s fs
  .ok (s.writeSgn (sgn0Fq x))

/-- `SGN0 Fs` (R152). -/
def execSgn0 (fs : Nat) (s : State) : Host.Outcome State Fault Refusal := complete s (runSgn0 fs s)

/-- The checks and the effect of `SGN0E Fs` (R153). -/
def runSgn0e (fs : Nat) (s : State) : Except Cause State := do
  let x ← pairOperand s fs
  .ok (s.writeSgn (sgn0Fq2 x))

/-- `SGN0E Fs` (R153). -/
def execSgn0e (fs : Nat) (s : State) : Host.Outcome State Fault Refusal := complete s (runSgn0e fs s)

end Sys2Proof.Machine
end

