-- ==== Sys2Proof/Machine/Dispatch.lean ====
section
/-! DEFINITION. One command: the meaning of each constructor of `Instr` (spec/30_encoding.md R94). -/

namespace Sys2Proof.Machine

-- The command runs with its word already latched in CMD and STATUS.FAULT clear (R90).
def exec (i : Instr) (s : State) : Host.Outcome State Fault Refusal :=
  match i with
  | .expand n => Sys2Proof.Machine.execExpand n s
  | .h2f fd count => Sys2Proof.Machine.execH2f fd count s
  | .sgn0 fs => Sys2Proof.Machine.execSgn0 fs s
  | .sgn0e fs => Sys2Proof.Machine.execSgn0e fs s
  | .map1 pd fs => Sys2Proof.Machine.execMap1 pd fs s
  | .map2 pd fs => Sys2Proof.Machine.execMap2 pd fs s
  | .psi pd ps => Sys2Proof.Machine.execPsi pd ps s
  | .clrcof pd ps => Sys2Proof.Machine.execClrcof pd ps s
  | .hashg1 pd => Sys2Proof.Machine.execHashg1 pd s
  | .hashg2 pd => Sys2Proof.Machine.execHashg2 pd s
  | .encg2 pd => Sys2Proof.Machine.execEncg2 pd s

end Sys2Proof.Machine
end

