-- ==== Sys2Proof/Machine/HostAccess.lean ====
section
/-! DEFINITION. The host's accesses and the issue of a command (spec/20_memory.md R62 to R75;
spec/30_encoding.md R90; spec/60_exceptions.md R286, R290). -/

namespace Sys2Proof.Machine

/-- A host write of `w` to `CMD`: ignored while `STATUS.FAULT = 1`; otherwise `w` is latched, decoded, and run or
faulted (R27, R90, R286). -/
def issue (w : Word) (s : State) : Host.Outcome State Fault Refusal :=
  if s.status.fault then .next s
  else
    match decode w with
    | .ok i => exec i { s with cmd := w }
    | .error _ => .next (raiseFault .illegalCmd { s with cmd := w })

/-- A host read that returns `v` and changes nothing of the block (R62). -/
def hostReturns (v : HostValue) (s : State) : Host.Outcome State Fault Refusal := .next { s with returned := v }

/-- An access to item `i` of a buffer or file of `size` items; at or beyond the size it does not exist (R67). -/
def hostIndexed (i size : Nat) (access : Host.Outcome State Fault Refusal) : Host.Outcome State Fault Refusal :=
  if i < size then access else .refused .noSuchAccess

/-- Byte `i` of `XOUT` as the host reads it: unspecified at `XOUT_LEN` and above (R75). -/
def hostXoutByte (s : State) (i : Nat) : Byte :=
  if i < s.xoutLen.toNat then s.xout.read .xout i else Config.freeByte .xout s.xout.draw i

/-- `HostRead(F, k)`: the value part is unspecified while the valid bit is 0 (R73, U2). -/
def hostFieldValue (s : State) (k : Nat) : HostValue :=
  match s.f[k]? with
  | some r => if r.valid then .field true r.val else .field false (Config.freeField s.draws k)
  | none => .nothing

/-- `HostRead(PT, k)`: the other fields are unspecified while the valid bit is 0 (R73, U2). -/
def hostPointValue (s : State) (k : Nat) : HostValue :=
  match s.pt[k]? with
  | some r => if r.valid then .point r else .point (emptyPointReg s.draws k)
  | none => .nothing

/-- `HostWrite(F, k, v)`: a value at or above `P` leaves the register not valid and its value unspecified (R71). -/
def hostWriteField (k : Nat) (v : Wide) (s : State) : State :=
  if v.toNat < fieldP then s.writeField k v.toNat
  else { s.setFieldReg k (emptyFieldReg s.draws k) with draws := s.draws + 1 }

/-- `HostWrite(PT, k, ...)`: the fields are stored and the valid bit says whether they are well formed (R72). A
register left not valid reads as a fresh draw (R73). -/
def hostWritePoint (k : Nat) (grp : Group) (inf : Bool) (x0 x1 y0 y1 : Wide) (s : State) : State :=
  let r : PointReg := ⟨true, grp, inf, x0, x1, y0, y1⟩
  if r.wellFormed s.k then s.setPointReg k r
  else { s.setPointReg k { r with valid := false } with draws := s.draws + 1 }

/-- `HostRead(K, name)` (R21, R62). -/
def hostConst (k : Consts) : ConstName → HostValue
  | .p => .const k.p
  | .rOrder => .const k.rOrder
  | .xGen => .const k.xGen
  | .b1 => .const k.b1
  | .z1 => .const k.z1
  | .c1_1 => .const k.c1_1
  | .c2_1 => .const k.c2_1
  | .c3_1 => .const k.c3_1
  | .c4_1 => .const k.c4_1
  | .b2 => .const2 k.b2
  | .z2 => .const2 k.z2
  | .c1_2 => .const2 k.c1_2
  | .c2_2 => .const2 k.c2_2
  | .c3_2 => .const2 k.c3_2
  | .c4_2 => .const2 k.c4_2
  | .endoU => .const2 k.endoU
  | .endoV => .const2 k.endoV
  | .ellMax => .const k.ellMax
  | .dstMax => .const k.dstMax
  | .lBytes => .const k.lBytes

/-- A host write to `CTRL`: bit 0 resets, the other bits are ignored (R30). -/
def hostWriteCtrl (w : Word) (s : State) : State := if w.getLsbD 0 then softReset s else s

/-- One event of the total order (R61, R62, R67, R320). -/
def hostAccess (e : HostEvent) (s : State) : Host.Outcome State Fault Refusal :=
  match e with
  | .assertRst => .next (softReset s)
  | .writeCmd w => issue w s
  | .readCmd => hostReturns (.word s.cmd) s
  | .readStatus => hostReturns (.word (statusWord s.status)) s
  | .writeStatus _ => .next s
  | .readErr => hostReturns (.byte s.err) s
  | .writeErr _ => .next s
  | .readErrInfo => hostReturns (.word s.errInfo) s
  | .writeErrInfo _ => .next s
  | .readCtrl => hostReturns (.word 0) s
  | .writeCtrl w => .next (hostWriteCtrl w s)
  | .readMsgLen => hostReturns (.word s.msgLen) s
  | .writeMsgLen v => .next { s with msgLen := v }
  | .readDstLen => hostReturns (.half s.dstLen) s
  | .writeDstLen v => .next { s with dstLen := v }
  | .readXoutLen => hostReturns (.half s.xoutLen) s
  | .writeXoutLen _ => .next s
  | .readMsg i => hostIndexed i Config.msgMax.toNat (hostReturns (.byte (s.msg.read .msg i)) s)
  | .writeMsg i b => hostIndexed i Config.msgMax.toNat (.next { s with msg := s.msg.write i b })
  | .readDst i => hostIndexed i maxTagBytes (hostReturns (.byte (s.dst.read .dst i)) s)
  | .writeDst i b => hostIndexed i maxTagBytes (.next { s with dst := s.dst.write i b })
  | .readXout i => hostIndexed i xoutBytes (hostReturns (.byte (hostXoutByte s i)) s)
  | .writeXout _ _ => .refused .noSuchAccess
  | .readF k => hostIndexed k numFieldRegs (hostReturns (hostFieldValue s k) s)
  | .writeF k v => hostIndexed k numFieldRegs (.next (hostWriteField k v s))
  | .readPt k => hostIndexed k numPointRegs (hostReturns (hostPointValue s k) s)
  | .writePt k grp inf x0 x1 y0 y1 =>
    hostIndexed k numPointRegs (.next (hostWritePoint k grp inf x0 x1 y0 y1 s))
  | .readK name => hostReturns (hostConst s.k name) s
  | .writeK _ _ => .refused .noSuchAccess

/-- The state in which the next event is performed: it has left the host's list, and nothing is returned yet. -/
def State.takeEvent (s : State) (rest : List HostEvent) : State :=
  { s with pending := rest, returned := .nothing }

/-- One step: the next event of the host's list; with none left the block is idle and keeps all its state (R61,
R300). -/
def stepHost (s : State) : Host.Outcome State Fault Refusal :=
  match s.pending with
  | [] => .next s
  | e :: rest => hostAccess e (s.takeEvent rest)

/-- The state with a write of command word `w` put before the host's other accesses. -/
def State.withCommand (s : State) (w : Word) : State := { s with pending := .writeCmd w :: s.pending }

end Sys2Proof.Machine
end

