-- ==== Sys2Proof/Machine/Step.lean ====
section
/-! DEFINITION. The step of the machine: the next event of the total order of host accesses (spec/20_memory.md R61;
spec/10_state.md R24). -/

namespace Sys2Proof.Machine

/-- One step (R61). -/
def step (s : State) : Host.Outcome State Fault Refusal := stepHost s

/-- The state in which the very next step issues the command word of `nbits` bits `w` (R24, R70, R90): the block
fetches nothing, so the word stands as the host's next write to `CMD`. -/
def State.withFetchWord (s : State) (nbits w : Nat) : State := s.withCommand (BitVec.ofNat 32 (w % 2 ^ nbits))

end Sys2Proof.Machine
end

