-- ==== Sys2Proof/Safety.lean ====
section
/-! DEFINITION. The terms claims about the machine are stated in: the invariant every step keeps, what each command
reads and writes (spec/20_memory.md R74), which causes it can raise (spec/60_exceptions.md R296), which host events
are reads or resets. -/

namespace Sys2Proof.Machine

/-! ### The invariant -/

/-- Every valid field register holds a canonical representative (R22). -/
def State.fieldsCanonical (s : State) : Prop :=
  ∀ (k : Nat) (r : FieldReg), s.f[k]? = some r → r.valid = true → r.val.toNat < fieldP

/-- Every valid point register holds a well-formed point of its group, on its curve (R23). -/
def State.pointsWellFormed (s : State) : Prop :=
  ∀ (k : Nat) (r : PointReg), s.pt[k]? = some r → r.valid = true → r.wellFormed s.k = true

/-- The buffers are in canonical form, within their sizes (R34). `XOUT` lists exactly its first `XOUT_LEN` bytes, at
most 8160 (R33, R75). -/
def State.buffersWellFormed (s : State) : Prop :=
  s.msg.wf Config.msgMax.toNat = true ∧ s.dst.wf maxTagBytes = true ∧ s.xout.wf s.xoutLen.toNat = true ∧
  s.xoutLen.toNat ≤ xoutBytes ∧ ∀ j, j < s.xoutLen.toNat → (cellsRead s.xout.cells j).isSome = true

/-- `ERR` and `ERRINFO` are 0 without a fault; with one, `ERR` is one of the codes 1 to 8 and `ERRINFO` is the
faulting word, which `CMD` still holds (R28, R29, R284, R286). -/
def State.faultRegistersConsistent (s : State) : Prop :=
  (s.status.fault = false → s.err = 0 ∧ s.errInfo = 0) ∧
  (s.status.fault = true → (∃ c, s.err = causeCode c) ∧ s.errInfo = s.cmd)

/-- What holds of the block after reset and after every step: the constant table is the spec's (R21, R36), and the
invariants above. -/
structure State.Inv (s : State) : Prop where
  table : s.k = constTable
  fields : s.fieldsCanonical
  points : s.pointsWellFormed
  buffers : s.buffersWellFormed
  faults : s.faultRegistersConsistent

end Sys2Proof.Machine

namespace Sys2Proof

/-! ### What a command writes (R20, R74) -/

/-- The point register the command writes. -/
def Instr.pointDest : Instr → Option Nat
  | .expand _ => none
  | .h2f _ _ => none
  | .sgn0 _ => none
  | .sgn0e _ => none
  | .map1 pd _ => some pd
  | .map2 pd _ => some pd
  | .psi pd _ => some pd
  | .clrcof pd _ => some pd
  | .hashg1 pd => some pd
  | .hashg2 pd => some pd
  | .encg2 pd => some pd

/-- The first field register the command writes and how many. -/
def Instr.fieldDest : Instr → Nat × Nat
  | .h2f fd count => (fd, count)
  | .expand _ => (0, 0)
  | .sgn0 _ => (0, 0)
  | .sgn0e _ => (0, 0)
  | .map1 _ _ => (0, 0)
  | .map2 _ _ => (0, 0)
  | .psi _ _ => (0, 0)
  | .clrcof _ _ => (0, 0)
  | .hashg1 _ => (0, 0)
  | .hashg2 _ => (0, 0)
  | .encg2 _ => (0, 0)

/-- The command writes `XOUT` and `XOUT_LEN`. -/
def Instr.writesXout (i : Instr) : Bool := opcodeOf i == 0x01

/-- The command writes `STATUS.SGN`. -/
def Instr.writesSgn (i : Instr) : Bool := opcodeOf i == 0x03 || opcodeOf i == 0x04

end Sys2Proof

namespace Sys2Proof.Machine

/-! ### What a command reads, and its result (R35, R74) -/

/-- The two states agree on the message, the tag and their lengths. -/
def sameMessageAndTag (s₁ s₂ : State) : Prop :=
  s₁.msgLen = s₂.msgLen ∧ s₁.dstLen = s₂.dstLen ∧ messageOf s₁ = messageOf s₂ ∧ tagOf s₁ = tagOf s₂

/-- The two states agree on the constants and on every item R74 says the command reads. -/
def sameReads (i : Instr) (s₁ s₂ : State) : Prop :=
  s₁.k = s₂.k ∧
  match i with
  | .expand _ => sameMessageAndTag s₁ s₂
  | .h2f _ _ => sameMessageAndTag s₁ s₂
  | .sgn0 fs => s₁.readField fs = s₂.readField fs
  | .sgn0e fs => s₁.readField fs = s₂.readField fs ∧ s₁.readField (fs + 1) = s₂.readField (fs + 1)
  | .map1 _ fs => s₁.readField fs = s₂.readField fs
  | .map2 _ fs => s₁.readField fs = s₂.readField fs ∧ s₁.readField (fs + 1) = s₂.readField (fs + 1)
  | .psi _ ps => s₁.pt[ps]? = s₂.pt[ps]?
  | .clrcof _ ps => s₁.pt[ps]? = s₂.pt[ps]?
  | .hashg1 _ => sameMessageAndTag s₁ s₂
  | .hashg2 _ => sameMessageAndTag s₁ s₂
  | .encg2 _ => sameMessageAndTag s₁ s₂

/-- The two states hold the same value in every item R74 says the command writes. -/
def sameWritten (i : Instr) (t₁ t₂ : State) : Prop :=
  match i with
  | .expand n => t₁.xoutLen = t₂.xoutLen ∧ ∀ j, j < n → hostXoutByte t₁ j = hostXoutByte t₂ j
  | .h2f fd count => ∀ j, j < count → t₁.readField (fd + j) = t₂.readField (fd + j)
  | .sgn0 _ => t₁.status.sgn = t₂.status.sgn
  | .sgn0e _ => t₁.status.sgn = t₂.status.sgn
  | .map1 pd _ => t₁.pt[pd]? = t₂.pt[pd]?
  | .map2 pd _ => t₁.pt[pd]? = t₂.pt[pd]?
  | .psi pd _ => t₁.pt[pd]? = t₂.pt[pd]?
  | .clrcof pd _ => t₁.pt[pd]? = t₂.pt[pd]?
  | .hashg1 pd => t₁.pt[pd]? = t₂.pt[pd]?
  | .hashg2 pd => t₁.pt[pd]? = t₂.pt[pd]?
  | .encg2 pd => t₁.pt[pd]? = t₂.pt[pd]?

/-! ### Causes (R296) -/

/-- The causes R296 does not leave blank for the command. -/
def allowedCauses : Instr → List Cause
  | .expand _ => [.cfgLenTooLarge, .cfgDstTooLong, .operand]
  | .h2f _ _ => [.cfgLenTooLarge, .cfgDstTooLong, .operand]
  | .sgn0 _ => [.operand]
  | .sgn0e _ => [.operand]
  | .map1 _ _ => [.intNoSquare, .intSqrtFailed, .operand]
  | .map2 _ _ => [.intNoSquare, .intSqrtFailed, .intNotOnCurve, .operand]
  | .psi _ _ => [.intNotOnCurve, .operand]
  | .clrcof _ _ => [.intNotOnCurve, .operand]
  | .hashg1 _ => [.cfgDstTooLong, .intNoSquare, .intSqrtFailed, .intNotOnCurve, .operand]
  | .hashg2 _ =>
    [.cfgDstTooLong, .intNoSquare, .intSqrtFailed, .intNotOnCurve, .intNotInSubgroup, .operand]
  | .encg2 _ =>
    [.cfgDstTooLong, .intNoSquare, .intSqrtFailed, .intNotOnCurve, .intNotInSubgroup, .operand]

/-! ### Host events -/

/-- The event is a host read (R62, R30). -/
def HostEvent.isRead : HostEvent → Bool
  | .readCmd | .readStatus | .readErr | .readErrInfo | .readCtrl | .readMsgLen | .readDstLen | .readXoutLen => true
  | .readMsg _ | .readDst _ | .readXout _ | .readF _ | .readPt _ | .readK _ => true
  | .assertRst | .writeCmd _ | .writeStatus _ | .writeErr _ | .writeErrInfo _ | .writeCtrl _ => false
  | .writeMsgLen _ | .writeDstLen _ | .writeXoutLen _ | .writeMsg _ _ | .writeDst _ _ | .writeXout _ _ => false
  | .writeF _ _ | .writePt _ _ _ _ _ _ _ | .writeK _ _ => false

/-- The event resets the block: the input `rst`, or a write to `CTRL` with bit 0 set (R320). -/
def HostEvent.isReset : HostEvent → Bool
  | .assertRst => true
  | .writeCtrl w => w.getLsbD 0
  | .writeCmd _ | .writeStatus _ | .writeErr _ | .writeErrInfo _ => false
  | .readCmd | .readStatus | .readErr | .readErrInfo | .readCtrl | .readMsgLen | .readDstLen | .readXoutLen => false
  | .readMsg _ | .readDst _ | .readXout _ | .readF _ | .readPt _ | .readK _ => false
  | .writeMsgLen _ | .writeDstLen _ | .writeXoutLen _ | .writeMsg _ _ | .writeDst _ _ | .writeXout _ _ => false
  | .writeF _ _ | .writePt _ _ _ _ _ _ _ | .writeK _ _ => false

/-- The access does not exist: an index at or beyond the size of its buffer or file, a write to `XOUT` or to `K`
(R67). -/
def HostEvent.isAbsent : HostEvent → Bool
  | .readMsg i => Config.msgMax.toNat ≤ i
  | .writeMsg i _ => Config.msgMax.toNat ≤ i
  | .readDst i => 255 ≤ i
  | .writeDst i _ => 255 ≤ i
  | .readXout i => 8160 ≤ i
  | .writeXout _ _ => true
  | .readF k => 256 ≤ k
  | .writeF k _ => 256 ≤ k
  | .readPt k => 16 ≤ k
  | .writePt k _ _ _ _ _ _ => 16 ≤ k
  | .writeK _ _ => true
  | .assertRst | .writeCmd _ | .writeStatus _ | .writeErr _ | .writeErrInfo _ | .writeCtrl _ => false
  | .readCmd | .readStatus | .readErr | .readErrInfo | .readCtrl | .readMsgLen | .readDstLen | .readXoutLen => false
  | .writeMsgLen _ | .writeDstLen _ | .writeXoutLen _ | .readK _ => false

/-! ### The expander's blocks and canonical points, for statements -/

/-- Output block `b_i` as R123 numbers it, from `b_0` and `dst_prime`; there is no block 0. -/
def xmdBlock (b0 dst' : List Byte) : Nat → List Byte
  | 0 => []
  | 1 => sha256 (b0 ++ [byteOf 1] ++ dst')
  | i + 2 => sha256 (xorBytes b0 (xmdBlock b0 dst' (i + 1)) ++ [byteOf (i + 2)] ++ dst')

/-- Both parts are canonical representatives (R17). -/
def canonicalFq2 (a : Fq2) : Prop := a.c0 < fieldP ∧ a.c1 < fieldP

/-- A point of E1 with canonical coordinates (R251). -/
def isPointG1 : Point Nat → Prop
  | .inf => True
  | .affine x y => x < fieldP ∧ y < fieldP ∧ onCurve fqOps constTable.b1 x y = true

/-- A point of E2 with canonical coordinates (R251). -/
def isPointG2 : Point Fq2 → Prop
  | .inf => True
  | .affine x y => canonicalFq2 x ∧ canonicalFq2 y ∧ onCurve fq2Ops constTable.b2 x y = true

/-- The points `isPoint` picks out form a commutative group under `ptAdd` with `INF` neutral and `ptNeg` the inverse
(R252, R253), and `ptMul n` is the sum of `n` copies (R255). -/
def obeysGroupLaw {α : Type} [DecidableEq α] (F : FieldOps α) (isPoint : Point α → Prop) : Prop :=
  ∀ a b c : Point α, isPoint a → isPoint b → isPoint c →
    isPoint (ptAdd F a b) ∧ ptAdd F a b = ptAdd F b a ∧ ptAdd F (ptAdd F a b) c = ptAdd F a (ptAdd F b c) ∧
    ptAdd F .inf a = a ∧ ptAdd F a .inf = a ∧ isPoint (ptNeg F a) ∧ ptAdd F a (ptNeg F a) = .inf ∧
    ptMul F 0 a = .inf ∧ ∀ n, isPoint (ptMul F n a) ∧ ptMul F (n + 1) a = ptAdd F (ptMul F n a) a

end Sys2Proof.Machine
end

