-- ==== Sys2Proof/Certificates/Slice0/Obligations.lean ====
section
/-! DEFINITION. The statements for the provers. Each docstring names the rule of spec/ it rests on. A statement whose
hypotheses speak of a concrete run has its witness in Sys2Proof/Tests/Slice0.lean. -/

open Sys2Proof Sys2Proof.Machine

/-! ### Encoding (spec/30_encoding.md) -/

/-- No bit of a well-formed command is dropped: R91, R92, R93. -/
def Obligations.DecodeInvertsEncode : Prop :=
  ∀ i : Instr, i.wf = true → decode (encode i) = .ok i

/-- A legal word has one reading, and its operands fit their fields: R90, R93. -/
def Obligations.EncodeInvertsDecode : Prop :=
  ∀ (w : Word) (i : Instr), decode w = .ok i → i.wf = true ∧ encode i = w

/-- The words of the assembler table, R96. -/
def Obligations.DecodeReadsAssemblerWords : Prop :=
  (∀ n, n ≤ 65535 → decode (BitVec.ofNat 32 (0x01000000 + n)) = .ok (.expand n)) ∧
  (∀ d n, d ≤ 255 → n ≤ 255 → decode (BitVec.ofNat 32 (0x02000000 + d * 65536 + n)) = .ok (.h2f d n)) ∧
  (∀ s, s ≤ 255 → decode (BitVec.ofNat 32 (0x03000000 + s * 256)) = .ok (.sgn0 s)) ∧
  (∀ s, s ≤ 255 → decode (BitVec.ofNat 32 (0x04000000 + s * 256)) = .ok (.sgn0e s)) ∧
  (∀ d s, d ≤ 255 → s ≤ 255 → decode (BitVec.ofNat 32 (0x05000000 + d * 65536 + s * 256)) = .ok (.map1 d s)) ∧
  (∀ d s, d ≤ 255 → s ≤ 255 → decode (BitVec.ofNat 32 (0x06000000 + d * 65536 + s * 256)) = .ok (.map2 d s)) ∧
  (∀ d s, d ≤ 255 → s ≤ 255 → decode (BitVec.ofNat 32 (0x07000000 + d * 65536 + s * 256)) = .ok (.psi d s)) ∧
  (∀ d s, d ≤ 255 → s ≤ 255 → decode (BitVec.ofNat 32 (0x08000000 + d * 65536 + s * 256)) = .ok (.clrcof d s)) ∧
  (∀ d, d ≤ 255 → decode (BitVec.ofNat 32 (0x09000000 + d * 65536)) = .ok (.hashg1 d)) ∧
  (∀ d, d ≤ 255 → decode (BitVec.ofNat 32 (0x0A000000 + d * 65536)) = .ok (.hashg2 d)) ∧
  (∀ d, d ≤ 255 → decode (BitVec.ofNat 32 (0x0B000000 + d * 65536)) = .ok (.encg2 d))

/-- The masks and values of the opcode map select exactly what the decoder reads, and no word matches two rows:
R94. -/
def Obligations.OpcodeRowsSelectOneCommand : Prop :=
  (∀ (w : Word) (r₁ r₂ : OpcodeRow), r₁ ∈ opcodeRows → r₂ ∈ opcodeRows →
    r₁.selects w = true → r₂.selects w = true → r₁ = r₂) ∧
  (∀ (w : Word) (r : OpcodeRow), r ∈ opcodeRows →
    (r.selects w = true ↔ ∃ i, decode w = .ok i ∧ mnemonicOf i = r.mnemonic))

/-- Words written out in spec/95_test_vectors.md section 11. -/
def Obligations.SampleWordsDecode : Prop :=
  decode 0x0100ffff#32 = .ok (.expand 65535) ∧ decode 0x02ff00ff#32 = .ok (.h2f 255 255) ∧
  decode 0x0300ff00#32 = .ok (.sgn0 255) ∧ decode 0x04000400#32 = .ok (.sgn0e 4) ∧
  decode 0x050f0100#32 = .ok (.map1 15 1) ∧ decode 0x0603fe00#32 = .ok (.map2 3 254) ∧
  decode 0x07010100#32 = .ok (.psi 1 1) ∧ decode 0x08100000#32 = .ok (.clrcof 16 0) ∧
  decode 0x090f0000#32 = .ok (.hashg1 15) ∧ decode 0x0a000000#32 = .ok (.hashg2 0) ∧
  decode 0x0b0f0000#32 = .ok (.encg2 15)

/-! ### The step and the issue of a command (spec/30_encoding.md, spec/20_memory.md) -/

/-- A step runs the decoded command. A write to `CMD` is ignored in the fault state, otherwise it is latched, decoded,
and run or faulted: R90, R286. -/
def Obligations.StepIssuesCommand : Prop :=
  ∀ (s : State) (w : Word) (rest : List HostEvent), s.pending = .writeCmd w :: rest →
    (s.status.fault = true → step s = .next { s with pending := rest, returned := .nothing }) ∧
    (s.status.fault = false → ∀ i, decode w = .ok i →
      step s = exec i { s with pending := rest, returned := .nothing, cmd := w }) ∧
    (s.status.fault = false → ∀ e, decode w = .error e →
      step s = .next { s with pending := rest, returned := .nothing, cmd := w,
                              status := { s.status with fault := true }, err := 0x08, errInfo := w })

/-- A word that no row of the opcode map selects raises `ILLEGAL_CMD`; such are all words whose opcode is 0x00 or 0x0C
and above: R292. -/
def Obligations.UnselectedWordRaisesIllegalCmd : Prop :=
  (∀ (s : State) (w : Word) (rest : List HostEvent), s.pending = .writeCmd w :: rest → s.status.fault = false →
    (∀ r ∈ opcodeRows, r.selects w = false) →
      step s = .next { s with pending := rest, returned := .nothing, cmd := w,
                              status := { s.status with fault := true }, err := 0x08, errInfo := w }) ∧
  (∀ (w : Word) (r : OpcodeRow), r ∈ opcodeRows → opField w = 0 ∨ 0x0C ≤ opField w → r.selects w = false) ∧
  (∀ (w : Word) (op : Nat), decode w = .error (.mustBeZero op) → ∀ r ∈ opcodeRows, r.selects w = false)

/-- With no host access to come the block is idle and keeps all its state: R300. -/
def Obligations.IdleBlockKeepsState : Prop :=
  ∀ s : State, s.pending = [] → step s = .next s

/-! ### Host accesses (spec/20_memory.md) -/

/-- No read has a side effect, and every read is idempotent: R62. -/
def Obligations.HostReadsHaveNoSideEffect : Prop :=
  ∀ (s t : State) (e : HostEvent) (rest : List HostEvent), s.pending = e :: rest → e.isRead = true →
    step s = .next t →
      t = { s with pending := rest, returned := t.returned } ∧
      ∀ u, step { t with pending := e :: rest } = .next u → u.returned = t.returned

/-- A tag byte reads back as last written, and a write leaves every other byte of the buffer alone. A message byte is
written and read likewise when its offset exists. A byte of `XOUT` below `XOUT_LEN` reads as the byte stored, one at or
above it as some byte: R62, R67, R68, R75. -/
def Obligations.BufferByteReadsBackLastWrite : Prop :=
  (∀ (s : State) (i j : Nat) (b : Byte) (rest : List HostEvent), i < 255 → j < 255 →
    s.pending = .writeDst i b :: .readDst j :: rest →
      ∃ t u, step s = .next t ∧ step t = .next u ∧
        u.returned = .byte (if j = i then b else s.dst.read .dst j)) ∧
  (∀ (s : State) (i : Nat) (b : Byte) (rest : List HostEvent), s.pending = .writeMsg i b :: rest →
    step s = (if i < Config.msgMax.toNat
      then .next { s with pending := rest, returned := .nothing, msg := s.msg.write i b }
      else .refused .noSuchAccess)) ∧
  (∀ (s : State) (j : Nat) (rest : List HostEvent), s.pending = .readMsg j :: rest →
    step s = (if j < Config.msgMax.toNat
      then .next { s with pending := rest, returned := .byte (s.msg.read .msg j) }
      else .refused .noSuchAccess)) ∧
  (∀ (m : Memory) (i j : Nat) (b : Byte),
    (m.write i b).read .msg j = if j = i then b else m.read .msg j) ∧
  (∀ (s : State) (j : Nat) (rest : List HostEvent), s.pending = .readXout j :: rest →
    step s = (if j < 8160 then .next { s with pending := rest, returned := .byte (hostXoutByte s j) }
      else .refused .noSuchAccess) ∧
    (j < s.xoutLen.toNat → hostXoutByte s j = s.xout.read .xout j))

/-- A byte of the message or of the tag, written or never written, keeps its value until the host writes it or the
block is reset; no command changes it: R37, R68, R332. -/
def Obligations.InputBytesKeptUntilWrittenOrReset : Prop :=
  ∀ (s t : State) (e : HostEvent) (rest : List HostEvent), s.pending = e :: rest → e.isReset = false →
    step s = .next t →
      (∀ i, (∀ b, e ≠ .writeMsg i b) → t.msg.read .msg i = s.msg.read .msg i) ∧
      (∀ i, (∀ b, e ≠ .writeDst i b) → t.dst.read .dst i = s.dst.read .dst i)

/-- A host write of a field register: below `P` it is stored and valid, otherwise the register is left not valid with
an unspecified value; nothing else changes but the model's draw counter: R71. -/
def Obligations.HostFieldWriteStoresOrInvalidates : Prop :=
  ∀ (s : State) (k : Nat) (v : Wide) (rest : List HostEvent), k < 256 → s.pending = .writeF k v :: rest →
    (v.toNat < fieldP →
      step s = .next { s with pending := rest, returned := .nothing, f := s.f.setIfInBounds k ⟨true, v⟩ }) ∧
    (fieldP ≤ v.toNat → ∃ (x : Wide) (d : Nat),
      step s = .next { s with pending := rest, returned := .nothing, f := s.f.setIfInBounds k ⟨false, x⟩,
                              draws := d })

/-- A host write of a point register stores the fields and sets the valid bit exactly when they are well formed: R72.
-/
def Obligations.HostPointWriteSetsValidWhenWellFormed : Prop :=
  ∀ (s : State) (k : Nat) (grp : Group) (inf : Bool) (x0 x1 y0 y1 : Wide) (rest : List HostEvent),
    k < 16 → s.pending = .writePt k grp inf x0 x1 y0 y1 :: rest →
      ∃ (valid : Bool) (d : Nat),
        step s = .next { s with pending := rest, returned := .nothing,
                                pt := s.pt.setIfInBounds k ⟨valid, grp, inf, x0, x1, y0, y1⟩, draws := d } ∧
        (valid = true ↔
          (x0.toNat < fieldP ∧ x1.toNat < fieldP ∧ y0.toNat < fieldP ∧ y1.toNat < fieldP) ∧
          (grp = .g1 → x1 = 0 ∧ y1 = 0) ∧
          (inf = true → x0 = 0 ∧ x1 = 0 ∧ y0 = 0 ∧ y1 = 0) ∧
          (inf = false → grp = .g1 →
            y0.toNat ^ 2 % fieldP = (x0.toNat ^ 3 + s.k.b1) % fieldP) ∧
          (inf = false → grp = .g2 →
            fq2Sqr ⟨y0.toNat, y1.toNat⟩ =
              fq2Add (fq2Mul (fq2Sqr ⟨x0.toNat, x1.toNat⟩) ⟨x0.toNat, x1.toNat⟩) s.k.b2))

/-- A host read of a register returns what a valid register holds, and for one that is not valid its valid bit 0 and
unspecified fields: R73. -/
def Obligations.HostRegisterReadReturnsHeldValue : Prop :=
  (∀ (s : State) (k : Nat) (r : FieldReg) (rest : List HostEvent),
    s.pending = .readF k :: rest → s.f[k]? = some r →
      ∃ x, step s = .next { s with pending := rest, returned := .field r.valid x } ∧ (r.valid = true → x = r.val)) ∧
  (∀ (s : State) (k : Nat) (r : PointReg) (rest : List HostEvent),
    s.pending = .readPt k :: rest → s.pt[k]? = some r →
      ∃ q, step s = .next { s with pending := rest, returned := .point q } ∧ q.valid = r.valid ∧
        (r.valid = true → q = r))

/-- An access that does not exist is refused, and nothing else is: R67. -/
def Obligations.OnlyAbsentAccessesAreRefused : Prop :=
  ∀ (s : State) (e : HostEvent) (rest : List HostEvent), s.pending = e :: rest →
    (e.isAbsent = true → step s = .refused .noSuchAccess) ∧
    (e.isAbsent = false → ∃ t, step s = .next t)

/-- A host write to a read-only register is ignored: R25, R28, R29, R33. -/
def Obligations.ReadOnlyRegisterWritesIgnored : Prop :=
  ∀ (s : State) (e : HostEvent) (rest : List HostEvent), s.pending = e :: rest →
    ((∃ w, e = .writeStatus w) ∨ (∃ w, e = .writeErr w) ∨ (∃ w, e = .writeErrInfo w) ∨ (∃ v, e = .writeXoutLen v)) →
      step s = .next { s with pending := rest, returned := .nothing }

/-- The registers the host reads plainly return what they hold, `MSG_LEN` and `DST_LEN` take what the host writes, and
a constant reads as the table holds it: R21, R27 to R29, R31 to R33, R62. -/
def Obligations.PlainRegisterAccess : Prop :=
  ∀ (s : State) (rest : List HostEvent),
    (s.pending = .readCmd :: rest → step s = .next { s with pending := rest, returned := .word s.cmd }) ∧
    (s.pending = .readErr :: rest → step s = .next { s with pending := rest, returned := .byte s.err }) ∧
    (s.pending = .readErrInfo :: rest → step s = .next { s with pending := rest, returned := .word s.errInfo }) ∧
    (s.pending = .readMsgLen :: rest → step s = .next { s with pending := rest, returned := .word s.msgLen }) ∧
    (s.pending = .readDstLen :: rest → step s = .next { s with pending := rest, returned := .half s.dstLen }) ∧
    (s.pending = .readXoutLen :: rest → step s = .next { s with pending := rest, returned := .half s.xoutLen }) ∧
    (∀ v, s.pending = .writeMsgLen v :: rest →
      step s = .next { s with pending := rest, returned := .nothing, msgLen := v }) ∧
    (∀ v, s.pending = .writeDstLen v :: rest →
      step s = .next { s with pending := rest, returned := .nothing, dstLen := v }) ∧
    (∀ name, s.pending = .readK name :: rest →
      step s = .next { s with pending := rest, returned := hostConst s.k name }) ∧
    hostConst s.k .p = .const s.k.p ∧ hostConst s.k .rOrder = .const s.k.rOrder ∧
    hostConst s.k .xGen = .const s.k.xGen ∧ hostConst s.k .b1 = .const s.k.b1 ∧
    hostConst s.k .z1 = .const s.k.z1 ∧ hostConst s.k .c1_1 = .const s.k.c1_1 ∧
    hostConst s.k .c2_1 = .const s.k.c2_1 ∧ hostConst s.k .c3_1 = .const s.k.c3_1 ∧
    hostConst s.k .c4_1 = .const s.k.c4_1 ∧ hostConst s.k .b2 = .const2 s.k.b2 ∧
    hostConst s.k .z2 = .const2 s.k.z2 ∧ hostConst s.k .c1_2 = .const2 s.k.c1_2 ∧
    hostConst s.k .c2_2 = .const2 s.k.c2_2 ∧ hostConst s.k .c3_2 = .const2 s.k.c3_2 ∧
    hostConst s.k .c4_2 = .const2 s.k.c4_2 ∧ hostConst s.k .endoU = .const2 s.k.endoU ∧
    hostConst s.k .endoV = .const2 s.k.endoV ∧ hostConst s.k .ellMax = .const s.k.ellMax ∧
    hostConst s.k .dstMax = .const s.k.dstMax ∧ hostConst s.k .lBytes = .const s.k.lBytes

/-- `CTRL`: bit 0 of a write resets as the input `rst` does, the other bits are ignored, and a read returns 0: R30. -/
def Obligations.CtrlBitZeroResets : Prop :=
  ∀ (s : State) (rest : List HostEvent),
    (∀ w, s.pending = .writeCtrl w :: rest → w.getLsbD 0 = true →
      step s = step { s with pending := .assertRst :: rest }) ∧
    (∀ w, s.pending = .writeCtrl w :: rest → w.getLsbD 0 = false →
      step s = .next { s with pending := rest, returned := .nothing }) ∧
    (s.pending = .readCtrl :: rest → step s = .next { s with pending := rest, returned := .word 0 })

/-- Bits 0 and 1 of `STATUS` are `FAULT` and `SGN`, the others read as 0, and the host reads it so: R25, R26. -/
def Obligations.StatusReadShowsFaultAndSign : Prop :=
  ∀ (s : State) (rest : List HostEvent), s.pending = .readStatus :: rest →
    ∃ w : Word, step s = .next { s with pending := rest, returned := .word w } ∧
      w.getLsbD 0 = s.status.fault ∧ w.getLsbD 1 = s.status.sgn ∧ ∀ j, 2 ≤ j → w.getLsbD j = false

/-! ### Reset (spec/70_reset_and_hazards.md, spec/10_state.md) -/

/-- A reset event leaves the values of R36 and the constants as they were, and the state right after power-on holds the
values of R36, the constants of R21 among them: R36, R320. -/
def Obligations.ResetLeavesResetValues : Prop :=
  (∀ (s : State) (e : HostEvent) (rest : List HostEvent), s.pending = e :: rest → e.isReset = true →
    ∃ t, step s = .next t ∧ t.k = s.k ∧ t.msgLen = 0 ∧ t.dstLen = 0 ∧ t.xoutLen = 0 ∧
      (∀ k, k < 256 → ∃ r, t.f[k]? = some r ∧ r.valid = false) ∧
      (∀ k, k < 16 → ∃ r, t.pt[k]? = some r ∧ r.valid = false) ∧
      t.cmd = 0 ∧ t.status = ⟨false, false⟩ ∧ t.err = 0 ∧ t.errInfo = 0 ∧ t.pending = rest) ∧
  (State.reset.k = constTable ∧ State.reset.msgLen = 0 ∧ State.reset.dstLen = 0 ∧ State.reset.xoutLen = 0 ∧
    (∀ k, k < 256 → ∃ r, State.reset.f[k]? = some r ∧ r.valid = false) ∧
    (∀ k, k < 16 → ∃ r, State.reset.pt[k]? = some r ∧ r.valid = false) ∧
    State.reset.cmd = 0 ∧ State.reset.status = ⟨false, false⟩ ∧ State.reset.err = 0 ∧ State.reset.errInfo = 0)

/-- The only way to leave the fault state is a reset: R287, R320. -/
def Obligations.OnlyResetLeavesFaultState : Prop :=
  ∀ s t : State, step s = .next t → s.status.fault = true → t.status.fault = false →
    ∃ e rest, s.pending = e :: rest ∧ e.isReset = true

/-! ### The invariant (spec/10_state.md R21 to R23, R28, R29, R33) -/

/-- The invariant holds right after reset. -/
def Obligations.ResetMeetsInvariant : Prop := State.reset.Inv

/-- Every step keeps the invariant: the constant table is the spec's, every valid field register is canonical, every
valid point register holds a well-formed point on its curve, the buffers are in canonical form, and the fault registers
are consistent. -/
def Obligations.StepKeepsInvariant : Prop :=
  ∀ s t : State, s.Inv → step s = .next t → t.Inv

/-! ### Every command (spec/60_exceptions.md, spec/70_reset_and_hazards.md) -/

/-- A fault writes `STATUS.FAULT`, `ERR` and `ERRINFO` and nothing else; `ERR` takes one of the codes 1 to 8,
`ERRINFO` the word in `CMD`, and the fault output rises: R284. -/
def Obligations.FaultEntryWritesOnlyFaultRegisters : Prop :=
  ∀ (i : Instr) (s t : State), exec i s = .next t → s.status.fault = false → t.status.fault = true →
    1 ≤ t.err.toNat ∧ t.err.toNat ≤ 8 ∧ faultOutput t = true ∧
    t = { s with status := { s.status with fault := true }, err := t.err, errInfo := s.cmd }

/-- A command raises only the causes its row of the table of R296 does not leave blank. -/
def Obligations.CommandsRaiseOnlyTheirCauses : Prop :=
  ∀ (i : Instr) (s t : State), exec i s = .next t → s.status.fault = false → t.status.fault = true →
    ∃ c ∈ allowedCauses i, t.err = causeCode c

/-- A command never writes the message, the tag, their lengths, the constants or `CMD`, and of the other items only its
destinations: R332, and the table of R74. -/
def Obligations.CommandsWriteOnlyTheirDestinations : Prop :=
  ∀ (i : Instr) (s t : State), exec i s = .next t →
    t.msg = s.msg ∧ t.dst = s.dst ∧ t.msgLen = s.msgLen ∧ t.dstLen = s.dstLen ∧ t.k = s.k ∧ t.cmd = s.cmd ∧
    t.pending = s.pending ∧ t.returned = s.returned ∧
    (i.writesXout = false → t.xout = s.xout ∧ t.xoutLen = s.xoutLen ∧ t.draws = s.draws) ∧
    (i.writesSgn = false → t.status.sgn = s.status.sgn) ∧
    (∀ j, ¬ (i.fieldDest.1 ≤ j ∧ j < i.fieldDest.1 + i.fieldDest.2) → t.f[j]? = s.f[j]?) ∧
    (∀ j, i.pointDest ≠ some j → t.pt[j]? = s.pt[j]?) ∧
    (s.status.fault = true → t.status.fault = true) ∧
    (t.status.fault = s.status.fault → s.status.fault = false → t.err = s.err ∧ t.errInfo = s.errInfo)

/-- There is no hidden state: a command run in two states that agree on the constants and on what it reads ends alike in
both, with the same fault and cause or the same results: R35. -/
def Obligations.ResultDependsOnlyOnWhatIsRead : Prop :=
  ∀ (i : Instr) (s₁ s₂ t₁ t₂ : State), sameReads i s₁ s₂ →
    s₁.status.fault = false → s₂.status.fault = false → exec i s₁ = .next t₁ → exec i s₂ = .next t₂ →
      t₁.status.fault = t₂.status.fault ∧
      (t₁.status.fault = true → t₁.err = t₂.err) ∧
      (t₁.status.fault = false → sameWritten i t₁ t₂)

/-- A command of the point families that cannot obtain an operand raises `OPERAND`, before any other cause; an over-long
tag of an orchestrator comes next: R291, R295. -/
def Obligations.PointCommandsTrapOnOperands : Prop :=
  (∀ (s : State) (pd fs : Nat), 15 < pd ∨ s.readField fs = none →
    exec (.map1 pd fs) s = .next (raiseFault .operand s)) ∧
  (∀ (s : State) (pd fs : Nat),
    15 < pd ∨ 255 ≤ fs ∨ s.readField fs = none ∨ s.readField (fs + 1) = none →
      exec (.map2 pd fs) s = .next (raiseFault .operand s)) ∧
  (∀ (s : State) (pd ps : Nat),
    15 < pd ∨ 15 < ps ∨ (∃ r, s.pt[ps]? = some r ∧ (r.valid = false ∨ r.grp = .g1)) →
      exec (.psi pd ps) s = .next (raiseFault .operand s) ∧
      exec (.clrcof pd ps) s = .next (raiseFault .operand s)) ∧
  (∀ (s : State) (pd : Nat),
    15 < pd ∨ Config.msgMax.toNat < s.msgLen.toNat ∨ 255 < s.dstLen.toNat →
      ∀ i ∈ [Instr.hashg1 pd, .hashg2 pd, .encg2 pd],
        exec i s = .next (raiseFault
          (if 15 < pd ∨ Config.msgMax.toNat < s.msgLen.toNat then .operand else .cfgDstTooLong) s))

/-! ### EXPAND and H2F (spec/40_xmd.md, spec/41_hash_to_field.md) -/

/-- `EXPAND n` on operands within bounds writes exactly the `n` expanded bytes to `XOUT` and `n` to `XOUT_LEN`, and a
host read of `XOUT` at an offset below `n` then returns the expanded byte: R62, R125. -/
def Obligations.ExpandCompletes : Prop :=
  ∀ (s : State) (n : Nat), s.msgLen.toNat ≤ Config.msgMax.toNat → n ≤ 8160 → s.dstLen.toNat ≤ 255 →
    ∃ out t, expandXmd (messageOf s) (tagOf s) n = .ok out ∧ out.length = n ∧
      exec (.expand n) s = .next t ∧ t.xoutLen.toNat = n ∧
      (∀ j, j < n → out[j]? = some (hostXoutByte t j)) ∧
      (∀ j rest, j < n → ∃ b, out[j]? = some b ∧
        step { t with pending := .readXout j :: rest } = .next { t with pending := rest, returned := .byte b }) ∧
      t = { s with xout := t.xout, xoutLen := t.xoutLen, draws := t.draws }

/-- The faults of `EXPAND n`, in order: operand, length, tag: R125, R295. -/
def Obligations.ExpandFaultsInOrder : Prop :=
  ∀ (s : State) (n : Nat),
    Config.msgMax.toNat < s.msgLen.toNat ∨ 8160 < n ∨ 255 < s.dstLen.toNat →
      exec (.expand n) s = .next (raiseFault
        (if Config.msgMax.toNat < s.msgLen.toNat then .operand
         else if 8160 < n then .cfgLenTooLarge else .cfgDstTooLong) s)

/-- Byte `j` of an expansion is byte `j mod 32` of block `j / 32 + 1` of the chain of digests that starts from `b_0`:
R122, R123. -/
def Obligations.ExpansionIsChainedDigests : Prop :=
  ∀ (msg dst out : List Byte) (n : Nat), expandXmd msg dst n = .ok out →
    out.length = n ∧
    ∀ j, j < n →
      out[j]? =
        (xmdBlock
          (sha256 (List.replicate 64 0 ++ msg ++ [BitVec.ofNat 8 (n / 256), BitVec.ofNat 8 n] ++ [0] ++
            dst ++ [BitVec.ofNat 8 dst.length]))
          (dst ++ [BitVec.ofNat 8 dst.length]) (j / 32 + 1))[j % 32]?

/-- `H2F Fd, count` on operands within bounds writes to `F[fd + j]` the integer of window `j` modulo `P`, for every `j`
below `count`, and nothing else: R140, R141. -/
def Obligations.H2fCompletes : Prop :=
  ∀ (s : State) (fd count : Nat), s.k = constTable → fd + count ≤ 256 →
    s.msgLen.toNat ≤ Config.msgMax.toNat → count ≤ 170 → s.dstLen.toNat ≤ 255 →
      ∃ e t, expandXmd (messageOf s) (tagOf s) (48 * count) = .ok e ∧ exec (.h2f fd count) s = .next t ∧
        (∀ j, j < count → t.readField (fd + j) = some (os2ip ((e.drop (48 * j)).take 48) % fieldP)) ∧
        (∀ j, j < fd ∨ fd + count ≤ j → t.f[j]? = s.f[j]?) ∧ t = { s with f := t.f }

/-- The faults of `H2F Fd, count`, in order: operands, length, tag: R141, R295. -/
def Obligations.H2fFaultsInOrder : Prop :=
  ∀ (s : State) (fd count : Nat),
    256 < fd + count ∨ Config.msgMax.toNat < s.msgLen.toNat ∨ 170 < count ∨ 255 < s.dstLen.toNat →
      exec (.h2f fd count) s = .next (raiseFault
        (if 256 < fd + count ∨ Config.msgMax.toNat < s.msgLen.toNat then .operand
         else if 170 < count then .cfgLenTooLarge else .cfgDstTooLong) s)

/-- Every register `H2F` writes is canonical, and equal inputs give equal outputs: R142. -/
def Obligations.H2fOutputsCanonicalAndDetermined : Prop :=
  ∀ (s t : State) (fd count : Nat), s.k = constTable → s.status.fault = false →
    exec (.h2f fd count) s = .next t → t.status.fault = false →
      (∀ j, j < count → ∃ v, t.readField (fd + j) = some v ∧ v < fieldP) ∧
      ∀ (s' t' : State) (fd' : Nat), s'.k = constTable → messageOf s' = messageOf s → tagOf s' = tagOf s →
        s'.status.fault = false → exec (.h2f fd' count) s' = .next t' → t'.status.fault = false →
          ∀ j, j < count → t'.readField (fd' + j) = t.readField (fd + j)

/-! ### SGN0 and SGN0E (spec/42_sgn0.md) -/

/-- `SGN0 Fs` writes the parity of a valid register to `STATUS.SGN` and nothing else; a register that is not valid raises
`OPERAND`: R150, R152. -/
def Obligations.Sgn0Completes : Prop :=
  (∀ (s : State) (fs x : Nat), s.readField fs = some x →
    exec (.sgn0 fs) s = .next { s with status := { s.status with sgn := decide (x % 2 = 1) } }) ∧
  (∀ (s : State) (fs : Nat), s.readField fs = none → exec (.sgn0 fs) s = .next (raiseFault .operand s))

/-- `SGN0E Fs` writes the parity of `c0`, or of `c1` when `c0` is 0, to `STATUS.SGN` and nothing else; `fs = 255` or a
register of the pair that is not valid raises `OPERAND`: R151, R153. -/
def Obligations.Sgn0eCompletes : Prop :=
  (∀ (s : State) (fs c0 c1 : Nat), fs ≤ 254 → s.readField fs = some c0 → s.readField (fs + 1) = some c1 →
    exec (.sgn0e fs) s =
      .next { s with status := { s.status with sgn := decide ((if c0 = 0 then c1 else c0) % 2 = 1) } }) ∧
  (∀ (s : State) (fs : Nat), 255 ≤ fs ∨ s.readField fs = none ∨ s.readField (fs + 1) = none →
    exec (.sgn0e fs) s = .next (raiseFault .operand s))

/-- Of a nonzero element and its negative exactly one has sign 1, in both fields; for zero both signs are 0: R154. -/
def Obligations.NegationFlipsSign : Prop :=
  (∀ y, y < fieldP → y ≠ 0 → sgn0Fq (fqNeg y) = !sgn0Fq y) ∧
  (∀ y : Fq2, canonicalFq2 y → y ≠ ⟨0, 0⟩ → sgn0Fq2 (fq2Neg y) = !sgn0Fq2 y) ∧
  sgn0Fq 0 = false ∧ sgn0Fq (fqNeg 0) = false ∧ sgn0Fq2 ⟨0, 0⟩ = false ∧ sgn0Fq2 (fq2Neg ⟨0, 0⟩) = false

/-! ### MAP1 and MAP2 (spec/43_svdw_map.md) -/

/-- With the spec's constants `MAP1` always completes: the selection is exhaustive, the root exists, and the point
written is on E1 with the sign of `u`: R160, R165, R168, R169, R170. -/
def Obligations.Map1Completes : Prop :=
  ∀ (s : State) (pd fs u : Nat), s.k = constTable → pd ≤ 15 → s.readField fs = some u → u < fieldP →
    ∃ x y, svdwMapG1 fqOps constTable u = .ok (x, y) ∧ x < fieldP ∧ y < fieldP ∧
      y ^ 2 % fieldP = (x ^ 3 + 3) % fieldP ∧ (y ≠ 0 → y % 2 = u % 2) ∧
      exec (.map1 pd fs) s = .next { s with
        pt := s.pt.setIfInBounds pd ⟨true, .g1, false, BitVec.ofNat 256 x, 0, BitVec.ofNat 256 y, 0⟩ }

/-- With the spec's constants `MAP2` always completes: the selection is exhaustive, the root exists, the on-curve check
passes, and the point written has the sign of `u`: R160, R165, R167, R168, R171. -/
def Obligations.Map2Completes : Prop :=
  ∀ (s : State) (pd fs : Nat) (u : Fq2), s.k = constTable → pd ≤ 15 → fs ≤ 254 →
    s.readField fs = some u.c0 → s.readField (fs + 1) = some u.c1 → canonicalFq2 u →
      ∃ x y : Fq2, svdwMapG2 fq2Ops constTable u = .ok (x, y) ∧ canonicalFq2 x ∧ canonicalFq2 y ∧
        fq2Sqr y = fq2Add (fq2Mul (fq2Sqr x) x) constTable.b2 ∧ (y ≠ ⟨0, 0⟩ → sgn0Fq2 y = sgn0Fq2 u) ∧
        exec (.map2 pd fs) s = .next { s with
          pt := s.pt.setIfInBounds pd (⟨true, .g2, false, BitVec.ofNat 256 x.c0, BitVec.ofNat 256 x.c1,
            BitVec.ofNat 256 y.c0, BitVec.ofNat 256 y.c1⟩) }

/-- Which root the square-root collaborator returns changes no result of the map: R166, R236, R246. -/
def Obligations.MapIgnoresRootChoice : Prop :=
  (∀ (choice choice' : Nat → Bool) (k : Consts) (u : Nat),
    svdwMapG1 (fqOpsBy choice) k u = svdwMapG1 (fqOpsBy choice') k u) ∧
  (∀ (choice choice' : Fq2 → Bool) (k : Consts) (u : Fq2),
    svdwMapG2 (fq2OpsBy choice) k u = svdwMapG2 (fq2OpsBy choice') k u)

/-- The map takes the first of `x1`, `x2`, `x3` whose `g` is a square, and raises `INT_NO_SQUARE` when none is; it raises
`INT_SQRT_FAILED` when the collaborator has no root of a value its test called a square. This holds over the dictionary
of either field, and over any other: R162, R163. -/
def Obligations.MapTakesFirstSquareCandidate : Prop :=
  ∀ (α : Type) [DecidableEq α] (F : FieldOps α) (c : MapConsts α) (g : Group) (u : α),
    let cs := mapCandidates F c u
    let square := fun x => F.isSquare (F.add (F.mul (F.sqr x) x) c.b)
    (∀ x y, svdwMap F c g u = .ok (x, y) →
      (square cs.x1 = true ∧ x = cs.x1) ∨
      (square cs.x1 = false ∧ square cs.x2 = true ∧ x = cs.x2) ∨
      (square cs.x1 = false ∧ square cs.x2 = false ∧ square cs.x3 = true ∧ x = cs.x3)) ∧
    (svdwMap F c g u = .error .intNoSquare ↔
      square cs.x1 = false ∧ square cs.x2 = false ∧ square cs.x3 = false) ∧
    (svdwMap F c g u = .error .intSqrtFailed → ∃ a, F.isSquare a = true ∧ F.sqrt a = none)

/-- At a pole the candidates are `C2`, `C2`, `Z`; for G1 the poles are `(P+1)/2` and `(P-1)/2`; at 0 the candidates are
`C2`, `C2`, `Z + C4`: R164. -/
def Obligations.MapCandidatesAtPolesAndZero : Prop :=
  (∀ u, u < fieldP →
    (fqMul (mapTv1 fqOps (mapConstsG1 constTable) u) (mapTv2 fqOps (mapConstsG1 constTable) u) = 0 ↔
      u = (fieldP + 1) / 2 ∨ u = (fieldP - 1) / 2)) ∧
  (∀ u, fqMul (mapTv1 fqOps (mapConstsG1 constTable) u) (mapTv2 fqOps (mapConstsG1 constTable) u) = 0 →
    mapCandidates fqOps (mapConstsG1 constTable) u = ⟨constTable.c2_1, constTable.c2_1, constTable.z1⟩) ∧
  (∀ u, fq2Mul (mapTv1 fq2Ops (mapConstsG2 constTable) u) (mapTv2 fq2Ops (mapConstsG2 constTable) u) = ⟨0, 0⟩ →
    mapCandidates fq2Ops (mapConstsG2 constTable) u = ⟨constTable.c2_2, constTable.c2_2, constTable.z2⟩) ∧
  mapCandidates fqOps (mapConstsG1 constTable) 0 =
    ⟨constTable.c2_1, constTable.c2_1, fqAdd constTable.z1 constTable.c4_1⟩ ∧
  mapCandidates fq2Ops (mapConstsG2 constTable) ⟨0, 0⟩ =
    ⟨constTable.c2_2, constTable.c2_2, fq2Add constTable.z2 constTable.c4_2⟩

/-! ### PSI and CLRCOF (spec/44_cofactor.md) -/

/-- With the spec's constants `PSI` on a valid G2 point always completes: the image is on E2, and is written to `PT[pd]`:
R190, R191, R192. -/
def Obligations.PsiCompletes : Prop :=
  ∀ (s : State) (pd ps : Nat) (r : PointReg), s.k = constTable → pd ≤ 15 → s.pt[ps]? = some r →
    r.valid = true → r.grp = .g2 → r.wellFormed constTable = true →
      ∃ q : Point Fq2,
        q = (if r.inf = true then .inf else
          .affine (fq2Mul (fq2Conj ⟨r.x0.toNat, r.x1.toNat⟩) constTable.endoU)
            (fq2Mul (fq2Conj ⟨r.y0.toNat, r.y1.toNat⟩) constTable.endoV)) ∧
        isPointG2 q ∧
        exec (.psi pd ps) s = .next { s with pt := s.pt.setIfInBounds pd (pointRegG2 q) }

/-- With the spec's constants `CLRCOF` on a valid G2 point always completes: the exact linear combination of R193 is on
E2, and is written to `PT[pd]`: R193, R194. -/
def Obligations.ClrcofCompletes : Prop :=
  ∀ (s : State) (pd ps : Nat) (r : PointReg), s.k = constTable → pd ≤ 15 → s.pt[ps]? = some r →
    r.valid = true → r.grp = .g2 → r.wellFormed constTable = true →
      ∃ q xq res : Point Fq2, q = r.pointG2 ∧ xq = ptMul fq2Ops 4965661367192848881 q ∧
        res = ptAdd fq2Ops (ptAdd fq2Ops (ptAdd fq2Ops xq
            (psiPoint constTable (ptMul fq2Ops 3 xq)))
            (psiPoint constTable (psiPoint constTable xq)))
            (psiPoint constTable (psiPoint constTable (psiPoint constTable q))) ∧
        isPointG2 res ∧
        exec (.clrcof pd ps) s = .next { s with pt := s.pt.setIfInBounds pd (pointRegG2 res) }

/-! ### HASHG1, HASHG2 and ENCG2 (spec/45_orchestrators.md) -/

/-- With the spec's constants `HASHG1` on operands within bounds always completes: the sum of the two mapped points is on
E1, and is written to `PT[pd]`: R211, R213. -/
def Obligations.Hashg1Completes : Prop :=
  ∀ (s : State) (pd : Nat), s.k = constTable → pd ≤ 15 → s.msgLen.toNat ≤ Config.msgMax.toNat →
    s.dstLen.toNat ≤ 255 →
      ∃ u0 u1 x0 y0 x1 y1, hashToField fieldP (messageOf s) (tagOf s) 2 = .ok [u0, u1] ∧
        svdwMapG1 fqOps constTable u0 = .ok (x0, y0) ∧ svdwMapG1 fqOps constTable u1 = .ok (x1, y1) ∧
        isPointG1 (ptAdd fqOps (.affine x0 y0) (.affine x1 y1)) ∧
        exec (.hashg1 pd) s = .next { s with
          pt := s.pt.setIfInBounds pd (pointRegG1 (ptAdd fqOps (.affine x0 y0) (.affine x1 y1))) }

/-- `HASHG2` on operands within bounds writes to `PT[pd]` the cleared sum `R` of the points mapped from `(u0, u1)` and
`(u2, u3)`, when the maps and the clearing succeed and `R_ORDER` annihilates `R`: R212, R213. -/
def Obligations.Hashg2Completes : Prop :=
  ∀ (s : State) (pd u0 u1 u2 u3 : Nat) (x0 y0 x1 y1 : Fq2) (R : Point Fq2),
    pd ≤ 15 → s.msgLen.toNat ≤ Config.msgMax.toNat → s.dstLen.toNat ≤ 255 →
    hashToField s.k.p (messageOf s) (tagOf s) 4 = .ok [u0, u1, u2, u3] →
    svdwMapG2 fq2Ops s.k ⟨u0, u1⟩ = .ok (x0, y0) → svdwMapG2 fq2Ops s.k ⟨u2, u3⟩ = .ok (x1, y1) →
    clearCofactor fq2Ops s.k (ptAdd fq2Ops (.affine x0 y0) (.affine x1 y1)) = .ok R →
    ptMul fq2Ops s.k.rOrder R = .inf →
      exec (.hashg2 pd) s = .next { s with pt := s.pt.setIfInBounds pd (pointRegG2 R) }

/-- `ENCG2` on operands within bounds writes to `PT[pd]` the cleared point `R` mapped from `(u0, u1)`, when the map and
the clearing succeed and `R_ORDER` annihilates `R`: R213, R214. -/
def Obligations.Encg2Completes : Prop :=
  ∀ (s : State) (pd u0 u1 : Nat) (x y : Fq2) (R : Point Fq2),
    pd ≤ 15 → s.msgLen.toNat ≤ Config.msgMax.toNat → s.dstLen.toNat ≤ 255 →
    hashToField s.k.p (messageOf s) (tagOf s) 2 = .ok [u0, u1] → svdwMapG2 fq2Ops s.k ⟨u0, u1⟩ = .ok (x, y) →
    clearCofactor fq2Ops s.k (.affine x y) = .ok R → ptMul fq2Ops s.k.rOrder R = .inf →
      exec (.encg2 pd) s = .next { s with pt := s.pt.setIfInBounds pd (pointRegG2 R) }

/-- With the spec's constants `HASHG2` and `ENCG2` on operands within bounds always reach their subgroup check with the
point `R` of E2 that R212 and R214 spell out, the clearing of R193 included, and end by that check alone: `R` is written,
or `INT_NOT_IN_SUBGROUP` is raised: R193, R212, R213, R214. -/
def Obligations.G2HashesReachSubgroupCheck : Prop :=
  let psi := psiPoint constTable
  let cleared := fun (q : Point Fq2) =>
    let xq := ptMul fq2Ops 4965661367192848881 q
    ptAdd fq2Ops (ptAdd fq2Ops (ptAdd fq2Ops xq (psi (ptMul fq2Ops 3 xq))) (psi (psi xq))) (psi (psi (psi q)))
  ∀ (s : State) (pd : Nat), s.k = constTable → pd ≤ 15 → s.msgLen.toNat ≤ Config.msgMax.toNat →
    s.dstLen.toNat ≤ 255 →
      (∃ (u0 u1 u2 u3 : Nat) (x0 y0 x1 y1 : Fq2) (R : Point Fq2),
        hashToField fieldP (messageOf s) (tagOf s) 4 = .ok [u0, u1, u2, u3] ∧
        svdwMapG2 fq2Ops constTable ⟨u0, u1⟩ = .ok (x0, y0) ∧ svdwMapG2 fq2Ops constTable ⟨u2, u3⟩ = .ok (x1, y1) ∧
        R = cleared (ptAdd fq2Ops (.affine x0 y0) (.affine x1 y1)) ∧ isPointG2 R ∧
        exec (.hashg2 pd) s = .next (if ptMul fq2Ops orderR R = .inf
          then { s with pt := s.pt.setIfInBounds pd (pointRegG2 R) } else raiseFault .intNotInSubgroup s)) ∧
      (∃ (u0 u1 : Nat) (x y : Fq2) (R : Point Fq2),
        hashToField fieldP (messageOf s) (tagOf s) 2 = .ok [u0, u1] ∧
        svdwMapG2 fq2Ops constTable ⟨u0, u1⟩ = .ok (x, y) ∧ R = cleared (.affine x y) ∧ isPointG2 R ∧
        exec (.encg2 pd) s = .next (if ptMul fq2Ops orderR R = .inf
          then { s with pt := s.pt.setIfInBounds pd (pointRegG2 R) } else raiseFault .intNotInSubgroup s))

/-- What `HASHG2` and `ENCG2` write without a fault is a valid G2 point on the curve that `R_ORDER` annihilates, whatever
the constant table: R213, R217. -/
def Obligations.G2HashResultsInSubgroup : Prop :=
  ∀ (s t : State) (pd : Nat) (i : Instr), i = .hashg2 pd ∨ i = .encg2 pd → s.status.fault = false →
    exec i s = .next t → t.status.fault = false →
      ∃ r, t.pt[pd]? = some r ∧ r.valid = true ∧ r.grp = .g2 ∧ pointOnCurve fq2Ops s.k.b2 r.pointG2 = true ∧
        ptMul fq2Ops s.k.rOrder r.pointG2 = .inf

/-- `ENCG2` gives the point of the unit commands `H2F F0, 2`; `MAP2 P0, F0`; `CLRCOF P0, P0`: R210, R214. -/
def Obligations.EncodeEqualsUnitSequence : Prop :=
  ∀ (s s₁ s₂ s₃ t : State) (pd : Nat), s.k = constTable →
    exec (.h2f 0 2) s = .next s₁ → exec (.map2 0 0) s₁ = .next s₂ → exec (.clrcof 0 0) s₂ = .next s₃ →
    s₃.status.fault = false → exec (.encg2 pd) s = .next t → t.status.fault = false →
      t.pt[pd]? = s₃.pt[0]?

/-- `HASHG1` gives the sum of the points the unit commands `H2F F0, 2`; `MAP1 P0, F0`; `MAP1 P1, F1` give: R210, R211. -/
def Obligations.HashG1SumsUnitPoints : Prop :=
  ∀ (s s₁ s₂ s₃ t : State) (pd : Nat) (r₀ r₁ : PointReg), s.k = constTable →
    exec (.h2f 0 2) s = .next s₁ → exec (.map1 0 0) s₁ = .next s₂ → exec (.map1 1 1) s₂ = .next s₃ →
    s₃.status.fault = false → s₃.pt[0]? = some r₀ → s₃.pt[1]? = some r₁ →
    exec (.hashg1 pd) s = .next t → t.status.fault = false →
      t.pt[pd]? = some (pointRegG1 (ptAdd fqOps r₀.pointG1 r₁.pointG1))

/-! ### Collaborators (spec/49_collaborators.md) -/

/-- `fq_pow(a, e)` is `a^e mod P`, and 1 for `e = 0`: R235. -/
def Obligations.FqPowIsModularPower : Prop :=
  (∀ a e, fqPow a e = a ^ e % fieldP) ∧ ∀ a, fqPow a 0 = 1

/-- `fq_inv0` is the unique inverse, and 0 for 0: R233. -/
def Obligations.FqInverseOrZero : Prop :=
  fqInv0 0 = 0 ∧
  ∀ a, a < fieldP → a ≠ 0 →
    fqInv0 a < fieldP ∧ fqMul a (fqInv0 a) = 1 ∧ ∀ b, b < fieldP → fqMul a b = 1 → b = fqInv0 a

/-- `fq_is_square` says whether an element has a root; 0 is a square: R234. -/
def Obligations.FqSquareTestFindsRoots : Prop :=
  (∀ a, a < fieldP → (fqIsSquare a = true ↔ ∃ b, b < fieldP ∧ fqSqr b = a)) ∧ fqIsSquare 0 = true

/-- The base-field root meets its contract whichever root is chosen: a root of a square, none of a non-square: R236. -/
def Obligations.FqRootMeetsContract : Prop :=
  ∀ (choice : Nat → Bool) (a : Nat), a < fieldP →
    (fqIsSquare a = true → ∃ r, r < fieldP ∧ fqSqrtBy choice a = some r ∧ fqSqr r = a) ∧
    (fqIsSquare a = false → fqSqrtBy choice a = none) ∧
    fqSqrtBy choice 0 = some 0

/-- `fq2_inv0` is the unique inverse, and zero for zero: R243. -/
def Obligations.Fq2InverseOrZero : Prop :=
  fq2Inv0 ⟨0, 0⟩ = ⟨0, 0⟩ ∧
  ∀ a, canonicalFq2 a → a ≠ ⟨0, 0⟩ →
    canonicalFq2 (fq2Inv0 a) ∧ fq2Mul a (fq2Inv0 a) = ⟨1, 0⟩ ∧
    ∀ b, canonicalFq2 b → fq2Mul a b = ⟨1, 0⟩ → b = fq2Inv0 a

/-- `fq2_is_square` says whether an element has a root; zero and every element of the base field is a square: R244. -/
def Obligations.Fq2SquareTestFindsRoots : Prop :=
  (∀ a, canonicalFq2 a → (fq2IsSquare a = true ↔ ∃ b, canonicalFq2 b ∧ fq2Sqr b = a)) ∧
  fq2IsSquare ⟨0, 0⟩ = true ∧ ∀ a0, a0 < fieldP → fq2IsSquare ⟨a0, 0⟩ = true

/-- The extension-field root meets its contract whichever root is chosen: R246. -/
def Obligations.Fq2RootMeetsContract : Prop :=
  ∀ (choice : Fq2 → Bool) (a : Fq2), canonicalFq2 a →
    (fq2IsSquare a = true → ∃ r, canonicalFq2 r ∧ fq2SqrtBy choice a = some r ∧ fq2Sqr r = a) ∧
    (fq2IsSquare a = false → fq2SqrtBy choice a = none)

/-- The points of each curve form a commutative group under the affine sum, closed, with `INF` neutral and `pt_neg` the
inverse, and the scalar multiple is the sum of that many copies: R251, R252, R253, R255. -/
def Obligations.PointSumStaysOnCurve : Prop :=
  obeysGroupLaw fqOps isPointG1 ∧ obeysGroupLaw fq2Ops isPointG2

/-- The padded input is a whole number of 64-byte blocks that starts with the message, a byte 0x80 and zeros and ends with
the bit length, and the digest has 32 bytes: R260, R262. -/
def Obligations.Sha256PadsToWholeBlocks : Prop :=
  ∀ m : List Byte, (sha256 m).length = 32 ∧ (shaPad m).length % 64 = 0 ∧ m.length + 9 ≤ (shaPad m).length ∧
    (shaPad m).length < m.length + 73 ∧
    (shaPad m).take (m.length + 1) = m ++ [0x80] ∧
    (∀ j, m.length + 1 ≤ j → j + 8 < (shaPad m).length → (shaPad m)[j]? = some 0) ∧
    (m.length < 2 ^ 61 → os2ip ((shaPad m).drop ((shaPad m).length - 8)) = 8 * m.length)
end

