-- ==== Sys2Proof/Laws/State.lean ====
section
/-! SUPPORT. What each update of the state does to each field: one lemma per field per update, so that no later proof
unfolds a record update. -/

namespace Sys2Proof.Machine

/-! ### raiseFault -/

@[simp] theorem raiseFault_k (c : Cause) (s : State) : (raiseFault c s).k = s.k := rfl
@[simp] theorem raiseFault_msg (c : Cause) (s : State) : (raiseFault c s).msg = s.msg := rfl
@[simp] theorem raiseFault_dst (c : Cause) (s : State) : (raiseFault c s).dst = s.dst := rfl
@[simp] theorem raiseFault_xout (c : Cause) (s : State) : (raiseFault c s).xout = s.xout := rfl
@[simp] theorem raiseFault_msgLen (c : Cause) (s : State) : (raiseFault c s).msgLen = s.msgLen := rfl
@[simp] theorem raiseFault_dstLen (c : Cause) (s : State) : (raiseFault c s).dstLen = s.dstLen := rfl
@[simp] theorem raiseFault_xoutLen (c : Cause) (s : State) : (raiseFault c s).xoutLen = s.xoutLen := rfl
@[simp] theorem raiseFault_f (c : Cause) (s : State) : (raiseFault c s).f = s.f := rfl
@[simp] theorem raiseFault_pt (c : Cause) (s : State) : (raiseFault c s).pt = s.pt := rfl
@[simp] theorem raiseFault_cmd (c : Cause) (s : State) : (raiseFault c s).cmd = s.cmd := rfl
@[simp] theorem raiseFault_status (c : Cause) (s : State) : (raiseFault c s).status = { s.status with fault := true } := rfl
@[simp] theorem raiseFault_err (c : Cause) (s : State) : (raiseFault c s).err = causeCode c := rfl
@[simp] theorem raiseFault_errInfo (c : Cause) (s : State) : (raiseFault c s).errInfo = s.cmd := rfl
@[simp] theorem raiseFault_draws (c : Cause) (s : State) : (raiseFault c s).draws = s.draws := rfl
@[simp] theorem raiseFault_pending (c : Cause) (s : State) : (raiseFault c s).pending = s.pending := rfl
@[simp] theorem raiseFault_returned (c : Cause) (s : State) : (raiseFault c s).returned = s.returned := rfl

/-! ### setFieldReg -/

@[simp] theorem setFieldReg_k (s : State) (k : Nat) (r : FieldReg) : (s.setFieldReg k r).k = s.k := rfl
@[simp] theorem setFieldReg_msg (s : State) (k : Nat) (r : FieldReg) : (s.setFieldReg k r).msg = s.msg := rfl
@[simp] theorem setFieldReg_dst (s : State) (k : Nat) (r : FieldReg) : (s.setFieldReg k r).dst = s.dst := rfl
@[simp] theorem setFieldReg_xout (s : State) (k : Nat) (r : FieldReg) : (s.setFieldReg k r).xout = s.xout := rfl
@[simp] theorem setFieldReg_msgLen (s : State) (k : Nat) (r : FieldReg) : (s.setFieldReg k r).msgLen = s.msgLen := rfl
@[simp] theorem setFieldReg_dstLen (s : State) (k : Nat) (r : FieldReg) : (s.setFieldReg k r).dstLen = s.dstLen := rfl
@[simp] theorem setFieldReg_xoutLen (s : State) (k : Nat) (r : FieldReg) : (s.setFieldReg k r).xoutLen = s.xoutLen := rfl
@[simp] theorem setFieldReg_f (s : State) (k : Nat) (r : FieldReg) : (s.setFieldReg k r).f = s.f.setIfInBounds k r := rfl
@[simp] theorem setFieldReg_pt (s : State) (k : Nat) (r : FieldReg) : (s.setFieldReg k r).pt = s.pt := rfl
@[simp] theorem setFieldReg_cmd (s : State) (k : Nat) (r : FieldReg) : (s.setFieldReg k r).cmd = s.cmd := rfl
@[simp] theorem setFieldReg_status (s : State) (k : Nat) (r : FieldReg) : (s.setFieldReg k r).status = s.status := rfl
@[simp] theorem setFieldReg_err (s : State) (k : Nat) (r : FieldReg) : (s.setFieldReg k r).err = s.err := rfl
@[simp] theorem setFieldReg_errInfo (s : State) (k : Nat) (r : FieldReg) : (s.setFieldReg k r).errInfo = s.errInfo := rfl
@[simp] theorem setFieldReg_draws (s : State) (k : Nat) (r : FieldReg) : (s.setFieldReg k r).draws = s.draws := rfl
@[simp] theorem setFieldReg_pending (s : State) (k : Nat) (r : FieldReg) : (s.setFieldReg k r).pending = s.pending := rfl
@[simp] theorem setFieldReg_returned (s : State) (k : Nat) (r : FieldReg) : (s.setFieldReg k r).returned = s.returned := rfl

/-! ### setPointReg -/

@[simp] theorem setPointReg_k (s : State) (k : Nat) (r : PointReg) : (s.setPointReg k r).k = s.k := rfl
@[simp] theorem setPointReg_msg (s : State) (k : Nat) (r : PointReg) : (s.setPointReg k r).msg = s.msg := rfl
@[simp] theorem setPointReg_dst (s : State) (k : Nat) (r : PointReg) : (s.setPointReg k r).dst = s.dst := rfl
@[simp] theorem setPointReg_xout (s : State) (k : Nat) (r : PointReg) : (s.setPointReg k r).xout = s.xout := rfl
@[simp] theorem setPointReg_msgLen (s : State) (k : Nat) (r : PointReg) : (s.setPointReg k r).msgLen = s.msgLen := rfl
@[simp] theorem setPointReg_dstLen (s : State) (k : Nat) (r : PointReg) : (s.setPointReg k r).dstLen = s.dstLen := rfl
@[simp] theorem setPointReg_xoutLen (s : State) (k : Nat) (r : PointReg) : (s.setPointReg k r).xoutLen = s.xoutLen := rfl
@[simp] theorem setPointReg_f (s : State) (k : Nat) (r : PointReg) : (s.setPointReg k r).f = s.f := rfl
@[simp] theorem setPointReg_pt (s : State) (k : Nat) (r : PointReg) : (s.setPointReg k r).pt = s.pt.setIfInBounds k r := rfl
@[simp] theorem setPointReg_cmd (s : State) (k : Nat) (r : PointReg) : (s.setPointReg k r).cmd = s.cmd := rfl
@[simp] theorem setPointReg_status (s : State) (k : Nat) (r : PointReg) : (s.setPointReg k r).status = s.status := rfl
@[simp] theorem setPointReg_err (s : State) (k : Nat) (r : PointReg) : (s.setPointReg k r).err = s.err := rfl
@[simp] theorem setPointReg_errInfo (s : State) (k : Nat) (r : PointReg) : (s.setPointReg k r).errInfo = s.errInfo := rfl
@[simp] theorem setPointReg_draws (s : State) (k : Nat) (r : PointReg) : (s.setPointReg k r).draws = s.draws := rfl
@[simp] theorem setPointReg_pending (s : State) (k : Nat) (r : PointReg) : (s.setPointReg k r).pending = s.pending := rfl
@[simp] theorem setPointReg_returned (s : State) (k : Nat) (r : PointReg) : (s.setPointReg k r).returned = s.returned := rfl

/-! ### writeField -/

@[simp] theorem writeField_k (s : State) (k v : Nat) : (s.writeField k v).k = s.k := rfl
@[simp] theorem writeField_msg (s : State) (k v : Nat) : (s.writeField k v).msg = s.msg := rfl
@[simp] theorem writeField_dst (s : State) (k v : Nat) : (s.writeField k v).dst = s.dst := rfl
@[simp] theorem writeField_xout (s : State) (k v : Nat) : (s.writeField k v).xout = s.xout := rfl
@[simp] theorem writeField_msgLen (s : State) (k v : Nat) : (s.writeField k v).msgLen = s.msgLen := rfl
@[simp] theorem writeField_dstLen (s : State) (k v : Nat) : (s.writeField k v).dstLen = s.dstLen := rfl
@[simp] theorem writeField_xoutLen (s : State) (k v : Nat) : (s.writeField k v).xoutLen = s.xoutLen := rfl
@[simp] theorem writeField_f (s : State) (k v : Nat) : (s.writeField k v).f = s.f.setIfInBounds k ⟨true, BitVec.ofNat 256 v⟩ := rfl
@[simp] theorem writeField_pt (s : State) (k v : Nat) : (s.writeField k v).pt = s.pt := rfl
@[simp] theorem writeField_cmd (s : State) (k v : Nat) : (s.writeField k v).cmd = s.cmd := rfl
@[simp] theorem writeField_status (s : State) (k v : Nat) : (s.writeField k v).status = s.status := rfl
@[simp] theorem writeField_err (s : State) (k v : Nat) : (s.writeField k v).err = s.err := rfl
@[simp] theorem writeField_errInfo (s : State) (k v : Nat) : (s.writeField k v).errInfo = s.errInfo := rfl
@[simp] theorem writeField_draws (s : State) (k v : Nat) : (s.writeField k v).draws = s.draws := rfl
@[simp] theorem writeField_pending (s : State) (k v : Nat) : (s.writeField k v).pending = s.pending := rfl
@[simp] theorem writeField_returned (s : State) (k v : Nat) : (s.writeField k v).returned = s.returned := rfl

/-! ### writeSgn -/

@[simp] theorem writeSgn_k (s : State) (b : Bool) : (s.writeSgn b).k = s.k := rfl
@[simp] theorem writeSgn_msg (s : State) (b : Bool) : (s.writeSgn b).msg = s.msg := rfl
@[simp] theorem writeSgn_dst (s : State) (b : Bool) : (s.writeSgn b).dst = s.dst := rfl
@[simp] theorem writeSgn_xout (s : State) (b : Bool) : (s.writeSgn b).xout = s.xout := rfl
@[simp] theorem writeSgn_msgLen (s : State) (b : Bool) : (s.writeSgn b).msgLen = s.msgLen := rfl
@[simp] theorem writeSgn_dstLen (s : State) (b : Bool) : (s.writeSgn b).dstLen = s.dstLen := rfl
@[simp] theorem writeSgn_xoutLen (s : State) (b : Bool) : (s.writeSgn b).xoutLen = s.xoutLen := rfl
@[simp] theorem writeSgn_f (s : State) (b : Bool) : (s.writeSgn b).f = s.f := rfl
@[simp] theorem writeSgn_pt (s : State) (b : Bool) : (s.writeSgn b).pt = s.pt := rfl
@[simp] theorem writeSgn_cmd (s : State) (b : Bool) : (s.writeSgn b).cmd = s.cmd := rfl
@[simp] theorem writeSgn_status (s : State) (b : Bool) : (s.writeSgn b).status = { s.status with sgn := b } := rfl
@[simp] theorem writeSgn_err (s : State) (b : Bool) : (s.writeSgn b).err = s.err := rfl
@[simp] theorem writeSgn_errInfo (s : State) (b : Bool) : (s.writeSgn b).errInfo = s.errInfo := rfl
@[simp] theorem writeSgn_draws (s : State) (b : Bool) : (s.writeSgn b).draws = s.draws := rfl
@[simp] theorem writeSgn_pending (s : State) (b : Bool) : (s.writeSgn b).pending = s.pending := rfl
@[simp] theorem writeSgn_returned (s : State) (b : Bool) : (s.writeSgn b).returned = s.returned := rfl

/-! ### writeXout -/

@[simp] theorem writeXout_k (s : State) (out : List Byte) (n : Nat) : (s.writeXout out n).k = s.k := rfl
@[simp] theorem writeXout_msg (s : State) (out : List Byte) (n : Nat) : (s.writeXout out n).msg = s.msg := rfl
@[simp] theorem writeXout_dst (s : State) (out : List Byte) (n : Nat) : (s.writeXout out n).dst = s.dst := rfl
@[simp] theorem writeXout_xout (s : State) (out : List Byte) (n : Nat) : (s.writeXout out n).xout = Memory.ofBytes out s.draws := rfl
@[simp] theorem writeXout_msgLen (s : State) (out : List Byte) (n : Nat) : (s.writeXout out n).msgLen = s.msgLen := rfl
@[simp] theorem writeXout_dstLen (s : State) (out : List Byte) (n : Nat) : (s.writeXout out n).dstLen = s.dstLen := rfl
@[simp] theorem writeXout_xoutLen (s : State) (out : List Byte) (n : Nat) : (s.writeXout out n).xoutLen = BitVec.ofNat 16 n := rfl
@[simp] theorem writeXout_f (s : State) (out : List Byte) (n : Nat) : (s.writeXout out n).f = s.f := rfl
@[simp] theorem writeXout_pt (s : State) (out : List Byte) (n : Nat) : (s.writeXout out n).pt = s.pt := rfl
@[simp] theorem writeXout_cmd (s : State) (out : List Byte) (n : Nat) : (s.writeXout out n).cmd = s.cmd := rfl
@[simp] theorem writeXout_status (s : State) (out : List Byte) (n : Nat) : (s.writeXout out n).status = s.status := rfl
@[simp] theorem writeXout_err (s : State) (out : List Byte) (n : Nat) : (s.writeXout out n).err = s.err := rfl
@[simp] theorem writeXout_errInfo (s : State) (out : List Byte) (n : Nat) : (s.writeXout out n).errInfo = s.errInfo := rfl
@[simp] theorem writeXout_draws (s : State) (out : List Byte) (n : Nat) : (s.writeXout out n).draws = s.draws + 1 := rfl
@[simp] theorem writeXout_pending (s : State) (out : List Byte) (n : Nat) : (s.writeXout out n).pending = s.pending := rfl
@[simp] theorem writeXout_returned (s : State) (out : List Byte) (n : Nat) : (s.writeXout out n).returned = s.returned := rfl

/-! ### takeEvent -/

@[simp] theorem takeEvent_k (s : State) (rest : List HostEvent) : (s.takeEvent rest).k = s.k := rfl
@[simp] theorem takeEvent_msg (s : State) (rest : List HostEvent) : (s.takeEvent rest).msg = s.msg := rfl
@[simp] theorem takeEvent_dst (s : State) (rest : List HostEvent) : (s.takeEvent rest).dst = s.dst := rfl
@[simp] theorem takeEvent_xout (s : State) (rest : List HostEvent) : (s.takeEvent rest).xout = s.xout := rfl
@[simp] theorem takeEvent_msgLen (s : State) (rest : List HostEvent) : (s.takeEvent rest).msgLen = s.msgLen := rfl
@[simp] theorem takeEvent_dstLen (s : State) (rest : List HostEvent) : (s.takeEvent rest).dstLen = s.dstLen := rfl
@[simp] theorem takeEvent_xoutLen (s : State) (rest : List HostEvent) : (s.takeEvent rest).xoutLen = s.xoutLen := rfl
@[simp] theorem takeEvent_f (s : State) (rest : List HostEvent) : (s.takeEvent rest).f = s.f := rfl
@[simp] theorem takeEvent_pt (s : State) (rest : List HostEvent) : (s.takeEvent rest).pt = s.pt := rfl
@[simp] theorem takeEvent_cmd (s : State) (rest : List HostEvent) : (s.takeEvent rest).cmd = s.cmd := rfl
@[simp] theorem takeEvent_status (s : State) (rest : List HostEvent) : (s.takeEvent rest).status = s.status := rfl
@[simp] theorem takeEvent_err (s : State) (rest : List HostEvent) : (s.takeEvent rest).err = s.err := rfl
@[simp] theorem takeEvent_errInfo (s : State) (rest : List HostEvent) : (s.takeEvent rest).errInfo = s.errInfo := rfl
@[simp] theorem takeEvent_draws (s : State) (rest : List HostEvent) : (s.takeEvent rest).draws = s.draws := rfl
@[simp] theorem takeEvent_pending (s : State) (rest : List HostEvent) : (s.takeEvent rest).pending = rest := rfl
@[simp] theorem takeEvent_returned (s : State) (rest : List HostEvent) : (s.takeEvent rest).returned = .nothing := rfl

/-! ### withCommand -/

@[simp] theorem withCommand_k (s : State) (w : Word) : (s.withCommand w).k = s.k := rfl
@[simp] theorem withCommand_msg (s : State) (w : Word) : (s.withCommand w).msg = s.msg := rfl
@[simp] theorem withCommand_dst (s : State) (w : Word) : (s.withCommand w).dst = s.dst := rfl
@[simp] theorem withCommand_xout (s : State) (w : Word) : (s.withCommand w).xout = s.xout := rfl
@[simp] theorem withCommand_msgLen (s : State) (w : Word) : (s.withCommand w).msgLen = s.msgLen := rfl
@[simp] theorem withCommand_dstLen (s : State) (w : Word) : (s.withCommand w).dstLen = s.dstLen := rfl
@[simp] theorem withCommand_xoutLen (s : State) (w : Word) : (s.withCommand w).xoutLen = s.xoutLen := rfl
@[simp] theorem withCommand_f (s : State) (w : Word) : (s.withCommand w).f = s.f := rfl
@[simp] theorem withCommand_pt (s : State) (w : Word) : (s.withCommand w).pt = s.pt := rfl
@[simp] theorem withCommand_cmd (s : State) (w : Word) : (s.withCommand w).cmd = s.cmd := rfl
@[simp] theorem withCommand_status (s : State) (w : Word) : (s.withCommand w).status = s.status := rfl
@[simp] theorem withCommand_err (s : State) (w : Word) : (s.withCommand w).err = s.err := rfl
@[simp] theorem withCommand_errInfo (s : State) (w : Word) : (s.withCommand w).errInfo = s.errInfo := rfl
@[simp] theorem withCommand_draws (s : State) (w : Word) : (s.withCommand w).draws = s.draws := rfl
@[simp] theorem withCommand_pending (s : State) (w : Word) : (s.withCommand w).pending = .writeCmd w :: s.pending := rfl
@[simp] theorem withCommand_returned (s : State) (w : Word) : (s.withCommand w).returned = s.returned := rfl

/-! ### softReset -/

@[simp] theorem softReset_k (s : State) : (softReset s).k = s.k := rfl
@[simp] theorem softReset_msg (s : State) : (softReset s).msg = emptyMemory s.draws := rfl
@[simp] theorem softReset_dst (s : State) : (softReset s).dst = emptyMemory s.draws := rfl
@[simp] theorem softReset_xout (s : State) : (softReset s).xout = emptyMemory s.draws := rfl
@[simp] theorem softReset_msgLen (s : State) : (softReset s).msgLen = 0 := rfl
@[simp] theorem softReset_dstLen (s : State) : (softReset s).dstLen = 0 := rfl
@[simp] theorem softReset_xoutLen (s : State) : (softReset s).xoutLen = 0 := rfl
@[simp] theorem softReset_f (s : State) : (softReset s).f = Vector.ofFn fun k => emptyFieldReg s.draws k.val := rfl
@[simp] theorem softReset_pt (s : State) : (softReset s).pt = Vector.ofFn fun k => emptyPointReg s.draws k.val := rfl
@[simp] theorem softReset_cmd (s : State) : (softReset s).cmd = 0 := rfl
@[simp] theorem softReset_status (s : State) : (softReset s).status = ⟨false, false⟩ := rfl
@[simp] theorem softReset_err (s : State) : (softReset s).err = 0 := rfl
@[simp] theorem softReset_errInfo (s : State) : (softReset s).errInfo = 0 := rfl
@[simp] theorem softReset_draws (s : State) : (softReset s).draws = s.draws + 1 := rfl
@[simp] theorem softReset_pending (s : State) : (softReset s).pending = s.pending := rfl
@[simp] theorem softReset_returned (s : State) : (softReset s).returned = s.returned := rfl

/-! ### writeFields: only the field file changes -/

@[simp] theorem writeFields_k (s : State) (fd : Nat) (us : List Nat) : (s.writeFields fd us).k = s.k := by
  induction us generalizing s fd with
  | nil => rfl
  | cons u us ih => exact (ih _ _).trans rfl

@[simp] theorem writeFields_msg (s : State) (fd : Nat) (us : List Nat) : (s.writeFields fd us).msg = s.msg := by
  induction us generalizing s fd with
  | nil => rfl
  | cons u us ih => exact (ih _ _).trans rfl

@[simp] theorem writeFields_dst (s : State) (fd : Nat) (us : List Nat) : (s.writeFields fd us).dst = s.dst := by
  induction us generalizing s fd with
  | nil => rfl
  | cons u us ih => exact (ih _ _).trans rfl

@[simp] theorem writeFields_xout (s : State) (fd : Nat) (us : List Nat) : (s.writeFields fd us).xout = s.xout := by
  induction us generalizing s fd with
  | nil => rfl
  | cons u us ih => exact (ih _ _).trans rfl

@[simp] theorem writeFields_msgLen (s : State) (fd : Nat) (us : List Nat) : (s.writeFields fd us).msgLen = s.msgLen := by
  induction us generalizing s fd with
  | nil => rfl
  | cons u us ih => exact (ih _ _).trans rfl

@[simp] theorem writeFields_dstLen (s : State) (fd : Nat) (us : List Nat) : (s.writeFields fd us).dstLen = s.dstLen := by
  induction us generalizing s fd with
  | nil => rfl
  | cons u us ih => exact (ih _ _).trans rfl

@[simp] theorem writeFields_xoutLen (s : State) (fd : Nat) (us : List Nat) : (s.writeFields fd us).xoutLen = s.xoutLen := by
  induction us generalizing s fd with
  | nil => rfl
  | cons u us ih => exact (ih _ _).trans rfl

@[simp] theorem writeFields_pt (s : State) (fd : Nat) (us : List Nat) : (s.writeFields fd us).pt = s.pt := by
  induction us generalizing s fd with
  | nil => rfl
  | cons u us ih => exact (ih _ _).trans rfl

@[simp] theorem writeFields_cmd (s : State) (fd : Nat) (us : List Nat) : (s.writeFields fd us).cmd = s.cmd := by
  induction us generalizing s fd with
  | nil => rfl
  | cons u us ih => exact (ih _ _).trans rfl

@[simp] theorem writeFields_status (s : State) (fd : Nat) (us : List Nat) : (s.writeFields fd us).status = s.status := by
  induction us generalizing s fd with
  | nil => rfl
  | cons u us ih => exact (ih _ _).trans rfl

@[simp] theorem writeFields_err (s : State) (fd : Nat) (us : List Nat) : (s.writeFields fd us).err = s.err := by
  induction us generalizing s fd with
  | nil => rfl
  | cons u us ih => exact (ih _ _).trans rfl

@[simp] theorem writeFields_errInfo (s : State) (fd : Nat) (us : List Nat) : (s.writeFields fd us).errInfo = s.errInfo := by
  induction us generalizing s fd with
  | nil => rfl
  | cons u us ih => exact (ih _ _).trans rfl

@[simp] theorem writeFields_draws (s : State) (fd : Nat) (us : List Nat) : (s.writeFields fd us).draws = s.draws := by
  induction us generalizing s fd with
  | nil => rfl
  | cons u us ih => exact (ih _ _).trans rfl

@[simp] theorem writeFields_pending (s : State) (fd : Nat) (us : List Nat) : (s.writeFields fd us).pending = s.pending := by
  induction us generalizing s fd with
  | nil => rfl
  | cons u us ih => exact (ih _ _).trans rfl

@[simp] theorem writeFields_returned (s : State) (fd : Nat) (us : List Nat) : (s.writeFields fd us).returned = s.returned := by
  induction us generalizing s fd with
  | nil => rfl
  | cons u us ih => exact (ih _ _).trans rfl

end Sys2Proof.Machine
end

