-- ==== Sys2Proof/Laws/Ops.lean ====
section
/-! SUPPORT. For each shared operation, once, everything it can answer: the operand fetches and checks, the map, the
clearing and the hash sequences, and the end of a command. -/

namespace Sys2Proof.Machine

/-! ### Sequencing -/

theorem except_bind_ok {ε α β : Type} {x : Except ε α} {f : α → Except ε β} {b : β} :
    (x >>= f) = .ok b ↔ ∃ a, x = .ok a ∧ f a = .ok b := by cases x <;> simp [bind, Except.bind]

theorem except_bind_error {ε α β : Type} {x : Except ε α} {f : α → Except ε β} {e : ε} :
    (x >>= f) = .error e ↔ x = .error e ∨ ∃ a, x = .ok a ∧ f a = .error e := by
  cases x <;> simp [bind, Except.bind]

theorem except_ok_inj {ε α : Type} {a b : α} : (Except.ok a : Except ε α) = .ok b ↔ b = a := by
  rw [Except.ok.injEq]
  exact eq_comm

theorem except_error_inj {ε α : Type} {a b : ε} : (Except.error a : Except ε α) = .error b ↔ b = a := by
  rw [Except.error.injEq]
  exact eq_comm

/-- A command that started in `s` ends with its results written, or in fault entry in `s`. -/
theorem complete_eq_next {s t : State} {r : Except Cause State} :
    complete s r = .next t ↔ r = .ok t ∨ ∃ c, r = .error c ∧ t = raiseFault c s := by
  cases r <;> simp [complete, eq_comm]

/-! ### Operands -/

theorem readField_eq_some {s : State} {k v : Nat} :
    s.readField k = some v ↔ ∃ r, s.f[k]? = some r ∧ r.valid = true ∧ r.val.toNat = v := by
  unfold State.readField
  cases h : s.f[k]? with
  | none => simp
  | some r => cases hv : r.valid <;> simp [hv]

theorem fieldOperand_ok {s : State} {fs v : Nat} : fieldOperand s fs = .ok v ↔ s.readField fs = some v := by
  unfold fieldOperand
  cases s.readField fs <;> simp

theorem fieldOperand_error {s : State} {fs : Nat} {c : Cause} :
    fieldOperand s fs = .error c ↔ s.readField fs = none ∧ c = .operand := by
  unfold fieldOperand
  cases s.readField fs <;> simp [except_error_inj, -Except.error.injEq]

theorem pairOperand_ok {s : State} {fs : Nat} {u : Fq2} :
    pairOperand s fs = .ok u ↔
      fs ≤ 254 ∧ s.readField fs = some u.c0 ∧ s.readField (fs + 1) = some u.c1 := by
  unfold pairOperand
  obtain ⟨u0, u1⟩ := u
  by_cases h : fs ≥ 255
  · have h' : ¬ fs ≤ 254 := by omega
    simp only [if_pos h, reduceCtorEq, h', false_and]
  · have h' : fs ≤ 254 := by omega
    simp only [if_neg h, h', true_and]
    cases s.readField fs <;> cases s.readField (fs + 1) <;> simp

theorem pairOperand_error {s : State} {fs : Nat} {c : Cause} :
    pairOperand s fs = .error c ↔
      c = .operand ∧ (fs ≥ 255 ∨ s.readField fs = none ∨ s.readField (fs + 1) = none) := by
  unfold pairOperand
  by_cases h : fs ≥ 255
  · rw [if_pos h, except_error_inj]
    simp [h]
  · rw [if_neg h]
    simp only [h, false_or]
    cases s.readField fs <;> cases s.readField (fs + 1) <;> simp [except_error_inj, -Except.error.injEq]

theorem checkPointIndex_ok {pd : Nat} {u : Unit} : checkPointIndex pd = .ok u ↔ pd ≤ 15 := by
  unfold checkPointIndex
  split <;> simp <;> omega

theorem checkPointIndex_error {pd : Nat} {c : Cause} : checkPointIndex pd = .error c ↔ pd > 15 ∧ c = .operand := by
  unfold checkPointIndex
  split <;> simp [except_error_inj, -Except.error.injEq] <;> omega

theorem pointOperandG2_ok {s : State} {ps : Nat} {q : Point Fq2} :
    pointOperandG2 s ps = .ok q ↔ ∃ r, s.pt[ps]? = some r ∧ r.valid = true ∧ r.grp = .g2 ∧ r.pointG2 = q := by
  unfold pointOperandG2
  cases h : s.pt[ps]? with
  | none => simp
  | some r => cases hv : r.valid <;> cases hg : r.grp <;> simp [hv, hg]

theorem pointOperandG2_error {s : State} {ps : Nat} {c : Cause} :
    pointOperandG2 s ps = .error c ↔
      c = .operand ∧ ∀ r, s.pt[ps]? = some r → r.valid = false ∨ r.grp = .g1 := by
  unfold pointOperandG2
  cases h : s.pt[ps]? with
  | none => simp [except_error_inj, -Except.error.injEq]
  | some r => cases hv : r.valid <;> cases hg : r.grp <;> simp [hv, hg, except_error_inj, -Except.error.injEq]

theorem checkMessageLength_ok {s : State} {u : Unit} :
    checkMessageLength s = .ok u ↔ s.msgLen.toNat ≤ Config.msgMax.toNat := by
  unfold checkMessageLength
  split <;> simp <;> omega

theorem checkMessageLength_error {s : State} {c : Cause} :
    checkMessageLength s = .error c ↔ s.msgLen.toNat > Config.msgMax.toNat ∧ c = .operand := by
  unfold checkMessageLength
  split <;> simp [except_error_inj, -Except.error.injEq] <;> omega

theorem checkExpansionLength_ok {n : Nat} {u : Unit} : checkExpansionLength n = .ok u ↔ n ≤ 8160 := by
  have hc : ceilDiv n digestBytes = (n + 31) / 32 := rfl
  have hm : maxBlocks = 255 := rfl
  unfold checkExpansionLength
  split <;> simp <;> omega

theorem checkExpansionLength_error {n : Nat} {c : Cause} :
    checkExpansionLength n = .error c ↔ n > 8160 ∧ c = .cfgLenTooLarge := by
  have hc : ceilDiv n digestBytes = (n + 31) / 32 := rfl
  have hm : maxBlocks = 255 := rfl
  unfold checkExpansionLength
  split <;> simp [except_error_inj, -Except.error.injEq] <;> omega

theorem checkTagLength_ok {s : State} {u : Unit} : checkTagLength s = .ok u ↔ s.dstLen.toNat ≤ 255 := by
  unfold checkTagLength maxTagBytes
  split <;> simp <;> omega

theorem checkTagLength_error {s : State} {c : Cause} :
    checkTagLength s = .error c ↔ s.dstLen.toNat > 255 ∧ c = .cfgDstTooLong := by
  unfold checkTagLength maxTagBytes
  split <;> simp [except_error_inj, -Except.error.injEq] <;> omega

theorem checkFieldRange_ok {fd count : Nat} {u : Unit} : checkFieldRange fd count = .ok u ↔ fd + count ≤ 256 := by
  unfold checkFieldRange
  split <;> simp <;> omega

theorem checkFieldRange_error {fd count : Nat} {c : Cause} :
    checkFieldRange fd count = .error c ↔ fd + count > 256 ∧ c = .operand := by
  unfold checkFieldRange
  split <;> simp [except_error_inj, -Except.error.injEq] <;> omega

theorem checkHashOperands_ok {pd : Nat} {s : State} {u : Unit} :
    checkHashOperands pd s = .ok u ↔
      pd ≤ 15 ∧ s.msgLen.toNat ≤ Config.msgMax.toNat ∧ s.dstLen.toNat ≤ 255 := by
  simp [checkHashOperands, except_bind_ok, checkPointIndex_ok, checkMessageLength_ok, checkTagLength_ok]

theorem checkHashOperands_error {pd : Nat} {s : State} {c : Cause} :
    checkHashOperands pd s = .error c ↔
      (c = .operand ∧ (pd > 15 ∨ s.msgLen.toNat > Config.msgMax.toNat)) ∨
      (c = .cfgDstTooLong ∧ pd ≤ 15 ∧ s.msgLen.toNat ≤ Config.msgMax.toNat ∧ s.dstLen.toNat > 255) := by
  simp only [checkHashOperands, except_bind_error, checkPointIndex_error, checkMessageLength_error,
    checkTagLength_error, checkPointIndex_ok, checkMessageLength_ok]
  constructor
  · rintro (⟨h, rfl⟩ | ⟨_, h, ⟨h', rfl⟩ | ⟨_, h', h'', rfl⟩⟩)
    · exact .inl ⟨rfl, .inl h⟩
    · exact .inl ⟨rfl, .inr h'⟩
    · exact .inr ⟨rfl, h, h', h''⟩
  · rintro (⟨rfl, h⟩ | ⟨rfl, h, h', h''⟩)
    · by_cases hp : pd > 15
      · exact .inl ⟨hp, rfl⟩
      · exact .inr ⟨(), by omega, .inl ⟨h.resolve_left hp, rfl⟩⟩
    · exact .inr ⟨(), h, .inr ⟨(), h', h'', rfl⟩⟩

@[simp] theorem messageOf_length (s : State) : (messageOf s).length = s.msgLen.toNat := by
  simp [messageOf, Memory.readBytes]

@[simp] theorem tagOf_length (s : State) : (tagOf s).length = s.dstLen.toNat := by
  simp [tagOf, Memory.readBytes]

/-! ### The expander -/

theorem expandXmd_ok {msg dst out : List Byte} {n : Nat} :
    expandXmd msg dst n = .ok out ↔
      n ≤ 8160 ∧ dst.length ≤ 255 ∧
      out = (xmdBlocks (xmdFirstHash msg dst n) (dstPrime dst) (ceilDiv n 32) 1 (xmdFirstHash msg dst n)).take n := by
  have hc : ceilDiv n 32 = (n + 31) / 32 := rfl
  unfold expandXmd digestBytes maxBlocks maxTagBytes
  by_cases h : n ≤ 8160
  · by_cases h' : dst.length ≤ 255
    · simp only [if_neg (show ¬ ceilDiv n 32 > 255 by omega), if_neg (show ¬ dst.length > 255 by omega),
        except_ok_inj, h, h', true_and]
    · simp only [if_neg (show ¬ ceilDiv n 32 > 255 by omega), if_pos (show dst.length > 255 by omega),
        reduceCtorEq, h', false_and, and_false]
  · simp only [if_pos (show ceilDiv n 32 > 255 by omega), reduceCtorEq, h, false_and]

theorem expandXmd_error {msg dst : List Byte} {n : Nat} {c : Cause} :
    expandXmd msg dst n = .error c ↔
      (c = .cfgLenTooLarge ∧ n > 8160) ∨ (c = .cfgDstTooLong ∧ n ≤ 8160 ∧ dst.length > 255) := by
  have hc : ceilDiv n 32 = (n + 31) / 32 := rfl
  unfold expandXmd digestBytes maxBlocks maxTagBytes
  by_cases h : n ≤ 8160
  · by_cases h' : dst.length ≤ 255
    · simp only [if_neg (show ¬ ceilDiv n 32 > 255 by omega), if_neg (show ¬ dst.length > 255 by omega),
        reduceCtorEq, false_iff]
      omega
    · rw [if_neg (show ¬ ceilDiv n 32 > 255 by omega), if_pos (show dst.length > 255 by omega), except_error_inj]
      simp only [h, show dst.length > 255 by omega, and_true, show ¬ n > 8160 by omega, and_false, false_or]
  · rw [if_pos (show ceilDiv n 32 > 255 by omega), except_error_inj]
    simp only [h, false_and, and_false, or_false, show n > 8160 by omega, and_true]

theorem hashToField_ok {p count : Nat} {msg dst : List Byte} {us : List Nat} :
    hashToField p msg dst count = .ok us ↔
      ∃ e, expandXmd msg dst (48 * count) = .ok e ∧ us = (List.range count).map (windowElement p e) := by
  unfold hashToField windowBytes
  cases expandXmd msg dst (48 * count) <;> simp [except_ok_inj, -Except.ok.injEq]

theorem hashToField_error {p count : Nat} {msg dst : List Byte} {c : Cause} :
    hashToField p msg dst count = .error c ↔ expandXmd msg dst (48 * count) = .error c := by
  unfold hashToField windowBytes
  cases expandXmd msg dst (48 * count) <;> simp

/-- `n` elements are asked for and `n` are given. -/
theorem hashToField_length {p count : Nat} {msg dst : List Byte} {us : List Nat}
    (h : hashToField p msg dst count = .ok us) : us.length = count := by
  obtain ⟨e, _, rfl⟩ := hashToField_ok.mp h
  simp

/-! ### The map -/

section
variable {α : Type}

theorem selectCandidate_error {F : FieldOps α} {b : α} {x : MapCandidates α} {c : Cause} :
    selectCandidate F b x = .error c ↔
      c = .intNoSquare ∧ F.isSquare (curveRhs F b x.x1) = false ∧ F.isSquare (curveRhs F b x.x2) = false ∧
      F.isSquare (curveRhs F b x.x3) = false := by
  unfold selectCandidate
  split <;> [skip; split <;> [skip; split]] <;> simp_all [except_error_inj, -Except.error.injEq]

/-- A selected candidate is one whose `g` is a square. -/
theorem selectCandidate_square {F : FieldOps α} {b x : α} {cs : MapCandidates α}
    (h : selectCandidate F b cs = .ok x) : F.isSquare (curveRhs F b x) = true := by
  unfold selectCandidate at h
  split at h
  · next h' => cases h; exact h'
  · split at h
    · next h' => cases h; exact h'
    · split at h
      · next h' => cases h; exact h'
      · cases h

theorem liftCandidate_ok [DecidableEq α] {F : FieldOps α} {g : Group} {b u x : α} {xy : α × α} :
    liftCandidate F g b u x = .ok xy ↔
      ∃ r, F.sqrt (curveRhs F b x) = some r ∧ xy = (x, matchSign F u r) ∧
        (g = .g2 → onCurve F b x (matchSign F u r) = true) := by
  unfold liftCandidate
  cases F.sqrt (curveRhs F b x) with
  | none => simp
  | some r =>
    cases g
    · simp [except_ok_inj, -Except.ok.injEq]
    · by_cases h : onCurve F b x (matchSign F u r) = true <;> simp [h, except_ok_inj, -Except.ok.injEq]

theorem liftCandidate_error [DecidableEq α] {F : FieldOps α} {g : Group} {b u x : α} {c : Cause} :
    liftCandidate F g b u x = .error c ↔
      (c = .intSqrtFailed ∧ F.sqrt (curveRhs F b x) = none) ∨
      (c = .intNotOnCurve ∧ g = .g2 ∧ ∃ r, F.sqrt (curveRhs F b x) = some r ∧
        onCurve F b x (matchSign F u r) = false) := by
  unfold liftCandidate
  cases F.sqrt (curveRhs F b x) with
  | none => simp [except_error_inj, -Except.error.injEq]
  | some r =>
    cases g
    · simp
    · by_cases h : onCurve F b x (matchSign F u r) = true <;> simp [h, except_error_inj, -Except.error.injEq]

theorem svdwMap_ok [DecidableEq α] {F : FieldOps α} {c : MapConsts α} {g : Group} {u : α} {xy : α × α} :
    svdwMap F c g u = .ok xy ↔
      ∃ x, selectCandidate F c.b (mapCandidates F c u) = .ok x ∧ liftCandidate F g c.b u x = .ok xy := by
  unfold svdwMap
  cases selectCandidate F c.b (mapCandidates F c u) <;> simp

theorem svdwMap_error [DecidableEq α] {F : FieldOps α} {c : MapConsts α} {g : Group} {u : α} {e : Cause} :
    svdwMap F c g u = .error e ↔
      selectCandidate F c.b (mapCandidates F c u) = .error e ∨
      ∃ x, selectCandidate F c.b (mapCandidates F c u) = .ok x ∧ liftCandidate F g c.b u x = .error e := by
  unfold svdwMap
  cases selectCandidate F c.b (mapCandidates F c u) <;> simp

end

/-! ### Clearing and final checks -/

theorem checkedG2_ok {F : FieldOps Fq2} {k : Consts} {r q : Point Fq2} :
    checkedG2 F k r = .ok q ↔ pointOnCurve F k.b2 r = true ∧ q = r := by
  unfold checkedG2
  split <;> simp_all [except_ok_inj, -Except.ok.injEq]

theorem checkedG2_error {F : FieldOps Fq2} {k : Consts} {r : Point Fq2} {c : Cause} :
    checkedG2 F k r = .error c ↔ pointOnCurve F k.b2 r = false ∧ c = .intNotOnCurve := by
  unfold checkedG2
  split <;> simp_all [except_error_inj, -Except.error.injEq]

theorem clearCofactor_ok {F : FieldOps Fq2} {k : Consts} {q r : Point Fq2} :
    clearCofactor F k q = .ok r ↔ pointOnCurve F k.b2 (clearingSum F k q) = true ∧ r = clearingSum F k q :=
  checkedG2_ok

theorem finalCheckG1_ok {F : FieldOps Nat} {k : Consts} {r q : Point Nat} :
    finalCheckG1 F k r = .ok q ↔ pointOnCurve F k.b1 r = true ∧ q = r := by
  unfold finalCheckG1
  split <;> simp_all [except_ok_inj, -Except.ok.injEq]

theorem finalCheckG1_error {F : FieldOps Nat} {k : Consts} {r : Point Nat} {c : Cause} :
    finalCheckG1 F k r = .error c ↔ pointOnCurve F k.b1 r = false ∧ c = .intNotOnCurve := by
  unfold finalCheckG1
  split <;> simp_all [except_error_inj, -Except.error.injEq]

theorem finalCheckG2_ok {F : FieldOps Fq2} {k : Consts} {r q : Point Fq2} :
    finalCheckG2 F k r = .ok q ↔ pointOnCurve F k.b2 r = true ∧ ptMul F k.rOrder r = .inf ∧ q = r := by
  unfold finalCheckG2
  split <;> [split; skip] <;> simp_all [except_ok_inj, -Except.ok.injEq]

theorem finalCheckG2_error {F : FieldOps Fq2} {k : Consts} {r : Point Fq2} {c : Cause} :
    finalCheckG2 F k r = .error c ↔
      (c = .intNotOnCurve ∧ pointOnCurve F k.b2 r = false) ∨
      (c = .intNotInSubgroup ∧ pointOnCurve F k.b2 r = true ∧ ptMul F k.rOrder r ≠ .inf) := by
  unfold finalCheckG2
  split <;> [split; skip] <;> simp_all [except_error_inj, -Except.error.injEq]

/-! ### The step -/

/-- A step performs the next host event, or is idle. -/
theorem step_cases (s : State) :
    (s.pending = [] ∧ step s = .next s) ∨
    ∃ e rest, s.pending = e :: rest ∧ step s = hostAccess e (s.takeEvent rest) := by
  unfold step stepHost
  cases s.pending with
  | nil => exact .inl ⟨rfl, rfl⟩
  | cons e rest => exact .inr ⟨e, rest, rfl, rfl⟩

theorem hostIndexed_next {i size : Nat} {access : Host.Outcome State Fault Refusal} {t : State} :
    hostIndexed i size access = .next t ↔ i < size ∧ access = .next t := by
  unfold hostIndexed
  split <;> simp_all

end Sys2Proof.Machine
end

