-- ==== Sys2Proof/Laws/Commands.lean ====
section
/-! SUPPORT. What each command can do, once: how it ends with its results written, and that every command ends so or
in fault entry (spec/60_exceptions.md R284). -/

namespace Sys2Proof.Machine

/-- The checks and the effect of a command, or the cause of its fault. -/
def runCommand (i : Instr) (s : State) : Except Cause State :=
  match i with
  | .expand n => runExpand n s
  | .h2f fd count => runH2f fd count s
  | .sgn0 fs => runSgn0 fs s
  | .sgn0e fs => runSgn0e fs s
  | .map1 pd fs => runMap1 pd fs s
  | .map2 pd fs => runMap2 pd fs s
  | .psi pd ps => runPsi pd ps s
  | .clrcof pd ps => runClrcof pd ps s
  | .hashg1 pd => runHashg1 pd s
  | .hashg2 pd => runHashg2 pd s
  | .encg2 pd => runEncg2 pd s

theorem exec_eq_complete (i : Instr) (s : State) : exec i s = complete s (runCommand i s) := by cases i <;> rfl

/-- A command ends with its results written, or in fault entry. -/
theorem exec_cases {i : Instr} {s t : State} (h : exec i s = .next t) :
    runCommand i s = .ok t ∨ ∃ c, runCommand i s = .error c ∧ t = raiseFault c s := by
  rw [exec_eq_complete] at h
  exact complete_eq_next.mp h

theorem exec_of_ok {i : Instr} {s t : State} (h : runCommand i s = .ok t) : exec i s = .next t := by
  rw [exec_eq_complete]
  exact complete_eq_next.mpr (.inl h)

theorem exec_of_error {i : Instr} {s : State} {c : Cause} (h : runCommand i s = .error c) :
    exec i s = .next (raiseFault c s) := by
  rw [exec_eq_complete]
  exact complete_eq_next.mpr (.inr ⟨c, h, rfl⟩)

theorem runExpand_ok {n : Nat} {s t : State} :
    runExpand n s = .ok t ↔
      s.msgLen.toNat ≤ Config.msgMax.toNat ∧ n ≤ 8160 ∧ s.dstLen.toNat ≤ 255 ∧
      ∃ out, expandXmd (messageOf s) (tagOf s) n = .ok out ∧ t = s.writeXout out n := by
  simp only [runExpand, except_bind_ok, checkMessageLength_ok, checkExpansionLength_ok, checkTagLength_ok,
    except_ok_inj, exists_const]

theorem runH2f_ok {fd count : Nat} {s t : State} :
    runH2f fd count s = .ok t ↔
      fd + count ≤ 256 ∧ s.msgLen.toNat ≤ Config.msgMax.toNat ∧ count ≤ 170 ∧ s.dstLen.toNat ≤ 255 ∧
      ∃ us, hashToField s.k.p (messageOf s) (tagOf s) count = .ok us ∧ t = s.writeFields fd us := by
  have hw : windowBytes * count ≤ 8160 ↔ count ≤ 170 := by unfold windowBytes; omega
  simp only [runH2f, except_bind_ok, checkFieldRange_ok, checkMessageLength_ok, checkExpansionLength_ok,
    checkTagLength_ok, except_ok_inj, exists_const, hw]

theorem runSgn0_ok {fs : Nat} {s t : State} :
    runSgn0 fs s = .ok t ↔ ∃ x, s.readField fs = some x ∧ t = s.writeSgn (sgn0Fq x) := by
  simp only [runSgn0, except_bind_ok, fieldOperand_ok, except_ok_inj]

theorem runSgn0e_ok {fs : Nat} {s t : State} :
    runSgn0e fs s = .ok t ↔ ∃ x, pairOperand s fs = .ok x ∧ t = s.writeSgn (sgn0Fq2 x) := by
  simp only [runSgn0e, except_bind_ok, except_ok_inj]

theorem runMap1_ok {pd fs : Nat} {s t : State} :
    runMap1 pd fs s = .ok t ↔
      pd ≤ 15 ∧ ∃ u, s.readField fs = some u ∧
      ∃ xy, svdwMapG1 fqOps s.k u = .ok xy ∧ t = s.setPointReg pd (pointRegG1 (.affine xy.1 xy.2)) := by
  simp only [runMap1, except_bind_ok, checkPointIndex_ok, fieldOperand_ok, except_ok_inj, exists_const]

theorem runMap2_ok {pd fs : Nat} {s t : State} :
    runMap2 pd fs s = .ok t ↔
      pd ≤ 15 ∧ ∃ u, pairOperand s fs = .ok u ∧
      ∃ xy, svdwMapG2 fq2Ops s.k u = .ok xy ∧ t = s.setPointReg pd (pointRegG2 (.affine xy.1 xy.2)) := by
  simp only [runMap2, except_bind_ok, checkPointIndex_ok, except_ok_inj, exists_const]

theorem runPsi_ok {pd ps : Nat} {s t : State} :
    runPsi pd ps s = .ok t ↔
      pd ≤ 15 ∧ ps ≤ 15 ∧ ∃ q, pointOperandG2 s ps = .ok q ∧
      ∃ r, checkedG2 fq2Ops s.k (psiPoint s.k q) = .ok r ∧ t = s.setPointReg pd (pointRegG2 r) := by
  simp only [runPsi, except_bind_ok, checkPointIndex_ok, except_ok_inj, exists_const]

theorem runClrcof_ok {pd ps : Nat} {s t : State} :
    runClrcof pd ps s = .ok t ↔
      pd ≤ 15 ∧ ps ≤ 15 ∧ ∃ q, pointOperandG2 s ps = .ok q ∧
      ∃ r, clearCofactor fq2Ops s.k q = .ok r ∧ t = s.setPointReg pd (pointRegG2 r) := by
  simp only [runClrcof, except_bind_ok, checkPointIndex_ok, except_ok_inj, exists_const]

theorem runHashg1_ok {pd : Nat} {s t : State} :
    runHashg1 pd s = .ok t ↔
      pd ≤ 15 ∧ s.msgLen.toNat ≤ Config.msgMax.toNat ∧ s.dstLen.toNat ≤ 255 ∧
      ∃ r, hashToG1 fqOps s.k (messageOf s) (tagOf s) = .ok r ∧ t = s.setPointReg pd (pointRegG1 r) := by
  simp only [runHashg1, except_bind_ok, checkHashOperands_ok, except_ok_inj, exists_const]
  tauto

theorem runHashg2_ok {pd : Nat} {s t : State} :
    runHashg2 pd s = .ok t ↔
      pd ≤ 15 ∧ s.msgLen.toNat ≤ Config.msgMax.toNat ∧ s.dstLen.toNat ≤ 255 ∧
      ∃ r, hashToG2 fq2Ops s.k (messageOf s) (tagOf s) = .ok r ∧ t = s.setPointReg pd (pointRegG2 r) := by
  simp only [runHashg2, except_bind_ok, checkHashOperands_ok, except_ok_inj, exists_const]
  tauto

theorem runEncg2_ok {pd : Nat} {s t : State} :
    runEncg2 pd s = .ok t ↔
      pd ≤ 15 ∧ s.msgLen.toNat ≤ Config.msgMax.toNat ∧ s.dstLen.toNat ≤ 255 ∧
      ∃ r, encodeToG2 fq2Ops s.k (messageOf s) (tagOf s) = .ok r ∧ t = s.setPointReg pd (pointRegG2 r) := by
  simp only [runEncg2, except_bind_ok, checkHashOperands_ok, except_ok_inj, exists_const]
  tauto

theorem hashToG1_ok {F : FieldOps Nat} {k : Consts} {msg dst : List Byte} {r : Point Nat} :
    hashToG1 F k msg dst = .ok r ↔
      ∃ us, hashToField k.p msg dst 2 = .ok us ∧
      ∃ q0, svdwMapG1 F k (us.getD 0 0) = .ok q0 ∧ ∃ q1, svdwMapG1 F k (us.getD 1 0) = .ok q1 ∧
        pointOnCurve F k.b1 (ptAdd F (affineOf q0) (affineOf q1)) = true ∧
        r = ptAdd F (affineOf q0) (affineOf q1) := by
  simp only [hashToG1, sumMapsG1, except_bind_ok, finalCheckG1_ok, except_ok_inj]
  constructor
  · rintro ⟨us, h, _, ⟨q0, h0, q1, h1, rfl⟩, hc, rfl⟩
    exact ⟨us, h, q0, h0, q1, h1, hc, rfl⟩
  · rintro ⟨us, h, q0, h0, q1, h1, hc, rfl⟩
    exact ⟨us, h, _, ⟨q0, h0, q1, h1, rfl⟩, hc, rfl⟩

theorem hashToG2_ok {F : FieldOps Fq2} {k : Consts} {msg dst : List Byte} {r : Point Fq2} :
    hashToG2 F k msg dst = .ok r ↔
      clearedHashG2 F k msg dst = .ok r ∧ pointOnCurve F k.b2 r = true ∧ ptMul F k.rOrder r = .inf := by
  simp only [hashToG2, except_bind_ok, finalCheckG2_ok]
  constructor
  · rintro ⟨_, h, hc, hm, rfl⟩
    exact ⟨h, hc, hm⟩
  · rintro ⟨h, hc, hm⟩
    exact ⟨r, h, hc, hm, rfl⟩

theorem encodeToG2_ok {F : FieldOps Fq2} {k : Consts} {msg dst : List Byte} {r : Point Fq2} :
    encodeToG2 F k msg dst = .ok r ↔
      clearedEncodeG2 F k msg dst = .ok r ∧ pointOnCurve F k.b2 r = true ∧ ptMul F k.rOrder r = .inf := by
  simp only [encodeToG2, except_bind_ok, finalCheckG2_ok]
  constructor
  · rintro ⟨_, h, hc, hm, rfl⟩
    exact ⟨h, hc, hm⟩
  · rintro ⟨h, hc, hm⟩
    exact ⟨r, h, hc, hm, rfl⟩

end Sys2Proof.Machine
end

