-- ==== Sys2Proof/Laws/Curve.lean ====
section
/-! SUPPORT. What scalar multiplication and exponentiation compute: one bit of the scalar at a time
(spec/49_collaborators.md R235, R255). -/

namespace Sys2Proof.Machine

theorem bitsBelow_bit (k n : Nat) (b : Bool) : bitsBelow (k + 1) (2 * n + b.toNat) = bitsBelow k n ++ [b] := by
  induction k with
  | zero => cases b <;> simp [bitsBelow]
  | succ k ih =>
    have ht : (2 * n + b.toNat).testBit (k + 1) = n.testBit k := by
      rw [Nat.testBit_succ]
      congr 1
      cases b
      · simp
      · simp
        omega
    rw [bitsBelow, ih, ht, bitsBelow, List.cons_append]

/-- The bits of `2n + b` are those of `n` and then `b`, but for 0, which has none. -/
theorem bitsOf_bit {n : Nat} {b : Bool} (h : n ≠ 0 ∨ b = true) : bitsOf (2 * n + b.toNat) = bitsOf n ++ [b] := by
  by_cases hn : n = 0
  · obtain rfl : b = true := h.resolve_left (by simp [hn])
    subst hn
    rfl
  · have hl : (2 * n + b.toNat).log2 = n.log2 + 1 := by
      rw [Nat.log2_def, if_pos (by omega)]
      congr 2
      cases b
      · simp
      · simp
        omega
    rw [bitsOf, bitsOf, if_neg (by omega), if_neg hn, hl, bitsBelow_bit]

variable {α : Type} [DecidableEq α] (F : FieldOps α) (a : Point α)

@[simp] theorem ptAdd_inf_left : ptAdd F .inf a = a := by cases a <;> rfl

@[simp] theorem ptAdd_inf_right : ptAdd F a .inf = a := by cases a <;> rfl

@[simp] theorem ptMul_zero : ptMul F 0 a = .inf := rfl

theorem ptMul_double (n : Nat) : ptMul F (2 * n) a = ptAdd F (ptMul F n a) (ptMul F n a) := by
  by_cases h : n = 0
  · simp [h]
  · have hb := bitsOf_bit (b := false) (.inl h)
    simp only [Bool.toNat_false, Nat.add_zero] at hb
    simp [ptMul, hb, List.foldl_append]

theorem ptMul_double_add_one (n : Nat) :
    ptMul F (2 * n + 1) a = ptAdd F (ptAdd F (ptMul F n a) (ptMul F n a)) a := by
  have hb : bitsOf (2 * n + 1) = bitsOf n ++ [true] := bitsOf_bit (b := true) (.inr rfl)
  simp [ptMul, hb, List.foldl_append]

@[simp] theorem ptMul_one : ptMul F 1 a = a := by simpa using ptMul_double_add_one F a 0

theorem fqPow_double {n : Nat} (v : Nat) (h : n ≠ 0) : fqPow v (2 * n) = fqSqr (fqPow v n) := by
  have hb := bitsOf_bit (b := false) (.inl h)
  simp only [Bool.toNat_false, Nat.add_zero] at hb
  simp [fqPow, hb, List.foldl_append]

theorem fqPow_double_add_one (n v : Nat) : fqPow v (2 * n + 1) = fqMul (fqSqr (fqPow v n)) v := by
  have hb : bitsOf (2 * n + 1) = bitsOf n ++ [true] := bitsOf_bit (b := true) (.inr rfl)
  simp [fqPow, hb, List.foldl_append]

end Sys2Proof.Machine
end

