-- ==== Sys2Proof/Laws/Memory.lean ====
section
/-! SUPPORT. The buffers: a byte read after a write, and the canonical form every buffer operation keeps. -/

namespace Sys2Proof.Machine

/-- A write lists its byte and leaves every other byte as it was. -/
theorem cellsRead_cellsWrite (cells : List Host.Cell) (a i : Nat) (b : Byte) :
    cellsRead (cellsWrite cells a b) i = if i = a then some b else cellsRead cells i := by
  induction cells with
  | nil => by_cases h : i = a <;> simp [cellsWrite, cellsRead, h]
  | cons c rest ih =>
    obtain ⟨a', b'⟩ := c
    unfold cellsWrite
    split
    · by_cases h : i = a <;> simp [cellsRead, h]
    · split
      · next _ h' => subst h'; by_cases h : i = a <;> simp [cellsRead, h]
      · next _ h' =>
        by_cases h : i = a'
        · have : ¬ i = a := fun e => h' (e ▸ h)
          simp [cellsRead, h, Ne.symm h']
        · simp [cellsRead, h, ih]

/-- A byte of a buffer after a write. -/
theorem memoryRead_write (m : Memory) (buffer : BufferId) (a i : Nat) (b : Byte) :
    (m.write a b).read buffer i = if i = a then b else m.read buffer i := by
  by_cases h : i = a <;> simp [Memory.read, Memory.write, cellsRead_cellsWrite, h]

@[simp] theorem memoryWrite_draw (m : Memory) (a : Nat) (b : Byte) : (m.write a b).draw = m.draw := rfl

@[simp] theorem readBytes_length (m : Memory) (buffer : BufferId) (a n : Nat) :
    (m.readBytes buffer a n).length = n := by simp [Memory.readBytes]

theorem wf_iff (m : Memory) (size : Nat) :
    m.wf size = true ↔ (m.cells.map Prod.fst).Pairwise (· < ·) ∧ ∀ c ∈ m.cells, c.1 < size := by
  simp [Memory.wf]

/-- The offsets a write lists are those listed before and its own. -/
theorem mem_cellsWrite_fst (cells : List Host.Cell) (a : Nat) (b : Byte) {x : Nat}
    (h : x ∈ (cellsWrite cells a b).map Prod.fst) : x = a ∨ x ∈ cells.map Prod.fst := by
  induction cells with
  | nil => simpa [cellsWrite] using h
  | cons c rest ih =>
    obtain ⟨a', b'⟩ := c
    unfold cellsWrite at h
    split at h
    · simpa using h
    · split at h
      · next _ h' => subst h'; simp at h ⊢; tauto
      · simp only [List.map_cons, List.mem_cons] at h ⊢
        rcases h with h | h
        · exact .inr (.inl h)
        · rcases ih h with h | h
          · exact .inl h
          · exact .inr (.inr h)

theorem cellsWrite_sorted (cells : List Host.Cell) (a : Nat) (b : Byte)
    (h : (cells.map Prod.fst).Pairwise (· < ·)) : ((cellsWrite cells a b).map Prod.fst).Pairwise (· < ·) := by
  induction cells with
  | nil => simp [cellsWrite]
  | cons c rest ih =>
    obtain ⟨a', b'⟩ := c
    rw [List.map_cons, List.pairwise_cons] at h
    unfold cellsWrite
    split
    · next hlt =>
      rw [List.map_cons, List.pairwise_cons]
      refine ⟨fun x hx => ?_, by rw [List.map_cons, List.pairwise_cons]; exact h⟩
      rw [List.map_cons, List.mem_cons] at hx
      rcases hx with rfl | hx
      · exact hlt
      · exact lt_trans hlt (h.1 x hx)
    · split
      · next _ he =>
        subst he
        rw [List.map_cons, List.pairwise_cons]
        exact h
      · next h1 h2 =>
        rw [List.map_cons, List.pairwise_cons]
        refine ⟨fun x hx => ?_, ih h.2⟩
        rcases mem_cellsWrite_fst rest a b hx with rfl | hx
        · show a' < x
          omega
        · exact h.1 x hx

/-- A write within the buffer keeps its canonical form. -/
theorem wf_write {m : Memory} {size : Nat} (h : m.wf size = true) {a : Nat} (ha : a < size) (b : Byte) :
    (m.write a b).wf size = true := by
  rw [wf_iff] at h ⊢
  refine ⟨cellsWrite_sorted _ _ _ h.1, fun c hc => ?_⟩
  rcases mem_cellsWrite_fst m.cells a b (List.mem_map_of_mem hc) with h' | h'
  · omega
  · obtain ⟨d, hd, e⟩ := List.mem_map.mp h'
    rw [← e]
    exact h.2 d hd

/-- A buffer nothing has been written to is in canonical form, whatever its size. -/
theorem wf_emptyMemory (draw size : Nat) : (emptyMemory draw).wf size = true := by simp [wf_iff, emptyMemory]

/-- A buffer that holds exactly a string is in canonical form, its size the string's length. -/
theorem wf_ofBytes (out : List Byte) (draw : Nat) : (Memory.ofBytes out draw).wf out.length = true := by
  rw [wf_iff]
  have hfst : ((Memory.ofBytes out draw).cells).map Prod.fst = List.range out.length := by
    simp [Memory.ofBytes, List.map_fst_zip]
  refine ⟨by rw [hfst]; exact List.pairwise_lt_range, fun c hc => ?_⟩
  have : c.1 ∈ List.range out.length := hfst ▸ List.mem_map_of_mem hc
  exact List.mem_range.mp this

/-- The listed bytes of `zip (range' a ..) out`. -/
theorem cellsRead_zip_range' (out : List Byte) (a i : Nat) :
    cellsRead ((List.range' a out.length).zip out) i = if a ≤ i then out[i - a]? else none := by
  induction out generalizing a with
  | nil => simp [cellsRead]
  | cons b rest ih =>
    simp only [List.length_cons, List.range'_succ, List.zip_cons_cons, cellsRead, ih]
    rcases Nat.lt_trichotomy a i with h | h | h
    · have h1 : ¬ i = a := by omega
      have h2 : i - a = (i - (a + 1)) + 1 := by omega
      rw [if_neg h1, if_pos (by omega : a + 1 ≤ i), if_pos (by omega : a ≤ i), h2]
      simp
    · subst h; simp
    · have h1 : ¬ i = a := by omega
      rw [if_neg h1, if_neg (by omega : ¬ a + 1 ≤ i), if_neg (by omega : ¬ a ≤ i)]

/-- The listed bytes of a buffer that holds exactly a string. -/
theorem cellsRead_ofBytes (out : List Byte) (draw i : Nat) :
    cellsRead (Memory.ofBytes out draw).cells i = out[i]? := by
  simpa [Memory.ofBytes, List.range_eq_range'] using cellsRead_zip_range' out 0 i

end Sys2Proof.Machine
end

