-- ==== Sys2Proof/Laws/PerInstr.lean ====
section
/-! SUPPORT. The family EncodedOpcode: the word of every well-formed command carries the opcode of its row
(spec/30_encoding.md R92, R94), one lemma per constructor. -/

namespace Sys2Proof.Laws.EncodedOpcode

/-- The opcode field of the command's word is its row's opcode. -/
def Statement (i : Instr) : Prop := i.wf = true → opField (encode i) = opcodeOf i

theorem opField_wordOfFields {op a b c : Nat} (ho : op < 256) (ha : a < 256) (hb : b < 256) (hc : c < 256) :
    opField (wordOfFields op a b c) = op := by
  simp only [opField, wordOfFields, BitVec.toNat_ofNat]
  omega

theorem expand (n : Nat) : Statement (.expand n) := fun h => by
  simp only [Instr.wf, fitsLen16, decide_eq_true_eq] at h
  exact opField_wordOfFields (by omega) (by omega) (by omega) (by omega)

theorem h2f (fd count : Nat) : Statement (.h2f fd count) := fun h => by
  simp only [Instr.wf, fitsByte, Bool.and_eq_true, decide_eq_true_eq] at h
  exact opField_wordOfFields (by omega) (by omega) (by omega) (by omega)

theorem sgn0 (fs : Nat) : Statement (.sgn0 fs) := fun h => by
  simp only [Instr.wf, fitsByte, decide_eq_true_eq] at h
  exact opField_wordOfFields (by omega) (by omega) (by omega) (by omega)

theorem sgn0e (fs : Nat) : Statement (.sgn0e fs) := fun h => by
  simp only [Instr.wf, fitsByte, decide_eq_true_eq] at h
  exact opField_wordOfFields (by omega) (by omega) (by omega) (by omega)

theorem map1 (pd fs : Nat) : Statement (.map1 pd fs) := fun h => by
  simp only [Instr.wf, fitsByte, Bool.and_eq_true, decide_eq_true_eq] at h
  exact opField_wordOfFields (by omega) (by omega) (by omega) (by omega)

theorem map2 (pd fs : Nat) : Statement (.map2 pd fs) := fun h => by
  simp only [Instr.wf, fitsByte, Bool.and_eq_true, decide_eq_true_eq] at h
  exact opField_wordOfFields (by omega) (by omega) (by omega) (by omega)

theorem psi (pd ps : Nat) : Statement (.psi pd ps) := fun h => by
  simp only [Instr.wf, fitsByte, Bool.and_eq_true, decide_eq_true_eq] at h
  exact opField_wordOfFields (by omega) (by omega) (by omega) (by omega)

theorem clrcof (pd ps : Nat) : Statement (.clrcof pd ps) := fun h => by
  simp only [Instr.wf, fitsByte, Bool.and_eq_true, decide_eq_true_eq] at h
  exact opField_wordOfFields (by omega) (by omega) (by omega) (by omega)

theorem hashg1 (pd : Nat) : Statement (.hashg1 pd) := fun h => by
  simp only [Instr.wf, fitsByte, decide_eq_true_eq] at h
  exact opField_wordOfFields (by omega) (by omega) (by omega) (by omega)

theorem hashg2 (pd : Nat) : Statement (.hashg2 pd) := fun h => by
  simp only [Instr.wf, fitsByte, decide_eq_true_eq] at h
  exact opField_wordOfFields (by omega) (by omega) (by omega) (by omega)

theorem encg2 (pd : Nat) : Statement (.encg2 pd) := fun h => by
  simp only [Instr.wf, fitsByte, decide_eq_true_eq] at h
  exact opField_wordOfFields (by omega) (by omega) (by omega) (by omega)

end Sys2Proof.Laws.EncodedOpcode
end

