-- ==== Sys2Proof/Laws/Registers.lean ====
section
/-! SUPPORT. What the register files read after a write (spec/10_state.md R18, R22, R23; spec/41_hash_to_field.md
R141). -/

namespace Sys2Proof.Machine

theorem fieldReg_setFieldReg (s : State) (k j : Nat) (r : FieldReg) (hk : k < 256) :
    (s.setFieldReg k r).f[j]? = if j = k then some r else s.f[j]? := by
  unfold State.setFieldReg
  rw [Vector.getElem?_setIfInBounds]
  by_cases h : k = j
  · simp [h ▸ hk, h, numFieldRegs]
  · simp [h, Ne.symm h]

theorem pointReg_setPointReg (s : State) (k j : Nat) (r : PointReg) (hk : k < 16) :
    (s.setPointReg k r).pt[j]? = if j = k then some r else s.pt[j]? := by
  unfold State.setPointReg
  rw [Vector.getElem?_setIfInBounds]
  by_cases h : k = j
  · simp [h ▸ hk, h, numPointRegs]
  · simp [h, Ne.symm h]

/-- `H2F`'s writes: register `fd + j` holds element `j`, every other register is as before. -/
theorem fieldReg_writeFields (us : List Nat) (s : State) (fd j : Nat) (h : fd + us.length ≤ 256) :
    (s.writeFields fd us).f[j]? =
      if hj : fd ≤ j ∧ j < fd + us.length then some ⟨true, BitVec.ofNat 256 (us[j - fd]'(by omega))⟩
      else s.f[j]? := by
  induction us generalizing s fd with
  | nil => simp [State.writeFields]
  | cons u us ih =>
    simp only [List.length_cons] at h
    rw [State.writeFields, ih _ _ (by omega), State.writeField, fieldReg_setFieldReg _ _ _ _ (by omega)]
    by_cases h1 : j = fd
    · subst h1
      simp
    · by_cases h2 : fd + 1 ≤ j ∧ j < fd + 1 + us.length
      · have h3 : fd ≤ j ∧ j < fd + (us.length + 1) := by omega
        have h4 : j - fd = (j - (fd + 1)) + 1 := by omega
        simp [h2, h3, h4]
      · have h3 : ¬ (fd ≤ j ∧ j < fd + (us.length + 1)) := by omega
        rw [dif_neg h2, if_neg h1, dif_neg (by simpa using h3)]

/-- A point whose coordinates fit their words reads back from the register that holds it. -/
theorem pointG2_pointRegG2 {x y : Fq2} (hx0 : x.c0 < 2 ^ 256) (hx1 : x.c1 < 2 ^ 256) (hy0 : y.c0 < 2 ^ 256)
    (hy1 : y.c1 < 2 ^ 256) : (pointRegG2 (.affine x y)).pointG2 = .affine x y := by
  simp only [pointRegG2, PointReg.pointG2, BitVec.toNat_ofNat, Nat.mod_eq_of_lt, hx0, hx1, hy0, hy1]
  rfl

theorem pointG1_pointRegG1 {x y : Nat} (hx : x < 2 ^ 256) (hy : y < 2 ^ 256) :
    (pointRegG1 (.affine x y)).pointG1 = .affine x y := by
  simp only [pointRegG1, PointReg.pointG1, BitVec.toNat_ofNat, Nat.mod_eq_of_lt, hx, hy]
  rfl

end Sys2Proof.Machine
end

