-- ==== Sys2Proof/Tests/Slice0.lean ====
section
/-! SUPPORT. Tests of the model against the vectors of spec/95_test_vectors.md and spec/97_curve_vectors.md, and for
every statement that has hypotheses a theorem that shows concrete values which meet them all. `MSG_MAX` is open (log
entry 3), so a test that runs a command on the state uses the empty message, and a vector whose message is "abc" is
checked on the pure function the command runs. -/

open Sys2Proof Sys2Proof.Machine

namespace Sys2Proof.Tests

-- One theorem at a time: the tests are evaluated by the kernel, and side by side they would need far more memory.
set_option Elab.async false

/-! ### WellFormed refuses an operand that does not fit its field -/

theorem test_wf_refuses_len16 : (Instr.expand 65536).wf = false := by decide
theorem test_wf_refuses_h2f_fd : (Instr.h2f 256 0).wf = false := by decide
theorem test_wf_refuses_h2f_count : (Instr.h2f 0 256).wf = false := by decide
theorem test_wf_refuses_sgn0_fs : (Instr.sgn0 256).wf = false ∧ (Instr.sgn0e 256).wf = false := by decide
theorem test_wf_refuses_map_pd : (Instr.map1 256 0).wf = false ∧ (Instr.map2 256 0).wf = false := by decide
theorem test_wf_refuses_map_fs : (Instr.map1 0 256).wf = false ∧ (Instr.map2 0 256).wf = false := by decide
theorem test_wf_refuses_point_pd : (Instr.psi 256 0).wf = false ∧ (Instr.clrcof 256 0).wf = false := by decide
theorem test_wf_refuses_point_ps : (Instr.psi 0 256).wf = false ∧ (Instr.clrcof 0 256).wf = false := by decide
theorem test_wf_refuses_hash_pd :
    (Instr.hashg1 256).wf = false ∧ (Instr.hashg2 256).wf = false ∧ (Instr.encg2 256).wf = false := by decide

/-- An index that names no register fits its field: the word is legal and faults when it runs (R95). -/
theorem test_wf_accepts_absent_register : (Instr.map1 255 0).wf = true := by decide

/-! ### Decoding (spec/95_test_vectors.md section 11) -/

theorem test_decode_expand : decode 0x01000020#32 = .ok (.expand 32) := by decide
theorem test_decode_h2f : decode 0x02000002#32 = .ok (.h2f 0 2) := by decide
theorem test_decode_sgn0 : decode 0x03000300#32 = .ok (.sgn0 3) := by decide
theorem test_decode_sgn0e : decode 0x04000400#32 = .ok (.sgn0e 4) := by decide
theorem test_decode_map1 : decode 0x05ff0000#32 = .ok (.map1 255 0) := by decide
theorem test_decode_map2 : decode 0x0603fe00#32 = .ok (.map2 3 254) := by decide
theorem test_decode_psi : decode 0x07010000#32 = .ok (.psi 1 0) := by decide
theorem test_decode_clrcof : decode 0x08100000#32 = .ok (.clrcof 16 0) := by decide
theorem test_decode_hashg1 : decode 0x090f0000#32 = .ok (.hashg1 15) := by decide
theorem test_decode_hashg2 : decode 0x0a000000#32 = .ok (.hashg2 0) := by decide
theorem test_decode_encg2 : decode 0x0b0f0000#32 = .ok (.encg2 15) := by decide

theorem test_decode_refuses_opcodes :
    decode 0x00000000#32 = .error (.reservedOpcode 0) ∧ decode 0x0c000000#32 = .error (.reservedOpcode 0x0c) ∧
    decode 0xffffffff#32 = .error (.reservedOpcode 0xff) ∧ decode 0x0000000a#32 = .error (.reservedOpcode 0) := by
  decide

theorem test_decode_refuses_nonzero_fields :
    decode 0x01010000#32 = .error (.mustBeZero 1) ∧ decode 0x02000100#32 = .error (.mustBeZero 2) ∧
    decode 0x03000001#32 = .error (.mustBeZero 3) ∧ decode 0x04010000#32 = .error (.mustBeZero 4) ∧
    decode 0x05000001#32 = .error (.mustBeZero 5) ∧ decode 0x070000ff#32 = .error (.mustBeZero 7) ∧
    decode 0x09000100#32 = .error (.mustBeZero 9) ∧ decode 0x0a000001#32 = .error (.mustBeZero 10) ∧
    decode 0x0b00ff00#32 = .error (.mustBeZero 11) := by decide

theorem test_decodeTableWord : decodeTableWord 32 0x0603fe00 = some (.map2 3 254) := by decide

theorem test_encode_map2 : encode (.map2 3 254) = 0x0603fe00#32 := by decide

/-! ### Small states -/

/-- The reset state with field register `k` holding `v`. -/
def withField (k v : Nat) : State := State.reset.writeField k v

/-- The reset state with field registers `k` and `k + 1` holding a pair. -/
def withPair (k c0 c1 : Nat) : State := (withField k c0).writeField (k + 1) c1

/-- The reset state with these host accesses to come. -/
def withHost (events : List HostEvent) : State := { State.reset with pending := events }

/-- The reset state after a fault, with these host accesses to come. -/
def faultedWithHost (events : List HostEvent) : State := { raiseFault .operand State.reset with pending := events }

/-- The bytes of a text. -/
def textBytes (t : String) : List Byte := t.toList.map fun c => BitVec.ofNat 8 c.toNat

/-- Tag D1 of spec/95_test_vectors.md section 0. -/
def tagD1 : List Byte := textBytes "QUUX-V01-CS02-with-BN254G1_XMD:SHA-256_SVDW_RO_"

/-- Tag D2 of spec/95_test_vectors.md section 0. -/
def tagD2 : List Byte := textBytes "QUUX-V01-CS02-with-BN254G2_XMD:SHA-256_SVDW_RO_"

/-- Tag D2NU of spec/95_test_vectors.md section 0. -/
def tagD2NU : List Byte := textBytes "QUUX-V01-CS02-with-BN254G2_XMD:SHA-256_SVDW_NU_"

/-- Tag DX of spec/95_test_vectors.md section 0. -/
def tagDX : List Byte := textBytes "QUUX-V01-CS02-with-expander-SHA256-128"

/-- The reset state with a tag in `DST` and the empty message. -/
def withTag (dst : List Byte) : State :=
  { State.reset with dst := Memory.ofBytes dst 0, dstLen := BitVec.ofNat 16 dst.length }

/-- The point `S` of spec/97_curve_vectors.md section 8, outside the subgroup. -/
def pointS : Point Fq2 :=
  .affine ⟨9172417412068866387831179270807094399447638906702182742588184787227747437274,
      8646806264210315203908080883136231653789532225059574181183842904076491331915⟩
    ⟨17977599699854553003202751055640811562272155904524481432922728946087161781888,
      18183236324732551648215148394616946982551501852119422662183580780280387813979⟩

/-- The reset state with `S` in `PT[0]`. -/
def withPointS : State := State.reset.setPointReg 0 (pointRegG2 pointS)

theorem withField_reads : (withField 3 1).readField 3 = some 1 := by decide +kernel
theorem withPair_reads : (withPair 254 2 1).readField 254 = some 2 ∧ (withPair 254 2 1).readField 255 = some 1 := by
  decide +kernel
theorem reset_reads_none : State.reset.readField 3 = none := by decide +kernel
theorem withPointS_reads : withPointS.pt[0]? = some (pointRegG2 pointS) := by decide +kernel
theorem withTag_tag (dst : List Byte) (h : tagOf (withTag dst) = dst := by decide +kernel) :
    tagOf (withTag dst) = dst := h
theorem withTag_message (dst : List Byte) : messageOf (withTag dst) = [] := rfl

/-- A field of the next state, if there is one. -/
def after {α : Type} (o : Host.Outcome State Fault Refusal) (field : State → α) : Option α :=
  match o with
  | .next t => some (field t)
  | .fault _ => none
  | .refused _ => none

/-- A field of the state after two steps. -/
def afterTwo {α : Type} (s : State) (field : State → α) : Option α :=
  match step s with
  | .next t => after (step t) field
  | .fault _ => none
  | .refused _ => none

/-- `STATUS`, `ERR`, `ERRINFO` and `CMD`, as the tables of spec/95_test_vectors.md list them. -/
def faultRow (s : State) : Word × Byte × Word × Word := (statusWord s.status, s.err, s.errInfo, s.cmd)

/-! ### Vectors of the pure functions (spec/95_test_vectors.md, spec/97_curve_vectors.md) -/

/-- R260: SHA-256 of "abc". -/
theorem test_sha256_abc :
    os2ip (sha256 (textBytes "abc")) = 0xba7816bf8f01cfea414140de5dae2223b00361a396177a9cb410ff61f20015ad := by
  decide +kernel

/-- Vector X2: one block. -/
theorem test_expand_X2 :
    (expandXmd (textBytes "abc") tagDX 32).toOption.map os2ip =
      some 0xd8ccab23b5985ccea865c6c97b6e5b8350e794e603b4b97902f53a8a0d605615 := by decide +kernel

/-- Vector X1: three blocks. -/
theorem test_expand_X1 :
    (expandXmd (textBytes "abc") tagD1 96).toOption.map os2ip =
      some 0xbf20c96322151f579e7b215df0bf43ff8c8598bc1e63e0b9d20d2862c0450e6ea1bf59db9cc2a5e0f2553e6d92c7e23badf662a03e7f7c6b0f67242f7e5ea0ee557f9c7c994921f319b96f0d6bcce5824891ee50836852263700aadf8dcb57ee := by
  decide +kernel

/-- The field elements of vector V1. -/
def V1_u0 : Nat := 7951370986911800256774597109927097176311261202951929331835478768207980370345
def V1_u1 : Nat := 8293556689416303717881563281438712057465092967957999993252567763605862533321

/-- Vector V1, of the source. -/
theorem test_h2f_V1 : hashToField fieldP (textBytes "abc") tagD1 2 = .ok [V1_u0, V1_u1] := by decide +kernel

/-- Vectors M1-2 (candidate x2) and M1-half (a pole), with either root. -/
theorem test_map1_M1_2 : ∀ root : Bool,
    (svdwMapG1 (fqOpsBy fun _ => root) constTable 2).toOption =
      some (17381839927637071501056362437774011121691119445066277389064485038161894060682,
        21789543218268983059319487233665025740281924852318056688907715121470174155670) := by decide +kernel

theorem test_map1_M1_half : ∀ root : Bool,
    (svdwMapG1 (fqOpsBy fun _ => root) constTable ((fieldP + 1) / 2)).toOption =
      some (10944121435919637611123202872628637544348155578648911831344518947322613104291,
        4718603453640367770405249522358112449463417117041194427604452040985121683380) := by decide +kernel

/-- Vectors M2-0 (candidate x3) and M2-i (candidate x1, sign of `c1`), with either root. -/
theorem test_map2_M2_0 : ∀ root : Bool,
    (svdwMapG2 (fq2OpsBy fun _ => root) constTable ⟨0, 0⟩).toOption =
      some (⟨10499238450719652342378357227399831140106360636427411350395554762472100376474,
          6940174569119770192419592065569379906172001098655407502803841283667998553941⟩,
        ⟨19806355393382037816579263617074440827120892710708778621379218713139486732888,
          10476946714790400356420157609988818757268013353500587580718617947726761912003⟩) := by decide +kernel

theorem test_map2_M2_i : ∀ root : Bool,
    (svdwMapG2 (fq2OpsBy fun _ => root) constTable ⟨0, 1⟩).toOption =
      some (⟨19413256222598198683350224886300716989864775645351887659629748509905709190674,
          20519250113381501660027029508862925800781258522112112460488725065908186413396⟩,
        ⟨14015865602586201325627150303834331189490295701282789780912435046091576262601,
          17347341896292750784356902502340339587003861068816632433467810996193628526623⟩) := by decide +kernel

/-- Vector C1. -/
theorem test_psi_C1 :
    psiPoint constTable pointS =
      .affine ⟨7245354173957987170157417180598863694945864480385286940262067055774993537123,
          3670202438815869950189367295744661500700414224629575170938469458171105660327⟩
        ⟨4499274662928596780478634777895429885139608404706311416838639026625178917951,
          7180226766118522508950742985946765397852812516056314504851391650120011036029⟩ := by decide +kernel

/-- The point of vector V4, of the source. -/
def V4_point : Point Fq2 :=
  .affine ⟨10305213714312555419584685236164610766057227018997600762219755820581571775698,
      5140998983273781645596043003996621170933075714207210952317183701750931672829⟩
    ⟨12782657610222102886506935265351398708799194735435757564502179253917869011884,
      15746452850775091549966312821847336261590899319279618339578671846526379873840⟩

/-- Vector C2: the clearing inside vector V4. -/
theorem test_clrcof_C2 : clearCofactor fq2Ops constTable pointS = .ok V4_point := by decide +kernel

/-- Vector O3, before the final check. -/
theorem test_encg2_O3 :
    (clearedEncodeG2 (fq2OpsBy fun _ => false) constTable (textBytes "abc") tagD2NU).toOption =
      some (.affine ⟨7290337032722028742894312496454770035215478865307401781131202361899492945880,
          18605632812439984129247614998320701910992924251662446522071513278020164236983⟩
        ⟨18565926515830203734257806009639634340842708214357641080049757818108383758101,
          21026435153745179081072575128771379049563093023676092614267505429710510687357⟩) := by decide +kernel

/-! ### One step on a small state -/

/-- Section 5: `SGN0 F255` on 1 gives 1. -/
theorem test_sgn0_odd : after (exec (.sgn0 255) (withField 255 1)) (fun t => statusWord t.status) = some 2#32 := by
  decide +kernel

/-- Section 5: `SGN0 F3` on `P - 1` gives 0. -/
theorem test_sgn0_even :
    after (exec (.sgn0 3) (withField 3 (fieldP - 1))) (fun t => statusWord t.status) = some 0#32 := by decide +kernel

/-- Section 5: `(2, 1)` gives 0, `(0, 1)` gives 1. -/
theorem test_sgn0e_even_c0 :
    after (exec (.sgn0e 4) (withPair 4 2 1)) (fun t => statusWord t.status) = some 0#32 := by decide +kernel
theorem test_sgn0e_zero_c0 :
    after (exec (.sgn0e 4) (withPair 4 0 1)) (fun t => statusWord t.status) = some 2#32 := by decide +kernel

/-- Vector G3, through the step: there is no `F[256]`. -/
theorem test_step_G3 :
    after (step ((withField 255 1).withFetchWord 32 0x0400ff00)) faultRow =
      some (0x1#32, 0x07#8, 0x0400ff00#32, 0x0400ff00#32) := by decide +kernel

/-- Vector G5, through the step: a must-be-zero field is not zero. -/
theorem test_step_G5 :
    after (step ((withField 3 1).withFetchWord 32 0x03000301)) faultRow =
      some (0x1#32, 0x08#8, 0x03000301#32, 0x03000301#32) := by decide +kernel

/-- Vector T1, steps 2 and 4: a second write to `CMD` is ignored in the fault state. -/
theorem test_step_T1_sticky :
    afterTwo (withHost [.writeCmd 0x05100000, .writeCmd 0]) faultRow =
      some (0x1#32, 0x07#8, 0x05100000#32, 0x05100000#32) := by decide +kernel

/-- Vector T1, step 8: the reset. -/
theorem test_step_T1_reset :
    after (step (faultedWithHost [.writeCtrl 1])) faultRow = some (0#32, 0#8, 0#32, 0#32) := by decide +kernel

/-- Vector O5 on the empty message: the tag is too long. -/
theorem test_hashg1_O5 :
    after (exec (.hashg1 0) { State.reset with dstLen := 256 }) (fun t => t.err) = some 0x02#8 :=
  congrArg (fun o => after o fun t => t.err) <| exec_of_error (i := .hashg1 0) (c := .cfgDstTooLong) <| by
    simp [runCommand, runHashg1, except_bind_error, checkHashOperands_error, State.reset]

/-! ### Values of concrete runs

The field elements of the empty message under tag D1 are vector S2, the mapped points M1-e0 and M1-e1; under tag D2 the
mapped points are M2-e0 and M2-e1 and the hash is vector O2. -/

/-- `F[0]` of vector S2. -/
def S2_0 : Nat := 21498498956904532351723378912032873852253513037650692457560050969314502748597

/-- `F[1]` of vector S2. -/
def S2_1 : Nat := 3106428082009635406807032300288584059640244342225966151234406580587112112014

/-- The pole of vector M2-s. -/
def M2_s : Fq2 := ⟨6522986772542984542181201098928042101271211676799153813947561527442295110922,
  7238107908531657737830469993684217640962042703142766184748324510739673750181⟩

/-- The points of vectors M1-e0 and M1-e1. -/
def M1_e0 : Nat × Nat := (6453599284581821454252898427469570073430843606970728650145294868078481709202,
  18995581315822946008285423533984677217009732542182181378734620089887646003813)
def M1_e1 : Nat × Nat := (11407741707599100220112369632304941265828026024296299145123573579681208493329,
  10936143794657572576642578819087135925019845836839797797601194413922673415908)

/-- The field elements of the empty message under tag D2, for `HASHG2`. -/
def O2_u0 : Nat := 20137808912851667062035976856602818236747905495088974922724698435521868288711
def O2_u1 : Nat := 10914081414532318428788371952655185933658856500524056428677634349002436771005
def O2_u2 : Nat := 12749938097459350112373927900718891214846269031101262698563655023620154602803
def O2_u3 : Nat := 15989048767193036968813394630414887900446878286238597875452219988350848861115

/-- The points of vectors M2-e0 and M2-e1. -/
def M2_e0 : Fq2 × Fq2 :=
  (⟨3219678904083239153611991099639067526519011707800859383515749198133307861797,
    4840632783943267929460355417792673968117748748591257346027989099060040694328⟩,
  ⟨20094105964899993986891012649404226446948327024003820779703132455640266705583,
    7793772943923813372180506775375566751777576354850841676616264558060697214993⟩)
def M2_e1 : Fq2 × Fq2 :=
  (⟨1638946587108629780181372034098582762311394309721031341668719698485338651653,
    12638358565844337031624411847193615438793160093107336650426793883735338280940⟩,
  ⟨15647472230264241572312420284434333085778908811609588640626490166644321670789,
    2261048731520970935907951996800890376329202439460795694957245871515445864198⟩)

/-- The point of vector O2. -/
def O2_point : Point Fq2 :=
  .affine ⟨7947280525355502288245767042139433332619084425813891508679326584140902765312,
    10530141512348869141982713319207053343182583313484148698392330696376288318261⟩
  ⟨2079515028849057274649333561166551431956364880890028320215862191123161285080,
    20169147323092870078028771345234445157617856249189458168875341276090072581620⟩

/-- The field elements of the empty message under tag D2NU, for `ENCG2`. -/
def NU_u0 : Nat := 2525116537132793291253734721249636640218528457698388513687947577355757860533
def NU_u1 : Nat := 2248767979695716605865031740677282651586481749423102987128051057933003441278

/-- The mapped point and the cleared point of the empty message under tag D2NU. -/
def NU_mapped : Fq2 × Fq2 :=
  (⟨12211161265901842854951364961871615844583605426235208760711738772182730410742,
    11611542048311695857790847346522544179168664798300763598083186445702733378141⟩,
  ⟨14025002248802245060058933065096414282841531982875806507125704183716528426841,
    21016085879934548935374911522759679152883674845950013025579026469220618764023⟩)
def NU_point : Point Fq2 :=
  .affine ⟨2222545202255207121622252341720884612662004487208664408317925491033383016781,
    3167015911722190124689644160541231412539898594125261078778351544051685395067⟩
  ⟨20450065928984038040963910334909877834263207751235246619699259708122680403961,
    4743914079645712786687283872900604142971897405422186449887746314931053675188⟩

/-! ### Witnesses: concrete values that meet the hypotheses of each statement

Every statement is listed here whose hypotheses are more than bounds on a number. `witness_<Name>` is for
`Obligations.<Name>`. -/

theorem witness_DecodeInvertsEncode : (Instr.map2 3 254).wf = true ∧ (Instr.expand 65535).wf = true := by decide

theorem witness_EncodeInvertsDecode : decode 0x0603fe00#32 = .ok (.map2 3 254) := by decide

/-- Each form at the largest operands its clause admits. -/
theorem witness_DecodeReadsAssemblerWords :
    decode (BitVec.ofNat 32 (0x01000000 + 65535)) = .ok (.expand 65535) ∧
    decode (BitVec.ofNat 32 (0x02000000 + 255 * 65536 + 255)) = .ok (.h2f 255 255) ∧
    decode (BitVec.ofNat 32 (0x03000000 + 255 * 256)) = .ok (.sgn0 255) ∧
    decode (BitVec.ofNat 32 (0x04000000 + 255 * 256)) = .ok (.sgn0e 255) ∧
    decode (BitVec.ofNat 32 (0x05000000 + 255 * 65536 + 255 * 256)) = .ok (.map1 255 255) ∧
    decode (BitVec.ofNat 32 (0x06000000 + 255 * 65536 + 255 * 256)) = .ok (.map2 255 255) ∧
    decode (BitVec.ofNat 32 (0x07000000 + 255 * 65536 + 255 * 256)) = .ok (.psi 255 255) ∧
    decode (BitVec.ofNat 32 (0x08000000 + 255 * 65536 + 255 * 256)) = .ok (.clrcof 255 255) ∧
    decode (BitVec.ofNat 32 (0x09000000 + 255 * 65536)) = .ok (.hashg1 255) ∧
    decode (BitVec.ofNat 32 (0x0A000000 + 255 * 65536)) = .ok (.hashg2 255) ∧
    decode (BitVec.ofNat 32 (0x0B000000 + 255 * 65536)) = .ok (.encg2 255) := by decide

theorem witness_OpcodeRowsSelectOneCommand :
    ∃ r, r ∈ opcodeRows ∧ r.selects 0x0603fe00#32 = true ∧ mnemonicOf (.map2 3 254) = r.mnemonic :=
  ⟨⟨"MAP2", 0xFF0000FF#32, 0x06000000#32⟩, by decide, by decide, by decide⟩

/-- The three cases of the issue of a command. -/
theorem witness_StepIssuesCommand :
    ((faultedWithHost [.writeCmd 0]).pending = [.writeCmd 0] ∧
      (faultedWithHost [.writeCmd 0]).status.fault = true) ∧
    ((withHost [.writeCmd 0x03000300]).pending = [.writeCmd 0x03000300] ∧
      (withHost [.writeCmd 0x03000300]).status.fault = false ∧ decode 0x03000300#32 = .ok (.sgn0 3)) ∧
    ((withHost [.writeCmd 0]).status.fault = false ∧ decode 0#32 = .error (.reservedOpcode 0)) :=
  ⟨⟨rfl, rfl⟩, ⟨rfl, rfl, by decide⟩, rfl, by decide⟩

theorem witness_UnselectedWordRaisesIllegalCmd :
    ((withHost [.writeCmd 0x0c000000]).pending = [.writeCmd 0x0c000000] ∧
      (withHost [.writeCmd 0x0c000000]).status.fault = false ∧
      (∀ r ∈ opcodeRows, r.selects 0x0c000000#32 = false) ∧ 0x0C ≤ opField 0x0c000000#32) ∧
    opField 0x00ffffff#32 = 0 ∧ decode 0x05000001#32 = .error (.mustBeZero 5) :=
  ⟨⟨rfl, rfl, by decide, by decide⟩, by decide, by decide⟩

theorem witness_IdleBlockKeepsState : State.reset.pending = [] := rfl

theorem witness_HostReadsHaveNoSideEffect :
    (withHost [.readF 3]).pending = [.readF 3] ∧ (HostEvent.readF 3).isRead = true ∧
      ∃ t, step (withHost [.readF 3]) = .next t := ⟨rfl, rfl, _, rfl⟩

theorem witness_BufferByteReadsBackLastWrite :
    (withHost [.writeDst 254 7, .readDst 254]).pending = [.writeDst 254 7, .readDst 254] ∧
    (withHost [.writeMsg 0 7]).pending = [.writeMsg 0 7] ∧ (withHost [.readMsg 0]).pending = [.readMsg 0] ∧
    (({ withHost [.readXout 8159] with xoutLen := 8160 } : State).pending = [.readXout 8159] ∧
      8159 < ({ withHost [.readXout 8159] with xoutLen := 8160 } : State).xoutLen.toNat) :=
  ⟨rfl, rfl, rfl, rfl, by decide⟩

theorem witness_InputBytesKeptUntilWrittenOrReset :
    (withHost [.writeDst 3 7]).pending = [.writeDst 3 7] ∧ (HostEvent.writeDst 3 7).isReset = false ∧
      (∃ t, step (withHost [.writeDst 3 7]) = .next t) ∧ (∀ b, HostEvent.writeDst 3 7 ≠ .writeMsg 3 b) ∧
      ∀ b, HostEvent.writeDst 3 7 ≠ .writeDst 4 b :=
  ⟨rfl, rfl, ⟨_, rfl⟩, by simp, by simp⟩

theorem witness_HostFieldWriteStoresOrInvalidates :
    ((withHost [.writeF 255 (BitVec.ofNat 256 (fieldP - 1))]).pending =
        [.writeF 255 (BitVec.ofNat 256 (fieldP - 1))] ∧
      (BitVec.ofNat 256 (fieldP - 1)).toNat < fieldP) ∧
    ((withHost [.writeF 255 (BitVec.ofNat 256 fieldP)]).pending = [.writeF 255 (BitVec.ofNat 256 fieldP)] ∧
      fieldP ≤ (BitVec.ofNat 256 fieldP).toNat) :=
  ⟨⟨rfl, by decide +kernel⟩, rfl, by decide +kernel⟩

theorem witness_HostPointWriteSetsValidWhenWellFormed :
    (withHost [.writePt 15 .g1 false 1 0 2 0]).pending = [.writePt 15 .g1 false 1 0 2 0] := rfl

theorem witness_HostRegisterReadReturnsHeldValue :
    (({ withField 255 1 with pending := [.readF 255] } : State).pending = [.readF 255] ∧
      ({ withField 255 1 with pending := [.readF 255] } : State).f[255]? = some ⟨true, 1⟩) ∧
    (({ withPointS with pending := [.readPt 0] } : State).pending = [.readPt 0] ∧
      ({ withPointS with pending := [.readPt 0] } : State).pt[0]? = some (pointRegG2 pointS)) :=
  ⟨⟨rfl, by decide +kernel⟩, rfl, withPointS_reads⟩

theorem witness_OnlyAbsentAccessesAreRefused :
    ((withHost [.readXout 8160]).pending = [.readXout 8160] ∧ (HostEvent.readXout 8160).isAbsent = true) ∧
    ((withHost [.readXout 8159]).pending = [.readXout 8159] ∧ (HostEvent.readXout 8159).isAbsent = false) :=
  ⟨⟨rfl, rfl⟩, rfl, rfl⟩

theorem witness_ReadOnlyRegisterWritesIgnored :
    (withHost [.writeErr 7]).pending = [.writeErr 7] ∧ ∃ w, HostEvent.writeErr 7 = .writeErr w := ⟨rfl, 7, rfl⟩

theorem witness_PlainRegisterAccess :
    (withHost [.readErr]).pending = [.readErr] ∧ (withHost [.writeDstLen 65535]).pending = [.writeDstLen 65535] :=
  ⟨rfl, rfl⟩

theorem witness_CtrlBitZeroResets :
    ((faultedWithHost [.writeCtrl 1]).pending = [.writeCtrl 1] ∧ (1#32).getLsbD 0 = true) ∧
    ((faultedWithHost [.writeCtrl 2]).pending = [.writeCtrl 2] ∧ (2#32).getLsbD 0 = false) :=
  ⟨⟨rfl, by decide⟩, rfl, by decide⟩

theorem witness_StatusReadShowsFaultAndSign : (faultedWithHost [.readStatus]).pending = [.readStatus] := rfl

theorem witness_ResetLeavesResetValues :
    (faultedWithHost [.assertRst]).pending = [.assertRst] ∧ HostEvent.assertRst.isReset = true := ⟨rfl, rfl⟩

theorem witness_OnlyResetLeavesFaultState :
    ∃ t, step (faultedWithHost [.assertRst]) = .next t ∧
      (faultedWithHost [.assertRst]).status.fault = true ∧ t.status.fault = false := ⟨_, rfl, rfl, rfl⟩

/-- A state with a valid register, a valid point and a pending read that meets the invariant. -/
theorem witness_StepKeepsInvariant :
    ∃ s t : State, s.Inv ∧ s.pending = [.readF 3] ∧ step s = .next t := by
  refine ⟨{ withField 3 1 with pending := [.readF 3] }, _, ⟨rfl, ?_, ?_, ?_, ?_⟩, rfl, rfl⟩
  · intro k r h hv
    simp only [withField, State.writeField, State.setFieldReg, State.reset, Vector.getElem?_setIfInBounds] at h
    split at h
    · split at h
      · cases h
        exact (by decide +kernel : (BitVec.ofNat 256 1).toNat < fieldP)
      · cases h
    · rw [Vector.getElem?_ofFn] at h
      split at h
      · cases h
        cases hv
      · cases h
  · intro k r h hv
    simp only [withField, State.writeField, State.setFieldReg, State.reset, Vector.getElem?_ofFn] at h
    split at h
    · cases h
      cases hv
    · cases h
  · refine ⟨wf_emptyMemory _ _, wf_emptyMemory _ _, wf_emptyMemory _ _, by decide, fun j hj => ?_⟩
    exact absurd hj (Nat.not_lt_zero j)
  · exact ⟨fun _ => ⟨rfl, rfl⟩, fun h => by cases h⟩

/-- `SGN0 F3` right after reset enters the fault. -/
theorem exec_sgn0_reset : exec (.sgn0 3) State.reset = .next (raiseFault .operand State.reset) :=
  exec_of_error <| by simp [runCommand, runSgn0, except_bind_error, fieldOperand_error, reset_reads_none]

theorem witness_FaultEntryWritesOnlyFaultRegisters :
    ∃ t, exec (.sgn0 3) State.reset = .next t ∧ State.reset.status.fault = false ∧ t.status.fault = true :=
  ⟨_, exec_sgn0_reset, rfl, rfl⟩

theorem witness_CommandsRaiseOnlyTheirCauses :
    ∃ t, exec (.sgn0 3) State.reset = .next t ∧ State.reset.status.fault = false ∧ t.status.fault = true :=
  ⟨_, exec_sgn0_reset, rfl, rfl⟩

/-- `SGN0 F3` on 1 completes. -/
theorem exec_sgn0_one : exec (.sgn0 3) (withField 3 1) = .next ((withField 3 1).writeSgn true) :=
  exec_of_ok <| runSgn0_ok.mpr ⟨1, withField_reads, rfl⟩

theorem witness_CommandsWriteOnlyTheirDestinations :
    ∃ t, exec (.sgn0 3) (withField 3 1) = .next t ∧ (Instr.sgn0 3).writesXout = false ∧
      (Instr.map1 0 3).writesSgn = false ∧ t.status.fault = (withField 3 1).status.fault ∧
      (withField 3 1).status.fault = false := ⟨_, exec_sgn0_one, by decide, by decide, rfl, rfl⟩

theorem same_K : (withField 3 1).k = ((withField 3 1).writeField 5 9).k := by simp [State.writeField]
theorem same_F3 : (withField 3 1).readField 3 = ((withField 3 1).writeField 5 9).readField 3 := by decide +kernel
theorem differ_F5 : (withField 3 1).readField 5 ≠ ((withField 3 1).writeField 5 9).readField 5 := by decide +kernel

/-- Two states that differ in `F[5]` and agree on what `SGN0 F3` reads. -/
theorem witness_ResultDependsOnlyOnWhatIsRead :
    ∃ t₁ t₂, sameReads (.sgn0 3) (withField 3 1) ((withField 3 1).writeField 5 9) ∧
      (withField 3 1).readField 5 ≠ ((withField 3 1).writeField 5 9).readField 5 ∧
      (withField 3 1).status.fault = false ∧ ((withField 3 1).writeField 5 9).status.fault = false ∧
      exec (.sgn0 3) (withField 3 1) = .next t₁ ∧
      exec (.sgn0 3) ((withField 3 1).writeField 5 9) = .next t₂ ∧ t₁.status.fault = false :=
  ⟨(withField 3 1).writeSgn true, ((withField 3 1).writeField 5 9).writeSgn true, ⟨same_K, same_F3⟩, differ_F5, rfl, rfl,
    exec_sgn0_one, exec_of_ok (runSgn0_ok.mpr ⟨1, same_F3.symm.trans withField_reads, rfl⟩), rfl⟩

/-- Each clause at a boundary. -/
theorem witness_PointCommandsTrapOnOperands :
    ((15 < 16) ∧ State.reset.readField 3 = none) ∧ ((255 ≤ 255) ∧ (withField 3 1).readField 4 = none) ∧
    (∃ r, State.reset.pt[15]? = some r ∧ r.valid = false) ∧
    (∃ r, (State.reset.setPointReg 2 (pointRegG1 (.affine 1 2))).pt[2]? = some r ∧ r.grp = .g1) ∧
    255 < ({ State.reset with dstLen := 256 } : State).dstLen.toNat :=
  ⟨⟨by decide, reset_reads_none⟩, ⟨by decide, by decide +kernel⟩,
    ⟨emptyPointReg 0 15, by simp [State.reset], rfl⟩, ⟨pointRegG1 (.affine 1 2), by decide +kernel, rfl⟩,
    by decide⟩

theorem witness_ExpandCompletes :
    (withTag tagDX).msgLen.toNat ≤ Config.msgMax.toNat ∧ 8160 ≤ 8160 ∧ (withTag tagDX).dstLen.toNat ≤ 255 :=
  ⟨Nat.zero_le _, Nat.le_refl _, by decide +kernel⟩

theorem witness_ExpandFaultsInOrder :
    8160 < 8161 ∧ 255 < ({ State.reset with dstLen := 256 } : State).dstLen.toNat := by decide

theorem witness_ExpansionIsChainedDigests : ∃ out, expandXmd (textBytes "abc") tagDX 33 = .ok out :=
  ⟨_, expandXmd_ok.mpr ⟨by decide, by decide +kernel, rfl⟩⟩

theorem witness_H2fCompletes :
    (withTag tagD1).k = constTable ∧ 86 + 170 ≤ 256 ∧ (withTag tagD1).msgLen.toNat ≤ Config.msgMax.toNat ∧
      170 ≤ 170 ∧ (withTag tagD1).dstLen.toNat ≤ 255 :=
  ⟨rfl, by decide, Nat.zero_le _, by decide, by decide +kernel⟩

theorem witness_H2fFaultsInOrder :
    256 < 200 + 100 ∧ 170 < 171 ∧ 255 < ({ State.reset with dstLen := 256 } : State).dstLen.toNat := by decide

/-- The bounds of the tag-using commands hold in a state with a tag and the empty message. -/
theorem withTag_bounds {dst : List Byte} (h : dst.length ≤ 255) :
    (withTag dst).msgLen.toNat ≤ Config.msgMax.toNat ∧ (withTag dst).dstLen.toNat ≤ 255 := by
  refine ⟨Nat.zero_le _, ?_⟩
  simp only [withTag, BitVec.toNat_ofNat]
  omega

theorem tag_lengths : tagD1.length ≤ 255 ∧ tagD2.length ≤ 255 ∧ tagD2NU.length ≤ 255 := by decide +kernel

/-- The field elements of the empty message under tag D1: vector S2. -/
theorem hashToField_S2 :
    hashToField fieldP [] tagD1 2 = .ok [S2_0, S2_1] := by decide +kernel

/-- The state after `H2F F0, 2` on the empty message under tag D1. -/
def afterH2f : State := (withTag tagD1).writeFields 0 [S2_0, S2_1]

theorem exec_h2f_S2 : exec (.h2f 0 2) (withTag tagD1) = .next afterH2f :=
  exec_of_ok <| runH2f_ok.mpr ⟨by decide, (withTag_bounds tag_lengths.1).1, by decide, (withTag_bounds tag_lengths.1).2,
    _, by rw [withTag_message, withTag_tag tagD1]; exact hashToField_S2, rfl⟩

theorem witness_H2fOutputsCanonicalAndDetermined :
    (withTag tagD1).k = constTable ∧ (withTag tagD1).status.fault = false ∧
      exec (.h2f 0 2) (withTag tagD1) = .next afterH2f ∧ afterH2f.status.fault = false := ⟨rfl, rfl, exec_h2f_S2, rfl⟩

theorem witness_Sgn0Completes : (withField 3 1).readField 3 = some 1 ∧ State.reset.readField 3 = none :=
  ⟨withField_reads, reset_reads_none⟩

theorem witness_Sgn0eCompletes :
    ((withPair 254 2 1).readField 254 = some 2 ∧ (withPair 254 2 1).readField 255 = some 1) ∧ 255 ≤ 255 :=
  ⟨withPair_reads, Nat.le_refl _⟩

theorem witness_NegationFlipsSign :
    (1 < fieldP ∧ 1 ≠ 0) ∧ canonicalFq2 ⟨0, fieldP - 1⟩ ∧ (⟨0, fieldP - 1⟩ : Fq2) ≠ ⟨0, 0⟩ := by
  unfold canonicalFq2
  decide +kernel

theorem witness_Map1Completes :
    (withField 3 1).k = constTable ∧ 15 ≤ 15 ∧ (withField 3 1).readField 3 = some 1 ∧ 1 < fieldP :=
  ⟨rfl, by decide, withField_reads, by decide +kernel⟩

theorem witness_Map2Completes :
    (withPair 254 2 1).k = constTable ∧ 15 ≤ 15 ∧ 254 ≤ 254 ∧ (withPair 254 2 1).readField 254 = some 2 ∧
      (withPair 254 2 1).readField 255 = some 1 ∧ canonicalFq2 ⟨2, 1⟩ := by
  unfold canonicalFq2
  exact ⟨rfl, by decide, by decide, withPair_reads.1, withPair_reads.2, by decide +kernel⟩

/-- Each outcome of the map occurs: an answer; no square, over a dictionary whose test is never true; no root, over one
whose square root has none. -/
theorem witness_MapTakesFirstSquareCandidate :
    (∃ xy, svdwMap (fqOpsBy fun _ => false) (mapConstsG1 constTable) .g1 2 = .ok xy) ∧
    svdwMap { fqOpsBy (fun _ => false) with isSquare := fun _ => false } (mapConstsG1 constTable) .g1 2 =
      .error .intNoSquare ∧
    svdwMap { fqOpsBy (fun _ => false) with sqrt := fun _ => none } (mapConstsG1 constTable) .g1 2 =
      .error .intSqrtFailed ∧
    svdwMap { fq2OpsBy (fun _ => false) with isSquare := fun _ => false } (mapConstsG2 constTable) .g2 ⟨0, 1⟩ =
      .error .intNoSquare ∧
    svdwMap { fq2OpsBy (fun _ => false) with sqrt := fun _ => none } (mapConstsG2 constTable) .g2 ⟨0, 1⟩ =
      .error .intSqrtFailed :=
  ⟨⟨(17381839927637071501056362437774011121691119445066277389064485038161894060682,
      21789543218268983059319487233665025740281924852318056688907715121470174155670), by decide +kernel⟩,
    by decide +kernel, by decide +kernel, by decide +kernel, by decide +kernel⟩

/-- Vectors M1-half and M2-s. -/
theorem witness_MapCandidatesAtPolesAndZero :
    fqMul (mapTv1 fqOps (mapConstsG1 constTable) ((fieldP + 1) / 2))
      (mapTv2 fqOps (mapConstsG1 constTable) ((fieldP + 1) / 2)) = 0 ∧
    fq2Mul (mapTv1 fq2Ops (mapConstsG2 constTable) M2_s) (mapTv2 fq2Ops (mapConstsG2 constTable) M2_s) = ⟨0, 0⟩ := by
  decide +kernel

theorem witness_PsiCompletes :
    withPointS.k = constTable ∧ 15 ≤ 15 ∧ withPointS.pt[0]? = some (pointRegG2 pointS) ∧
      (pointRegG2 pointS).valid = true ∧ (pointRegG2 pointS).grp = .g2 ∧
      (pointRegG2 pointS).wellFormed constTable = true :=
  ⟨rfl, by decide, withPointS_reads, rfl, rfl, by decide +kernel⟩

theorem witness_ClrcofCompletes :
    withPointS.k = constTable ∧ 15 ≤ 15 ∧ withPointS.pt[0]? = some (pointRegG2 pointS) ∧
      (pointRegG2 pointS).valid = true ∧ (pointRegG2 pointS).grp = .g2 ∧
      (pointRegG2 pointS).wellFormed constTable = true := witness_PsiCompletes

theorem witness_Hashg1Completes :
    (withTag tagD1).k = constTable ∧ 15 ≤ 15 ∧ (withTag tagD1).msgLen.toNat ≤ Config.msgMax.toNat ∧
      (withTag tagD1).dstLen.toNat ≤ 255 := ⟨rfl, by decide, withTag_bounds tag_lengths.1⟩

theorem witness_G2HashesReachSubgroupCheck :
    ((withTag tagD2).k = constTable ∧ 15 ≤ 15 ∧ (withTag tagD2).msgLen.toNat ≤ Config.msgMax.toNat ∧
      (withTag tagD2).dstLen.toNat ≤ 255) ∧
    ((withTag tagD2NU).k = constTable ∧ 15 ≤ 15 ∧ (withTag tagD2NU).msgLen.toNat ≤ Config.msgMax.toNat ∧
      (withTag tagD2NU).dstLen.toNat ≤ 255) :=
  ⟨⟨rfl, by decide, withTag_bounds tag_lengths.2.1⟩, rfl, by decide, withTag_bounds tag_lengths.2.2⟩

/-- The map uses the choice of a root for one element only, so it answers as under one of the two constant choices. -/
theorem selectCandidate_choice1 (ch ch' : Nat → Bool) (b : Nat) (x : MapCandidates Nat) :
    selectCandidate (fqOpsBy ch) b x = selectCandidate (fqOpsBy ch') b x := by
  simp only [selectCandidate, curveRhs, fqOpsBy]
  rfl

theorem mapCandidates_choice1 (ch ch' : Nat → Bool) (c : MapConsts Nat) (u : Nat) :
    mapCandidates (fqOpsBy ch) c u = mapCandidates (fqOpsBy ch') c u := by
  simp only [mapCandidates, mapT, mapTv1, mapTv2, mapTv3, mapTv4, fqOpsBy]

theorem svdwMapG1_choice (choice : Nat → Bool) (k : Consts) (u : Nat) :
    ∃ b : Bool, svdwMapG1 (fqOpsBy choice) k u = svdwMapG1 (fqOpsBy fun _ => b) k u := by
  unfold svdwMapG1 svdwMap
  simp only [fun b : Bool => mapCandidates_choice1 (fun _ => b) choice,
    fun b : Bool => selectCandidate_choice1 (fun _ => b) choice]
  cases selectCandidate (fqOpsBy choice) (mapConstsG1 k).b (mapCandidates (fqOpsBy choice) (mapConstsG1 k) u) with
  | error e => exact ⟨false, rfl⟩
  | ok x =>
    refine ⟨choice (curveRhs (fqOpsBy choice) (mapConstsG1 k).b x), ?_⟩
    simp only [liftCandidate, fqOpsBy, fqSqrtBy, matchSign, curveRhs, onCurve]
    rfl

theorem selectCandidate_choice2 (ch ch' : Fq2 → Bool) (b : Fq2) (x : MapCandidates Fq2) :
    selectCandidate (fq2OpsBy ch) b x = selectCandidate (fq2OpsBy ch') b x := by
  simp only [selectCandidate, curveRhs, fq2OpsBy]
  rfl

theorem mapCandidates_choice2 (ch ch' : Fq2 → Bool) (c : MapConsts Fq2) (u : Fq2) :
    mapCandidates (fq2OpsBy ch) c u = mapCandidates (fq2OpsBy ch') c u := by
  simp only [mapCandidates, mapT, mapTv1, mapTv2, mapTv3, mapTv4, fq2OpsBy]

theorem svdwMapG2_choice (choice : Fq2 → Bool) (k : Consts) (u : Fq2) :
    ∃ b : Bool, svdwMapG2 (fq2OpsBy choice) k u = svdwMapG2 (fq2OpsBy fun _ => b) k u := by
  unfold svdwMapG2 svdwMap
  simp only [fun b : Bool => mapCandidates_choice2 (fun _ => b) choice,
    fun b : Bool => selectCandidate_choice2 (fun _ => b) choice]
  cases selectCandidate (fq2OpsBy choice) (mapConstsG2 k).b (mapCandidates (fq2OpsBy choice) (mapConstsG2 k) u) with
  | error e => exact ⟨false, rfl⟩
  | ok x =>
    refine ⟨choice (curveRhs (fq2OpsBy choice) (mapConstsG2 k).b x), ?_⟩
    simp only [liftCandidate, fq2OpsBy, fq2SqrtBy, matchSign, curveRhs, onCurve]
    rfl

theorem map1_of_both {k : Consts} {u : Nat} {xy : Nat × Nat}
    (h : ∀ b : Bool, svdwMapG1 (fqOpsBy fun _ => b) k u = .ok xy) : svdwMapG1 fqOps k u = .ok xy := by
  obtain ⟨b, hb⟩ := svdwMapG1_choice Config.fqRootChoice k u
  exact hb.trans (h b)

theorem map2_of_both {k : Consts} {u : Fq2} {xy : Fq2 × Fq2}
    (h : ∀ b : Bool, svdwMapG2 (fq2OpsBy fun _ => b) k u = .ok xy) : svdwMapG2 fq2Ops k u = .ok xy := by
  obtain ⟨b, hb⟩ := svdwMapG2_choice Config.fq2RootChoice k u
  exact hb.trans (h b)

theorem map_M1_e0 : svdwMapG1 fqOps constTable S2_0 = .ok M1_e0 := map1_of_both (by decide +kernel)
theorem map_M1_e1 : svdwMapG1 fqOps constTable S2_1 = .ok M1_e1 := map1_of_both (by decide +kernel)

/-- The point of vector V3, as the model adds it. -/
def V3_point : Point Nat := ptAdd fqOps (affineOf M1_e0) (affineOf M1_e1)

/-- Vector V3, of the source. -/
theorem test_hashg1_V3 :
    V3_point = .affine 4790658965958450548702669593570794336562317867247372723806336874591549759110
      1163238807669877429342450210709044731909255047583162173012265677391336920021 := by decide +kernel

theorem exec_hashg1_V3 : exec (.hashg1 3) (withTag tagD1) =
    .next ((withTag tagD1).setPointReg 3 (pointRegG1 V3_point)) :=
  exec_of_ok <| runHashg1_ok.mpr ⟨by decide, (withTag_bounds tag_lengths.1).1, (withTag_bounds tag_lengths.1).2, V3_point,
    by
      rw [withTag_message, withTag_tag tagD1]
      exact hashToG1_ok.mpr ⟨_, hashToField_S2, _, map_M1_e0, _, map_M1_e1, by decide +kernel, rfl⟩, rfl⟩

/-- The points of vectors M1-abc0 and M1-abc1. -/
def M1_abc0 : Nat × Nat := (9192524283969255398734814822241735402343760142215332184598869386265143635853,
  14750013374492649779039522357455217122947104756064249167130349093550158884161)
def M1_abc1 : Nat × Nat := (2219529064992744478098731193326567804904209297389738932911685687632211367327,
  1910726159786414357764375718946103460897900837832114831609513656424867805207)

theorem map_M1_abc0 : svdwMapG1 fqOps constTable V1_u0 = .ok M1_abc0 := map1_of_both (by decide +kernel)
theorem map_M1_abc1 : svdwMapG1 fqOps constTable V1_u1 = .ok M1_abc1 := map1_of_both (by decide +kernel)

/-- The point of vector V2, of the source. -/
def V2_point : Point Nat :=
  .affine 16267524812466668166267883771992486438338357688076900798565538061554532963281
    1844916233815282837483764409618609279507070495361570126601873459268232811805

/-- Vector V2, of the source: `HashToG1` of "abc". -/
theorem test_hashg1_V2 : hashToG1 fqOps constTable (textBytes "abc") tagD1 = .ok V2_point :=
  hashToG1_ok.mpr
    ⟨_, test_h2f_V1, _, map_M1_abc0, _, map_M1_abc1, by decide +kernel, by decide +kernel⟩

/-- The state after `H2F F0, 2` and `MAP1 P0, F0`. -/
def afterMap1 : State := afterH2f.setPointReg 0 (pointRegG1 (affineOf M1_e0))

theorem witness_HashG1SumsUnitPoints :
    ∃ s₃ t r₀ r₁, (withTag tagD1).k = constTable ∧ exec (.h2f 0 2) (withTag tagD1) = .next afterH2f ∧
      exec (.map1 0 0) afterH2f = .next afterMap1 ∧ exec (.map1 1 1) afterMap1 = .next s₃ ∧
      s₃.status.fault = false ∧ s₃.pt[0]? = some r₀ ∧ s₃.pt[1]? = some r₁ ∧
      exec (.hashg1 3) (withTag tagD1) = .next t ∧ t.status.fault = false := by
  refine ⟨afterMap1.setPointReg 1 (pointRegG1 (affineOf M1_e1)), _, pointRegG1 (affineOf M1_e0),
    pointRegG1 (affineOf M1_e1), rfl, exec_h2f_S2,
    exec_of_ok (runMap1_ok.mpr ⟨by decide, S2_0, by decide +kernel, _, map_M1_e0, rfl⟩),
    exec_of_ok (runMap1_ok.mpr ⟨by decide, S2_1, by decide +kernel, _, map_M1_e1, rfl⟩), rfl,
    ?_, ?_, exec_hashg1_V3, rfl⟩
  · decide +kernel
  · decide +kernel

/-- The field elements of "abc" under tag D2: vector S3. -/
def S3_0 : Nat := 15963713818282906360305918686195491545577210390832157279818305179904408824931
def S3_1 : Nat := 2166278439352519416731010325104738631510195416620895094682522641528929475020
def S3_2 : Nat := 12752967732566665017975022503761080419696068755373050496264700974774108086129
def S3_3 : Nat := 20655422394809824901799481664662586419100706577355794400212187554951433717414

/-- The points of vectors M2-abc0 and M2-abc1. -/
def M2_abc0 : Fq2 × Fq2 :=
  (⟨16872093352184426853297847012752141646605261411290781565485515569233955899058,
      20482288690411193526247554560661659739533735966007371008469181348051437821826⟩,
    ⟨427035866446275812154335387235552457760650543923113579505536211797911740485,
      14849552243024588631071292176876897701191437999604860450422231174965236442203⟩)
def M2_abc1 : Fq2 × Fq2 :=
  (⟨12193882055337081757241417044229479753659926309860257758224177044622322698984,
      10092155993942609715417531227866448864240630219985669320168414926220064901453⟩,
    ⟨21850450548984866542151665069165216760882062028063278212318726360439829725223,
      10197523149668572844555341938160230574503097016636734560718180396672437043430⟩)

theorem hashToField_S3 : hashToField fieldP (textBytes "abc") tagD2 4 = .ok [S3_0, S3_1, S3_2, S3_3] := by
  decide +kernel

theorem map_M2_abc0 : svdwMapG2 fq2Ops constTable ⟨S3_0, S3_1⟩ = .ok M2_abc0 := map2_of_both (by decide +kernel)
theorem map_M2_abc1 : svdwMapG2 fq2Ops constTable ⟨S3_2, S3_3⟩ = .ok M2_abc1 := map2_of_both (by decide +kernel)

theorem sum_V4 : pointS = ptAdd fq2Ops (affineOf M2_abc0) (affineOf M2_abc1) := by decide +kernel

theorem order_V4 : ptMul fq2Ops orderR V4_point = .inf := by decide +kernel

/-- Vector V4, of the source: `HashToG2` of "abc". -/
theorem test_hashg2_V4 : hashToG2 fq2Ops constTable (textBytes "abc") tagD2 = .ok V4_point := by
  refine hashToG2_ok.mpr ⟨?_, by decide +kernel, order_V4⟩
  simp only [clearedHashG2, sumMapsG2, except_bind_ok]
  refine ⟨_, hashToField_S3, _, ⟨_, map_M2_abc0, _, map_M2_abc1, rfl⟩, ?_⟩
  rw [← sum_V4]
  exact test_clrcof_C2

theorem map_M2_e0 : svdwMapG2 fq2Ops constTable ⟨O2_u0, O2_u1⟩ = .ok M2_e0 := map2_of_both (by decide +kernel)
theorem map_M2_e1 : svdwMapG2 fq2Ops constTable ⟨O2_u2, O2_u3⟩ = .ok M2_e1 := map2_of_both (by decide +kernel)

theorem hashToField_O2 : hashToField fieldP [] tagD2 4 = .ok [O2_u0, O2_u1, O2_u2, O2_u3] := by decide +kernel

theorem clear_O2 :
    clearCofactor fq2Ops constTable (ptAdd fq2Ops (affineOf M2_e0) (affineOf M2_e1)) = .ok O2_point := by
  decide +kernel

theorem order_O2 : ptMul fq2Ops orderR O2_point = .inf := by decide +kernel

theorem cleared_O2 : clearedHashG2 fq2Ops constTable [] tagD2 = .ok O2_point := by
  simp only [clearedHashG2, sumMapsG2, except_bind_ok]
  exact ⟨_, hashToField_O2, _, ⟨_, map_M2_e0, _, map_M2_e1, rfl⟩, clear_O2⟩

theorem witness_Hashg2Completes :
    0 ≤ 15 ∧ (withTag tagD2).msgLen.toNat ≤ Config.msgMax.toNat ∧ (withTag tagD2).dstLen.toNat ≤ 255 ∧
      hashToField (withTag tagD2).k.p (messageOf (withTag tagD2)) (tagOf (withTag tagD2)) 4 =
        .ok [O2_u0, O2_u1, O2_u2, O2_u3] ∧
      svdwMapG2 fq2Ops (withTag tagD2).k ⟨O2_u0, O2_u1⟩ = .ok (M2_e0.1, M2_e0.2) ∧
      svdwMapG2 fq2Ops (withTag tagD2).k ⟨O2_u2, O2_u3⟩ = .ok (M2_e1.1, M2_e1.2) ∧
      clearCofactor fq2Ops (withTag tagD2).k
        (ptAdd fq2Ops (.affine M2_e0.1 M2_e0.2) (.affine M2_e1.1 M2_e1.2)) = .ok O2_point ∧
      ptMul fq2Ops (withTag tagD2).k.rOrder O2_point = .inf :=
  ⟨by decide, (withTag_bounds tag_lengths.2.1).1, (withTag_bounds tag_lengths.2.1).2,
    by rw [withTag_message, withTag_tag tagD2]; exact hashToField_O2, map_M2_e0, map_M2_e1, clear_O2, order_O2⟩

/-- Vector O2: `HASHG2 P0` on the empty message under tag D2. -/
theorem test_hashg2_O2 : exec (.hashg2 0) (withTag tagD2) =
    .next ((withTag tagD2).setPointReg 0 (pointRegG2 O2_point)) := by
  have hb := withTag_bounds tag_lengths.2.1
  refine exec_of_ok (runHashg2_ok.mpr ⟨by decide, hb.1, hb.2, _, hashToG2_ok.mpr ⟨?_, by decide +kernel, order_O2⟩, rfl⟩)
  rw [withTag_message, withTag_tag tagD2]
  exact cleared_O2

theorem witness_G2HashResultsInSubgroup :
    ∃ t, (withTag tagD2).status.fault = false ∧ exec (.hashg2 0) (withTag tagD2) = .next t ∧
      t.status.fault = false := ⟨_, rfl, test_hashg2_O2, rfl⟩

theorem map_NU : svdwMapG2 fq2Ops constTable ⟨NU_u0, NU_u1⟩ = .ok NU_mapped := map2_of_both (by decide +kernel)

theorem hashToField_NU : hashToField fieldP [] tagD2NU 2 = .ok [NU_u0, NU_u1] := by decide +kernel

theorem clear_NU : clearCofactor fq2Ops constTable (affineOf NU_mapped) = .ok NU_point := by decide +kernel

theorem order_NU : ptMul fq2Ops orderR NU_point = .inf := by decide +kernel

theorem cleared_NU : clearedEncodeG2 fq2Ops constTable [] tagD2NU = .ok NU_point := by
  simp only [clearedEncodeG2, except_bind_ok]
  exact ⟨_, hashToField_NU, _, map_NU, clear_NU⟩

theorem witness_Encg2Completes :
    0 ≤ 15 ∧ (withTag tagD2NU).msgLen.toNat ≤ Config.msgMax.toNat ∧ (withTag tagD2NU).dstLen.toNat ≤ 255 ∧
      hashToField (withTag tagD2NU).k.p (messageOf (withTag tagD2NU)) (tagOf (withTag tagD2NU)) 2 =
        .ok [NU_u0, NU_u1] ∧
      svdwMapG2 fq2Ops (withTag tagD2NU).k ⟨NU_u0, NU_u1⟩ = .ok (NU_mapped.1, NU_mapped.2) ∧
      clearCofactor fq2Ops (withTag tagD2NU).k (.affine NU_mapped.1 NU_mapped.2) = .ok NU_point ∧
      ptMul fq2Ops (withTag tagD2NU).k.rOrder NU_point = .inf :=
  ⟨by decide, (withTag_bounds tag_lengths.2.2).1, (withTag_bounds tag_lengths.2.2).2,
    by rw [withTag_message, withTag_tag tagD2NU]; exact hashToField_NU, map_NU, clear_NU, order_NU⟩

theorem exec_encg2_NU : exec (.encg2 0) (withTag tagD2NU) =
    .next ((withTag tagD2NU).setPointReg 0 (pointRegG2 NU_point)) := by
  have hb := withTag_bounds tag_lengths.2.2
  refine exec_of_ok (runEncg2_ok.mpr ⟨by decide, hb.1, hb.2, _, encodeToG2_ok.mpr ⟨?_, by decide +kernel, order_NU⟩, rfl⟩)
  rw [withTag_message, withTag_tag tagD2NU]
  exact cleared_NU

/-- The states after `H2F F0, 2` and after `MAP2 P0, F0`. -/
def afterH2fNU : State := (withTag tagD2NU).writeFields 0 [NU_u0, NU_u1]
def afterMap2NU : State := afterH2fNU.setPointReg 0 (pointRegG2 (affineOf NU_mapped))

theorem witness_EncodeEqualsUnitSequence :
    ∃ s₃ t, (withTag tagD2NU).k = constTable ∧ exec (.h2f 0 2) (withTag tagD2NU) = .next afterH2fNU ∧
      exec (.map2 0 0) afterH2fNU = .next afterMap2NU ∧ exec (.clrcof 0 0) afterMap2NU = .next s₃ ∧
      s₃.status.fault = false ∧ exec (.encg2 0) (withTag tagD2NU) = .next t ∧ t.status.fault = false := by
  have hb := withTag_bounds tag_lengths.2.2
  refine ⟨_, _, rfl,
    exec_of_ok (runH2f_ok.mpr ⟨by decide, hb.1, by decide, hb.2, _,
      by rw [withTag_message, withTag_tag tagD2NU]; exact hashToField_NU, rfl⟩),
    exec_of_ok (runMap2_ok.mpr ⟨by decide, ⟨NU_u0, NU_u1⟩,
      pairOperand_ok.mpr ⟨by decide, by decide +kernel, by decide +kernel⟩, _, map_NU, rfl⟩),
    exec_of_ok (runClrcof_ok.mpr ⟨by decide, by decide, affineOf NU_mapped,
      pointOperandG2_ok.mpr ⟨pointRegG2 (affineOf NU_mapped), by decide +kernel, rfl, rfl, by decide +kernel⟩,
      _, clear_NU, rfl⟩), rfl, exec_encg2_NU, rfl⟩

theorem witness_FqInverseOrZero : 3 < fieldP ∧ 3 ≠ 0 ∧ fqMul 3 (fqInv0 3) = 1 := by decide +kernel

theorem witness_FqSquareTestFindsRoots : 2 < fieldP ∧ fqIsSquare 2 = true ∧ fqIsSquare 3 = false := by decide +kernel

theorem witness_FqRootMeetsContract :
    (2 < fieldP ∧ fqIsSquare 2 = true) ∧ (3 < fieldP ∧ fqIsSquare 3 = false) := by decide +kernel

theorem witness_Fq2InverseOrZero :
    canonicalFq2 ⟨9, 1⟩ ∧ (⟨9, 1⟩ : Fq2) ≠ ⟨0, 0⟩ ∧ fq2Mul ⟨9, 1⟩ (fq2Inv0 ⟨9, 1⟩) = ⟨1, 0⟩ := by
  unfold canonicalFq2
  decide +kernel

theorem witness_Fq2SquareTestFindsRoots : canonicalFq2 ⟨1, 1⟩ ∧ fq2IsSquare ⟨1, 1⟩ = true ∧ 3 < fieldP := by
  unfold canonicalFq2
  decide +kernel

theorem witness_Fq2RootMeetsContract :
    (canonicalFq2 ⟨1, 1⟩ ∧ fq2IsSquare ⟨1, 1⟩ = true) ∧ (canonicalFq2 ⟨1, 2⟩ ∧ fq2IsSquare ⟨1, 2⟩ = false) := by
  unfold canonicalFq2
  decide +kernel

theorem witness_PointSumStaysOnCurve :
    isPointG1 (.affine 1 2) ∧ isPointG1 (.affine M1_e0.1 M1_e0.2) ∧ isPointG2 pointS := by
  unfold isPointG1 isPointG2 pointS canonicalFq2
  decide +kernel

/-- A message whose bit length the padding can spell. -/
theorem witness_Sha256PadsToWholeBlocks : (textBytes "abc").length < 2 ^ 61 := by decide +kernel

end Sys2Proof.Tests
end

section
/-! SUPPORT. The step event by event: what each host event can do to the state, how a write to `CMD` can end, and the
lengths of the expander's strings (spec/20_memory.md R61, R62; spec/30_encoding.md R90). -/

namespace Sys2Proof.Machine

/-! ### The step, by its next event -/

/-- The step of a state with an event to come performs that event. -/
theorem step_of_pending {s : State} {e : HostEvent} {rest : List HostEvent} (h : s.pending = e :: rest) :
    step s = hostAccess e (s.takeEvent rest) := by
  simp only [step, stepHost, h]

/-- A write to `CTRL` with bit 0 set is a reset (R30). -/
theorem hostWriteCtrl_of_set {w : Word} (h : w.getLsbD 0 = true) (s : State) : hostWriteCtrl w s = softReset s :=
  if_pos h

/-- A write to `CTRL` with bit 0 clear does nothing (R30). -/
theorem hostWriteCtrl_of_clear {w : Word} (h : w.getLsbD 0 = false) (s : State) : hostWriteCtrl w s = s :=
  if_neg (by rw [h]; decide)

/-- Both reset events make the same step (R320). -/
theorem hostAccess_of_isReset {e : HostEvent} (h : e.isReset = true) (s : State) :
    hostAccess e s = .next (softReset s) := by
  cases e with
  | assertRst => rfl
  | writeCtrl w => exact congrArg Host.Outcome.next (hostWriteCtrl_of_set h s)
  | _ => cases h

/-- What an event that has a meaning does to the state in which it is performed: one case per kind of access (R62). -/
inductive HostEffect (s : State) : HostEvent → State → Prop where
  | read {e : HostEvent} (v : HostValue) : e.isRead = true → HostEffect s e { s with returned := v }
  | ignored {e : HostEvent} : HostEffect s e s
  | reset {e : HostEvent} : e.isReset = true → HostEffect s e (softReset s)
  | command {w : Word} {t : State} : issue w s = .next t → HostEffect s (.writeCmd w) t
  | msgLen (v : Word) : HostEffect s (.writeMsgLen v) { s with msgLen := v }
  | dstLen (v : Half) : HostEffect s (.writeDstLen v) { s with dstLen := v }
  | msgByte {i : Nat} (b : Byte) : i < Config.msgMax.toNat →
      HostEffect s (.writeMsg i b) { s with msg := s.msg.write i b }
  | dstByte {i : Nat} (b : Byte) : i < maxTagBytes → HostEffect s (.writeDst i b) { s with dst := s.dst.write i b }
  | fieldReg (k : Nat) (v : Wide) : HostEffect s (.writeF k v) (hostWriteField k v s)
  | pointReg (k : Nat) (grp : Group) (inf : Bool) (x0 x1 y0 y1 : Wide) :
      HostEffect s (.writePt k grp inf x0 x1 y0 y1) (hostWritePoint k grp inf x0 x1 y0 y1 s)

theorem hostReturns_next {v : HostValue} {s t : State} (h : hostReturns v s = .next t) : t = { s with returned := v } := by
  cases h
  rfl

/-- A read changes only what is returned. -/
theorem hostEffect_of_returns {e : HostEvent} {v : HostValue} {s t : State} (he : e.isRead = true)
    (h : hostReturns v s = .next t) : HostEffect s e t := hostReturns_next h ▸ .read v he

/-- Every event that is not refused has one of the effects listed. -/
theorem hostEffect_of_hostAccess {e : HostEvent} {s t : State} (h : hostAccess e s = .next t) : HostEffect s e t := by
  cases e with
  | assertRst => cases h; exact .reset rfl
  | writeCtrl w =>
    cases h
    cases hw : w.getLsbD 0 with
    | true => exact hostWriteCtrl_of_set hw s ▸ .reset hw
    | false => exact (hostWriteCtrl_of_clear hw s).symm ▸ .ignored
  | writeCmd w => exact .command h
  | writeMsgLen v => cases h; exact .msgLen v
  | writeDstLen v => cases h; exact .dstLen v
  | writeMsg i b => obtain ⟨hi, h⟩ := hostIndexed_next.mp h; cases h; exact .msgByte b hi
  | writeDst i b => obtain ⟨hi, h⟩ := hostIndexed_next.mp h; cases h; exact .dstByte b hi
  | writeF k v => obtain ⟨_, h⟩ := hostIndexed_next.mp h; cases h; exact .fieldReg k v
  | writePt k grp inf x0 x1 y0 y1 =>
    obtain ⟨_, h⟩ := hostIndexed_next.mp h; cases h; exact .pointReg k grp inf x0 x1 y0 y1
  | writeStatus | writeErr | writeErrInfo | writeXoutLen => cases h; exact .ignored
  | writeXout | writeK => cases h
  | readMsg | readDst | readXout | readF | readPt => exact hostEffect_of_returns rfl (hostIndexed_next.mp h).2
  | readCmd | readStatus | readErr | readErrInfo | readCtrl | readMsgLen | readDstLen | readXoutLen | readK =>
    exact hostEffect_of_returns rfl h

/-- The three ends of a write to `CMD`: ignored in the fault state, else the results of the latched command, or the fault
state of the latched word (R90, R284, R286). -/
theorem issue_cases {w : Word} {s t : State} (h : issue w s = .next t) :
    t = s ∨ s.status.fault = false ∧
      ((∃ i, decode w = .ok i ∧ runCommand i { s with cmd := w } = .ok t) ∨
        ∃ c, t = raiseFault c { s with cmd := w }) := by
  unfold issue at h
  cases hf : s.status.fault with
  | true =>
    rw [if_pos hf] at h
    cases h
    exact .inl rfl
  | false =>
    rw [if_neg (by simp [hf])] at h
    refine .inr ⟨rfl, ?_⟩
    cases hd : decode w with
    | error e =>
      rw [hd] at h
      cases h
      exact .inr ⟨_, rfl⟩
    | ok i =>
      rw [hd] at h
      rcases exec_cases h with hr | ⟨c, _, ht⟩
      · exact .inl ⟨i, rfl, hr⟩
      · exact .inr ⟨c, ht⟩

/-! ### The lengths of the expander's strings -/

@[simp] theorem bigEndian_length (n v : Nat) : (bigEndian n v).length = n := by
  induction n with
  | zero => rfl
  | succ n ih => simp [bigEndian, ih]

/-- A digest has 32 bytes (R260). -/
@[simp] theorem sha256_length (m : List Byte) : (sha256 m).length = 32 := by
  simp [sha256, shaDigest]

theorem xmdBlocks_length (b0 dst' : List Byte) (count i : Nat) (mixed : List Byte) :
    (xmdBlocks b0 dst' count i mixed).length = 32 * count := by
  induction count generalizing i mixed with
  | zero => rfl
  | succ count ih =>
    simp only [xmdBlocks, List.length_append, sha256_length, ih]
    omega

/-- The expansion has exactly the requested length (R124). -/
theorem expandXmd_length {msg dst out : List Byte} {n : Nat} (h : expandXmd msg dst n = .ok out) : out.length = n := by
  obtain ⟨_, _, rfl⟩ := expandXmd_ok.mp h
  have hc : ceilDiv n 32 = (n + 31) / 32 := rfl
  rw [List.length_take, xmdBlocks_length]
  omega

/-- Every element of the field hash is a residue modulo `K.P` (R140). -/
theorem hashToField_lt {p count : Nat} {msg dst : List Byte} {us : List Nat}
    (h : hashToField p msg dst count = .ok us) (hp : 0 < p) : ∀ u ∈ us, u < p := by
  obtain ⟨e, _, rfl⟩ := hashToField_ok.mp h
  intro u hu
  obtain ⟨j, _, rfl⟩ := List.mem_map.mp hu
  exact Nat.mod_lt _ hp

end Sys2Proof.Machine
end

section
/-! SUPPORT. Every element the field operations answer is canonical, so every point the block
computes has canonical coordinates; and the points the commands write are on their curves (spec/10_state.md R22, R23). -/

namespace Sys2Proof.Machine

/-! ### The range of the field operations -/

/-- Every answer of these field operations lies in `C`, whatever the arguments. -/
structure FieldOps.RangeIn {α : Type} (F : FieldOps α) (C : α → Prop) : Prop where
  add : ∀ a b, C (F.add a b)
  sub : ∀ a b, C (F.sub a b)
  neg : ∀ a, C (F.neg a)
  mul : ∀ a b, C (F.mul a b)
  sqrt : ∀ {a r}, F.sqrt a = some r → C r

theorem fieldP_pos : 0 < fieldP := by decide

theorem fqAdd_lt (a b : Nat) : fqAdd a b < fieldP := Nat.mod_lt _ fieldP_pos
theorem fqSub_lt (a b : Nat) : fqSub a b < fieldP := Nat.mod_lt _ fieldP_pos
theorem fqNeg_lt (a : Nat) : fqNeg a < fieldP := Nat.mod_lt _ fieldP_pos
theorem fqMul_lt (a b : Nat) : fqMul a b < fieldP := Nat.mod_lt _ fieldP_pos

theorem fqPow_lt (a e : Nat) : fqPow a e < fieldP := by
  unfold fqPow
  refine List.foldlRecOn (motive := fun r => r < fieldP) _ _ (by decide) fun r _ b _ => ?_
  cases b
  · exact fqMul_lt _ _
  · exact fqMul_lt _ _

/-- The reference root is canonical, and its square is its argument (R236). -/
theorem fqRefRoot_some {a r : Nat} (h : fqRefRoot a = some r) : r < fieldP ∧ fqSqr r = a := by
  simp only [fqRefRoot, Option.ite_none_right_eq_some, Option.some.injEq] at h
  obtain ⟨hsq, rfl⟩ := h
  exact ⟨fqPow_lt _ _, hsq⟩

theorem fq2Sub_canonical (a b : Fq2) : canonicalFq2 (fq2Sub a b) := ⟨fqSub_lt _ _, fqSub_lt _ _⟩
theorem fq2Add_canonical (a b : Fq2) : canonicalFq2 (fq2Add a b) := ⟨fqAdd_lt _ _, fqAdd_lt _ _⟩
theorem fq2Neg_canonical (a : Fq2) : canonicalFq2 (fq2Neg a) := ⟨fqNeg_lt _, fqNeg_lt _⟩
theorem fq2Mul_canonical (a b : Fq2) : canonicalFq2 (fq2Mul a b) := ⟨fqSub_lt _ _, fqAdd_lt _ _⟩

theorem fq2RootFrom_canonical {a r : Fq2} {x0 : Nat} (hx : x0 < fieldP) (h : fq2RootFrom a x0 = some r) :
    canonicalFq2 r := by
  simp only [fq2RootFrom, Option.ite_none_right_eq_some, Option.some.injEq] at h
  obtain ⟨_, rfl⟩ := h
  exact ⟨hx, fqMul_lt _ _⟩

/-- The reference root of the complex method is canonical (R246). -/
theorem fq2RefRoot_canonical {a r : Fq2} (h : fq2RefRoot a = some r) : canonicalFq2 r := by
  revert h
  fun_cases fq2RefRoot a with
  | case1 =>
    rintro ⟨⟩
    exact ⟨fieldP_pos, fieldP_pos⟩
  | case2 _ _ x hx =>
    rintro ⟨⟩
    exact ⟨(fqRefRoot_some hx).1, fieldP_pos⟩
  | case3 =>
    intro h
    obtain ⟨x, hx, rfl⟩ := Option.map_eq_some_iff.mp h
    exact ⟨fieldP_pos, (fqRefRoot_some hx).1⟩
  | case5 _ _ n _ x hx => exact fq2RootFrom_canonical (fqRefRoot_some hx).1
  | case6 _ _ n _ _ x hx => exact fq2RootFrom_canonical (fqRefRoot_some hx).1
  | case4 | case7 => exact nofun

/-- The base-field root is the reference root or its negative (R236, D24). -/
theorem fqOps_sqrt_some {a r : Nat} (h : fqOps.sqrt a = some r) :
    ∃ x, fqRefRoot a = some x ∧ (r = x ∨ r = fqNeg x) := by
  change fqSqrtBy Config.fqRootChoice a = some r at h
  unfold fqSqrtBy at h
  obtain ⟨x, hx, hr⟩ := Option.map_eq_some_iff.mp h
  refine ⟨x, hx, ?_⟩
  cases hc : Config.fqRootChoice a <;> simp only [hc] at hr
  · exact .inl hr.symm
  · exact .inr hr.symm

/-- The extension-field root is the reference root or its negative (R246, D24). -/
theorem fq2Ops_sqrt_some {a r : Fq2} (h : fq2Ops.sqrt a = some r) :
    ∃ x, fq2RefRoot a = some x ∧ (r = x ∨ r = fq2Neg x) := by
  change fq2SqrtBy Config.fq2RootChoice a = some r at h
  unfold fq2SqrtBy at h
  obtain ⟨x, hx, hr⟩ := Option.map_eq_some_iff.mp h
  refine ⟨x, hx, ?_⟩
  cases hc : Config.fq2RootChoice a <;> simp only [hc] at hr
  · exact .inl hr.symm
  · exact .inr hr.symm

/-- The base-field collaborators answer canonical representatives (R230 to R236). -/
theorem fqOps_rangeIn : fqOps.RangeIn (· < fieldP) where
  add := fqAdd_lt
  sub := fqSub_lt
  neg := fqNeg_lt
  mul := fqMul_lt
  sqrt := fun {a r} h => by
    obtain ⟨x, hx, rfl | rfl⟩ := fqOps_sqrt_some h
    · exact (fqRefRoot_some hx).1
    · exact fqNeg_lt x

/-- The extension-field collaborators answer canonical pairs (R240 to R246). -/
theorem fq2Ops_rangeIn : fq2Ops.RangeIn canonicalFq2 where
  add := fq2Add_canonical
  sub := fq2Sub_canonical
  neg := fq2Neg_canonical
  mul := fq2Mul_canonical
  sqrt := fun {a r} h => by
    obtain ⟨x, hx, rfl | rfl⟩ := fq2Ops_sqrt_some h
    · exact fq2RefRoot_canonical hx
    · exact fq2Neg_canonical x

/-! ### The coordinates of computed points -/

/-- Both coordinates, if there are any, lie in `C`. -/
def Point.CoordsIn {α : Type} (C : α → Prop) : Point α → Prop
  | .inf => True
  | .affine x y => C x ∧ C y

section
variable {α : Type} {F : FieldOps α} {C : α → Prop}

theorem ptChord_coordsIn (hF : F.RangeIn C) (lam x1 y1 x2 : α) : (ptChord F lam x1 y1 x2).CoordsIn C :=
  ⟨hF.sub _ _, hF.sub _ _⟩

/-- A selected candidate is a sum or a difference, so it lies in the range of the operations. -/
theorem selectCandidate_in (hF : F.RangeIn C) {c : MapConsts α} {b u x : α}
    (h : selectCandidate F b (mapCandidates F c u) = .ok x) : C x := by
  unfold selectCandidate at h
  split at h
  · cases h
    exact hF.sub _ _
  split at h
  · cases h
    exact hF.add _ _
  split at h
  · cases h
    exact hF.add _ _
  · cases h

variable [DecidableEq α]

theorem ptAdd_coordsIn (hF : F.RangeIn C) {a b : Point α} (ha : a.CoordsIn C) (hb : b.CoordsIn C) :
    (ptAdd F a b).CoordsIn C := by
  fun_cases ptAdd F a b with
  | case1 => exact hb
  | case2 => exact ha
  | case3 => trivial
  | case4 | case5 => exact ptChord_coordsIn hF _ _ _ _

theorem ptMul_coordsIn (hF : F.RangeIn C) (n : Nat) {a : Point α} (ha : a.CoordsIn C) : (ptMul F n a).CoordsIn C := by
  unfold ptMul
  refine List.foldlRecOn (motive := Point.CoordsIn C) _ _ trivial fun r hr b _ => ?_
  have hdouble := ptAdd_coordsIn hF hr hr
  cases b
  · exact hdouble
  · exact ptAdd_coordsIn hF hdouble ha

/-- The map answers coordinates in the range of the operations (R162). -/
theorem svdwMap_coordsIn (hF : F.RangeIn C) {c : MapConsts α} {g : Group} {u : α} {xy : α × α}
    (h : svdwMap F c g u = .ok xy) : (affineOf xy).CoordsIn C := by
  obtain ⟨x, hx, hl⟩ := svdwMap_ok.mp h
  obtain ⟨r, hr, rfl, _⟩ := liftCandidate_ok.mp hl
  refine ⟨selectCandidate_in hF hx, ?_⟩
  show C (matchSign F u r)
  unfold matchSign
  split
  · exact hF.sqrt hr
  · exact hF.neg r

end

theorem psiPoint_coordsIn (k : Consts) (q : Point Fq2) : (psiPoint k q).CoordsIn canonicalFq2 := by
  cases q with
  | inf => trivial
  | affine x y => exact ⟨fq2Mul_canonical _ _, fq2Mul_canonical _ _⟩

/-- Cofactor clearing keeps canonical coordinates (R193). -/
theorem clearCofactor_coordsIn {k : Consts} {q r : Point Fq2} (hq : q.CoordsIn canonicalFq2)
    (h : clearCofactor fq2Ops k q = .ok r) : r.CoordsIn canonicalFq2 := by
  obtain ⟨_, rfl⟩ := clearCofactor_ok.mp h
  have hadd : ∀ {a b : Point Fq2}, a.CoordsIn canonicalFq2 → b.CoordsIn canonicalFq2 →
      (ptAdd fq2Ops a b).CoordsIn canonicalFq2 := ptAdd_coordsIn fq2Ops_rangeIn
  exact hadd (hadd (hadd (ptMul_coordsIn fq2Ops_rangeIn _ hq) (psiPoint_coordsIn _ _)) (psiPoint_coordsIn _ _))
    (psiPoint_coordsIn _ _)

theorem clearedHashG2_coordsIn {k : Consts} {msg dst : List Byte} {r : Point Fq2}
    (h : clearedHashG2 fq2Ops k msg dst = .ok r) : r.CoordsIn canonicalFq2 := by
  simp only [clearedHashG2, sumMapsG2, except_bind_ok, except_ok_inj] at h
  obtain ⟨us, _, _, ⟨q0, h0, q1, h1, rfl⟩, hc⟩ := h
  exact clearCofactor_coordsIn
    (ptAdd_coordsIn fq2Ops_rangeIn (svdwMap_coordsIn fq2Ops_rangeIn h0) (svdwMap_coordsIn fq2Ops_rangeIn h1)) hc

theorem clearedEncodeG2_coordsIn {k : Consts} {msg dst : List Byte} {r : Point Fq2}
    (h : clearedEncodeG2 fq2Ops k msg dst = .ok r) : r.CoordsIn canonicalFq2 := by
  simp only [clearedEncodeG2, except_bind_ok] at h
  obtain ⟨us, _, q, hq, hc⟩ := h
  exact clearCofactor_coordsIn (svdwMap_coordsIn fq2Ops_rangeIn hq) hc

theorem hashToG1_coordsIn {k : Consts} {msg dst : List Byte} {r : Point Nat}
    (h : hashToG1 fqOps k msg dst = .ok r) : r.CoordsIn (· < fieldP) := by
  obtain ⟨us, _, q0, h0, q1, h1, _, rfl⟩ := hashToG1_ok.mp h
  exact ptAdd_coordsIn fqOps_rangeIn (svdwMap_coordsIn fqOps_rangeIn h0) (svdwMap_coordsIn fqOps_rangeIn h1)

/-! ### The curve equation of a mapped point -/

/-- Negation does not change a square, for any argument, canonical or not. -/
theorem fqSqr_fqNeg (a : Nat) : fqSqr (fqNeg a) = fqSqr a := by
  have hle : a % fieldP ≤ fieldP := (Nat.mod_lt a fieldP_pos).le
  refine (ZMod.natCast_eq_natCast_iff' _ _ fieldP).mp ?_
  simp only [fqNeg, Nat.cast_mul, ZMod.natCast_mod, Nat.cast_sub hle, ZMod.natCast_self]
  ring

/-- The root the base-field collaborator returns, whichever it is, squares to its argument (R236). -/
theorem fqSqr_of_sqrt {a r : Nat} (h : fqOps.sqrt a = some r) : fqSqr r = a := by
  obtain ⟨x, hx, rfl | rfl⟩ := fqOps_sqrt_some h
  · exact (fqRefRoot_some hx).2
  · rw [fqSqr_fqNeg, (fqRefRoot_some hx).2]

/-- The G1 map makes no on-curve check and needs none: `y` is a square root of `g(x)` up to sign (R166, R167). -/
theorem svdwMapG1_onCurve {k : Consts} {u : Nat} {xy : Nat × Nat} (h : svdwMapG1 fqOps k u = .ok xy) :
    onCurve fqOps k.b1 xy.1 xy.2 = true := by
  obtain ⟨x, _, hl⟩ := svdwMap_ok.mp h
  obtain ⟨r, hr, rfl, _⟩ := liftCandidate_ok.mp hl
  have hsq : fqSqr (matchSign fqOps u r) = curveRhs fqOps k.b1 x := by
    unfold matchSign
    split
    · exact fqSqr_of_sqrt hr
    · exact (fqSqr_fqNeg r).trans (fqSqr_of_sqrt hr)
  exact beq_iff_eq.mpr hsq

/-- The G2 map answers only what passed its check (R166). -/
theorem svdwMapG2_onCurve {k : Consts} {u : Fq2} {xy : Fq2 × Fq2} (h : svdwMapG2 fq2Ops k u = .ok xy) :
    onCurve fq2Ops k.b2 xy.1 xy.2 = true := by
  obtain ⟨x, _, hl⟩ := svdwMap_ok.mp h
  obtain ⟨r, _, rfl, hc⟩ := liftCandidate_ok.mp hl
  exact hc rfl

/-! ### Point registers that hold such points -/

theorem toNat_ofNat_of_lt_fieldP {v : Nat} (h : v < fieldP) : (BitVec.ofNat 256 v).toNat = v := by
  have hP : fieldP < 2 ^ 256 := by decide
  exact BitVec.toNat_ofNat .. ▸ Nat.mod_eq_of_lt (h.trans hP)

theorem wellFormed_pointRegG1 {k : Consts} {r : Point Nat} (hr : r.CoordsIn (· < fieldP))
    (hc : pointOnCurve fqOps k.b1 r = true) : (pointRegG1 r).wellFormed k = true := by
  cases r with
  | inf => simp [pointRegG1, PointReg.wellFormed, fieldP_pos]
  | affine x y =>
    obtain ⟨hx, hy⟩ := hr
    have hc' : onCurve fqOps k.b1 x y = true := hc
    simp [pointRegG1, PointReg.wellFormed, toNat_ofNat_of_lt_fieldP, hx, hy, hc', fieldP_pos, -BitVec.toNat_ofNat]

theorem wellFormed_pointRegG2 {k : Consts} {r : Point Fq2} (hr : r.CoordsIn canonicalFq2)
    (hc : pointOnCurve fq2Ops k.b2 r = true) : (pointRegG2 r).wellFormed k = true := by
  cases r with
  | inf => simp [pointRegG2, PointReg.wellFormed, fieldP_pos]
  | affine x y =>
    obtain ⟨⟨hx0, hx1⟩, hy0, hy1⟩ := hr
    have hc' : onCurve fq2Ops k.b2 x y = true := hc
    simp [pointRegG2, PointReg.wellFormed, toNat_ofNat_of_lt_fieldP, hx0, hx1, hy0, hy1, hc', -BitVec.toNat_ofNat]

/-- A well-formed register holds canonical coordinates (R23). -/
theorem pointG2_coordsIn {k : Consts} {r : PointReg} (h : r.wellFormed k = true) : r.pointG2.CoordsIn canonicalFq2 := by
  simp only [PointReg.wellFormed, Bool.and_eq_true, decide_eq_true_eq] at h
  obtain ⟨⟨⟨hx0, hx1, hy0, hy1⟩, _⟩, _⟩ := h
  unfold PointReg.pointG2
  split
  · trivial
  · exact ⟨⟨hx0, hx1⟩, hy0, hy1⟩

/-- In a state whose valid points are well formed the operand of `PSI` and `CLRCOF` is canonical. -/
theorem pointOperandG2_coordsIn {s : State} {ps : Nat} {q : Point Fq2} (hs : s.pointsWellFormed)
    (h : pointOperandG2 s ps = .ok q) : q.CoordsIn canonicalFq2 := by
  obtain ⟨r, hr, hv, _, rfl⟩ := pointOperandG2_ok.mp h
  exact pointG2_coordsIn (hs ps r hr hv)

end Sys2Proof.Machine
end

section
/-! SUPPORT. What a completed command writes, and the invariant kept by every update of the
state (spec/10_state.md R20 to R37). -/

namespace Sys2Proof.Machine

/-! ### What a completed command writes (R74) -/

/-- The four ways a command that completes changes the state. A point is well formed when the points it was computed from
are. -/
inductive CommandEffect (s : State) : State → Prop where
  | xout {out : List Byte} {n : Nat} : n ≤ 8160 → out.length = n → CommandEffect s (s.writeXout out n)
  | fields {us : List Nat} (fd : Nat) : (0 < s.k.p → ∀ u ∈ us, u < s.k.p) → CommandEffect s (s.writeFields fd us)
  | sgn (b : Bool) : CommandEffect s (s.writeSgn b)
  | point {r : PointReg} (pd : Nat) : (s.pointsWellFormed → r.wellFormed s.k = true) →
      CommandEffect s (s.setPointReg pd r)

/-- Every command that completes has one of the four effects. -/
theorem commandEffect_of_run {i : Instr} {s t : State} (h : runCommand i s = .ok t) : CommandEffect s t := by
  cases i with
  | expand n =>
    obtain ⟨_, hn, _, out, hout, rfl⟩ := runExpand_ok.mp h
    exact .xout hn (expandXmd_length hout)
  | h2f fd count =>
    obtain ⟨_, _, _, _, us, hus, rfl⟩ := runH2f_ok.mp h
    exact .fields fd (hashToField_lt hus)
  | sgn0 fs =>
    obtain ⟨x, _, rfl⟩ := runSgn0_ok.mp h
    exact .sgn _
  | sgn0e fs =>
    obtain ⟨x, _, rfl⟩ := runSgn0e_ok.mp h
    exact .sgn _
  | map1 pd fs =>
    obtain ⟨_, u, _, xy, hxy, rfl⟩ := runMap1_ok.mp h
    exact .point pd fun _ => wellFormed_pointRegG1 (svdwMap_coordsIn fqOps_rangeIn hxy) (svdwMapG1_onCurve hxy)
  | map2 pd fs =>
    obtain ⟨_, u, _, xy, hxy, rfl⟩ := runMap2_ok.mp h
    exact .point pd fun _ => wellFormed_pointRegG2 (svdwMap_coordsIn fq2Ops_rangeIn hxy) (svdwMapG2_onCurve hxy)
  | psi pd ps =>
    obtain ⟨_, _, q, _, r, hr, rfl⟩ := runPsi_ok.mp h
    obtain ⟨hc, rfl⟩ := checkedG2_ok.mp hr
    exact .point pd fun _ => wellFormed_pointRegG2 (psiPoint_coordsIn _ _) hc
  | clrcof pd ps =>
    obtain ⟨_, _, q, hq, r, hr, rfl⟩ := runClrcof_ok.mp h
    refine .point pd fun hs => wellFormed_pointRegG2 (clearCofactor_coordsIn (pointOperandG2_coordsIn hs hq) hr) ?_
    obtain ⟨hc, rfl⟩ := clearCofactor_ok.mp hr
    exact hc
  | hashg1 pd =>
    obtain ⟨_, _, _, r, hr, rfl⟩ := runHashg1_ok.mp h
    refine .point pd fun _ => wellFormed_pointRegG1 (hashToG1_coordsIn hr) ?_
    obtain ⟨_, _, _, _, _, _, hc, rfl⟩ := hashToG1_ok.mp hr
    exact hc
  | hashg2 pd =>
    obtain ⟨_, _, _, r, hr, rfl⟩ := runHashg2_ok.mp h
    obtain ⟨hcl, hc, _⟩ := hashToG2_ok.mp hr
    exact .point pd fun _ => wellFormed_pointRegG2 (clearedHashG2_coordsIn hcl) hc
  | encg2 pd =>
    obtain ⟨_, _, _, r, hr, rfl⟩ := runEncg2_ok.mp h
    obtain ⟨hcl, hc, _⟩ := encodeToG2_ok.mp hr
    exact .point pd fun _ => wellFormed_pointRegG2 (clearedEncodeG2_coordsIn hcl) hc

theorem CommandEffect.msg_eq {s t : State} (h : CommandEffect s t) : t.msg = s.msg := by cases h <;> simp

theorem CommandEffect.dst_eq {s t : State} (h : CommandEffect s t) : t.dst = s.dst := by cases h <;> simp

/-- A command that completes does not touch `STATUS.FAULT`. -/
theorem CommandEffect.fault_eq {s t : State} (h : CommandEffect s t) : t.status.fault = s.status.fault := by
  cases h <;> simp

/-- A write to `CMD` changes no byte of the message or the tag, however it ends (R332). -/
theorem issue_keeps_inputs {w : Word} {s t : State} (h : issue w s = .next t) : t.msg = s.msg ∧ t.dst = s.dst := by
  rcases issue_cases h with rfl | ⟨_, ⟨i, _, hr⟩ | ⟨c, rfl⟩⟩
  · exact ⟨rfl, rfl⟩
  · have he := commandEffect_of_run hr
    exact ⟨he.msg_eq, he.dst_eq⟩
  · exact ⟨rfl, rfl⟩

/-! ### The host's register writes keep the buffers -/

@[simp] theorem hostWriteField_msg (k : Nat) (v : Wide) (s : State) : (hostWriteField k v s).msg = s.msg := by
  unfold hostWriteField
  split <;> rfl

@[simp] theorem hostWriteField_dst (k : Nat) (v : Wide) (s : State) : (hostWriteField k v s).dst = s.dst := by
  unfold hostWriteField
  split <;> rfl

@[simp] theorem hostWritePoint_msg (k : Nat) (grp : Group) (inf : Bool) (x0 x1 y0 y1 : Wide) (s : State) :
    (hostWritePoint k grp inf x0 x1 y0 y1 s).msg = s.msg := by
  simp only [hostWritePoint]
  split <;> rfl

@[simp] theorem hostWritePoint_dst (k : Nat) (grp : Group) (inf : Bool) (x0 x1 y0 y1 : Wide) (s : State) :
    (hostWritePoint k grp inf x0 x1 y0 y1 s).dst = s.dst := by
  simp only [hostWritePoint]
  split <;> rfl

/-! ### The invariant under each update -/

section
variable {s : State}

/-- After a write of one register each register is the one written or as before. -/
theorem getElem?_setIfInBounds_cases {α : Type} {n k j : Nat} {v : Vector α n} {r q : α}
    (h : (v.setIfInBounds k r)[j]? = some q) : q = r ∨ v[j]? = some q := by
  rw [Vector.getElem?_setIfInBounds] at h
  split at h
  · split at h
    · cases h
      exact .inl rfl
    · cases h
  · exact .inr h

/-- A field register may be written with any value below `P`, or left not valid. -/
theorem setFieldReg_inv (h : s.Inv) (k : Nat) {r : FieldReg} (hr : r.valid = true → r.val.toNat < fieldP) :
    (s.setFieldReg k r).Inv :=
  { h with
    fields := fun j q hq hv => by
      rcases getElem?_setIfInBounds_cases hq with rfl | hq
      · exact hr hv
      · exact h.fields j q hq hv }

/-- A point register may be written with any well-formed point, or left not valid. -/
theorem setPointReg_inv (h : s.Inv) (k : Nat) {r : PointReg} (hr : r.valid = true → r.wellFormed s.k = true) :
    (s.setPointReg k r).Inv :=
  { h with
    points := fun j q hq hv => by
      rcases getElem?_setIfInBounds_cases hq with rfl | hq
      · exact hr hv
      · exact h.points j q hq hv }

theorem writeFields_inv {us : List Nat} (h : s.Inv) (fd : Nat) (hus : ∀ u ∈ us, u < fieldP) :
    (s.writeFields fd us).Inv := by
  induction us generalizing s fd with
  | nil => exact h
  | cons u us ih =>
    obtain ⟨hu, hus⟩ := List.forall_mem_cons.mp hus
    exact ih (setFieldReg_inv h fd fun _ => (toNat_ofNat_of_lt_fieldP hu).trans_lt hu) (fd + 1) hus

/-- `EXPAND` leaves `XOUT` listing exactly the bytes below the new `XOUT_LEN` (R33, R75). -/
theorem writeXout_inv {out : List Byte} {n : Nat} (h : s.Inv) (hn : n ≤ 8160) (hout : out.length = n) :
    (s.writeXout out n).Inv := by
  have hlen : (s.writeXout out n).xoutLen.toNat = n := by
    simp only [writeXout_xoutLen, BitVec.toNat_ofNat]
    omega
  obtain ⟨hmsg, hdst, _⟩ := h.buffers
  refine { h with buffers := ⟨hmsg, hdst, ?_, ?_, fun j hj => ?_⟩ }
  · rw [hlen, writeXout_xout, ← hout]
    exact wf_ofBytes out s.draws
  · rw [hlen]
    exact hn
  · rw [hlen] at hj
    rw [writeXout_xout, cellsRead_ofBytes, List.getElem?_eq_getElem (by omega)]
    rfl

theorem writeMsg_inv (h : s.Inv) {i : Nat} (hi : i < Config.msgMax.toNat) (b : Byte) :
    State.Inv { s with msg := s.msg.write i b } :=
  have ⟨hmsg, hrest⟩ := h.buffers
  { h with buffers := ⟨wf_write hmsg hi b, hrest⟩ }

theorem writeDst_inv (h : s.Inv) {i : Nat} (hi : i < maxTagBytes) (b : Byte) :
    State.Inv { s with dst := s.dst.write i b } :=
  have ⟨hmsg, hdst, hrest⟩ := h.buffers
  { h with buffers := ⟨hmsg, wf_write hdst hi b, hrest⟩ }

/-- The fields no part of the invariant speaks of may take any value. -/
theorem inv_of_free_fields (h : s.Inv) (msgLen : Word) (dstLen : Half) (sgn : Bool) (draws : Nat)
    (pending : List HostEvent) (returned : HostValue) :
    State.Inv { s with msgLen := msgLen, dstLen := dstLen, status := { s.status with sgn := sgn }, draws := draws,
                       pending := pending, returned := returned } :=
  ⟨h.table, h.fields, h.points, h.buffers, h.faults⟩

/-- A command word is latched only outside the fault state (R90, R286). -/
theorem latch_inv (h : s.Inv) (hf : s.status.fault = false) (w : Word) : State.Inv { s with cmd := w } :=
  { h with faults := ⟨h.faults.1, fun hf' => absurd (hf.symm.trans hf') (by decide)⟩ }

/-- Fault entry writes a legal code and the word in `CMD` (R284). -/
theorem raiseFault_inv (h : s.Inv) (c : Cause) : (raiseFault c s).Inv :=
  { h with faults := ⟨fun hf => absurd hf (by simp), fun _ => ⟨⟨c, rfl⟩, rfl⟩⟩ }

theorem commandEffect_inv {t : State} (h : s.Inv) (he : CommandEffect s t) : t.Inv := by
  cases he with
  | xout hn hout => exact writeXout_inv h hn hout
  | fields fd hus =>
    rw [h.table] at hus
    exact writeFields_inv h fd (hus fieldP_pos)
  | sgn b => exact inv_of_free_fields h s.msgLen s.dstLen b s.draws s.pending s.returned
  | point pd hr => exact setPointReg_inv h pd fun _ => hr h.points

theorem issue_inv {w : Word} {t : State} (h : s.Inv) (hi : issue w s = .next t) : t.Inv := by
  rcases issue_cases hi with rfl | ⟨hf, ⟨i, _, hr⟩ | ⟨c, rfl⟩⟩
  · exact h
  · exact commandEffect_inv (latch_inv h hf w) (commandEffect_of_run hr)
  · exact raiseFault_inv (latch_inv h hf w) c

/-- A host write of a field register stores only values below `P` as valid (R71). -/
theorem hostWriteField_inv (h : s.Inv) (k : Nat) (v : Wide) : (hostWriteField k v s).Inv := by
  unfold hostWriteField
  split
  · next hv => exact setFieldReg_inv h k fun _ => (toNat_ofNat_of_lt_fieldP hv).trans_lt hv
  · have hw : (s.setFieldReg k (emptyFieldReg s.draws k)).Inv := setFieldReg_inv h k nofun
    exact inv_of_free_fields hw s.msgLen s.dstLen s.status.sgn (s.draws + 1) s.pending s.returned

/-- A host write of a point register marks only well-formed points as valid (R72). -/
theorem hostWritePoint_inv (h : s.Inv) (k : Nat) (grp : Group) (inf : Bool) (x0 x1 y0 y1 : Wide) :
    (hostWritePoint k grp inf x0 x1 y0 y1 s).Inv := by
  simp only [hostWritePoint]
  split
  · next hr => exact setPointReg_inv h k fun _ => hr
  · have hw : (s.setPointReg k ⟨false, grp, inf, x0, x1, y0, y1⟩).Inv := setPointReg_inv h k nofun
    exact inv_of_free_fields hw s.msgLen s.dstLen s.status.sgn (s.draws + 1) s.pending s.returned

/-! ### Reset -/

theorem softReset_fieldReg (s : State) {k : Nat} (hk : k < 256) :
    (softReset s).f[k]? = some (emptyFieldReg s.draws k) := by
  simp [hk]

theorem softReset_pointReg (s : State) {k : Nat} (hk : k < 16) :
    (softReset s).pt[k]? = some (emptyPointReg s.draws k) := by
  simp [hk]

/-- The state right after power-on is a reset of the state with draw counter 0. -/
theorem reset_eq_softReset : State.reset = softReset { State.reset with draws := 0 } := rfl

/-- A reset keeps the constant table and leaves nothing valid and nothing faulted, so the rest of the invariant holds
whatever the state was (R36, R320). -/
theorem softReset_inv (h : s.k = constTable) : (softReset s).Inv where
  table := h
  fields := fun k r hr hv => by
    rw [softReset_f, Vector.getElem?_ofFn] at hr
    split at hr
    · cases hr
      cases hv
    · cases hr
  points := fun k r hr hv => by
    rw [softReset_pt, Vector.getElem?_ofFn] at hr
    split at hr
    · cases hr
      cases hv
    · cases hr
  buffers := ⟨wf_emptyMemory _ _, wf_emptyMemory _ _, wf_emptyMemory _ _, Nat.zero_le _,
    fun j hj => absurd hj (Nat.not_lt_zero j)⟩
  faults := ⟨fun _ => ⟨rfl, rfl⟩, nofun⟩

/-- Every host event keeps the invariant. -/
theorem hostEffect_inv {e : HostEvent} {t : State} (h : s.Inv) (he : HostEffect s e t) : t.Inv := by
  have hfree := inv_of_free_fields h
  cases he with
  | read v => exact hfree s.msgLen s.dstLen s.status.sgn s.draws s.pending v
  | ignored => exact h
  | reset => exact softReset_inv h.table
  | command hi => exact issue_inv h hi
  | msgLen v => exact hfree v s.dstLen s.status.sgn s.draws s.pending s.returned
  | dstLen v => exact hfree s.msgLen v s.status.sgn s.draws s.pending s.returned
  | msgByte b hi => exact writeMsg_inv h hi b
  | dstByte b hi => exact writeDst_inv h hi b
  | fieldReg k v => exact hostWriteField_inv h k v
  | pointReg k grp inf x0 x1 y0 y1 => exact hostWritePoint_inv h k grp inf x0 x1 y0 y1

end

/-- Settles O23: the next event, if there is one, has one of the listed effects, and each keeps the invariant. -/
theorem stepKeepsInvariant : Obligations.StepKeepsInvariant := by
  intro s t h hst
  rcases step_cases s with ⟨_, hidle⟩ | ⟨e, rest, _, hevent⟩
  · rw [hidle] at hst
    cases hst
    exact h
  · rw [hevent] at hst
    have htake : (s.takeEvent rest).Inv :=
      inv_of_free_fields h s.msgLen s.dstLen s.status.sgn s.draws rest .nothing
    exact hostEffect_inv htake (hostEffect_of_hostAccess hst)

/-- Settles O11: of the events that are no reset only the two byte writes touch the buffers, each its own byte. -/
theorem inputBytesKeptUntilWrittenOrReset : Obligations.InputBytesKeptUntilWrittenOrReset := by
  intro s t e rest hp hreset hst
  rw [step_of_pending hp] at hst
  have he := hostEffect_of_hostAccess hst
  rw [← takeEvent_msg s rest, ← takeEvent_dst s rest]
  cases he with
  | reset hr => exact absurd (hreset.symm.trans hr) (by decide)
  | command hi =>
    obtain ⟨hmsg, hdst⟩ := issue_keeps_inputs hi
    rw [hmsg, hdst]
    exact ⟨fun _ _ => rfl, fun _ _ => rfl⟩
  | @msgByte k b =>
    refine ⟨fun i hi => ?_, fun _ _ => rfl⟩
    have hne : i ≠ k := fun h => hi b (h ▸ rfl)
    rw [memoryRead_write, if_neg hne]
  | @dstByte k b =>
    refine ⟨fun _ _ => rfl, fun i hi => ?_⟩
    have hne : i ≠ k := fun h => hi b (h ▸ rfl)
    rw [memoryRead_write, if_neg hne]
  | fieldReg | pointReg => simp
  | read | ignored | msgLen | dstLen => exact ⟨fun _ _ => rfl, fun _ _ => rfl⟩

end Sys2Proof.Machine
end

section
/-! SUPPORT. A command run in two states that agree on what it reads (spec/10_state.md R35). -/

namespace Sys2Proof.Machine

/-! ### Agreement of two runs -/

/-- Both runs complete with results related by `R`, or both fault with the same cause. -/
def runsAgree (R : State → State → Prop) : Except Cause State → Except Cause State → Prop
  | .ok t₁, .ok t₂ => R t₁ t₂
  | .error c₁, .error c₂ => c₁ = c₂
  | .ok _, .error _ => False
  | .error _, .ok _ => False

/-- Two runs agree that make the same check or fetch the same operand first, and agree after it. -/
theorem runsAgree_bind {α : Type} {R : State → State → Prop} {x₁ x₂ : Except Cause α}
    {f₁ f₂ : α → Except Cause State} (hx : x₁ = x₂) (hf : ∀ a, x₂ = .ok a → runsAgree R (f₁ a) (f₂ a)) :
    runsAgree R (x₁ >>= f₁) (x₂ >>= f₂) := by
  subst hx
  cases x₁ with
  | error c => rfl
  | ok a => exact hf a rfl

/-! ### The checks and operand fetches read only what R74 lists -/

section
variable {s₁ s₂ : State}

theorem fieldOperand_congr {fs : Nat} (h : s₁.readField fs = s₂.readField fs) :
    fieldOperand s₁ fs = fieldOperand s₂ fs := by
  rw [fieldOperand, fieldOperand, h]

theorem pairOperand_congr {fs : Nat} (h₀ : s₁.readField fs = s₂.readField fs)
    (h₁ : s₁.readField (fs + 1) = s₂.readField (fs + 1)) : pairOperand s₁ fs = pairOperand s₂ fs := by
  rw [pairOperand, pairOperand, h₀, h₁]

theorem pointOperandG2_congr {ps : Nat} (h : s₁.pt[ps]? = s₂.pt[ps]?) :
    pointOperandG2 s₁ ps = pointOperandG2 s₂ ps := by
  rw [pointOperandG2, pointOperandG2, h]

theorem checkMessageLength_congr (h : sameMessageAndTag s₁ s₂) : checkMessageLength s₁ = checkMessageLength s₂ := by
  obtain ⟨hlen, _⟩ := h
  rw [checkMessageLength, checkMessageLength, hlen]

theorem checkTagLength_congr (h : sameMessageAndTag s₁ s₂) : checkTagLength s₁ = checkTagLength s₂ := by
  obtain ⟨_, hlen, _⟩ := h
  rw [checkTagLength, checkTagLength, hlen]

theorem checkHashOperands_congr (h : sameMessageAndTag s₁ s₂) (pd : Nat) :
    checkHashOperands pd s₁ = checkHashOperands pd s₂ := by
  rw [checkHashOperands, checkHashOperands, checkMessageLength_congr h, checkTagLength_congr h]

/-! ### The same result written to two states reads the same -/

theorem setPointReg_same (s₁ s₂ : State) (pd : Nat) (r : PointReg) :
    (s₁.setPointReg pd r).pt[pd]? = (s₂.setPointReg pd r).pt[pd]? := by
  simp [Vector.getElem?_setIfInBounds]

theorem writeFields_same (s₁ s₂ : State) {fd : Nat} {us : List Nat} (h : fd + us.length ≤ 256) {j : Nat}
    (hj : j < us.length) : (s₁.writeFields fd us).readField (fd + j) = (s₂.writeFields fd us).readField (fd + j) := by
  have hin : fd ≤ fd + j ∧ fd + j < fd + us.length := by omega
  have hreg : (s₁.writeFields fd us).f[fd + j]? = (s₂.writeFields fd us).f[fd + j]? := by
    rw [fieldReg_writeFields us s₁ fd _ h, fieldReg_writeFields us s₂ fd _ h, dif_pos hin, dif_pos hin]
  rw [State.readField, State.readField, hreg]

/-- The bytes of `XOUT` below the new `XOUT_LEN` are those written, whatever the draws of the two states are. -/
theorem writeXout_same (s₁ s₂ : State) {out : List Byte} {n : Nat} (hn : n ≤ 8160) (hout : out.length = n) {j : Nat}
    (hj : j < n) : hostXoutByte (s₁.writeXout out n) j = hostXoutByte (s₂.writeXout out n) j := by
  have hlen : (BitVec.ofNat 16 n).toNat = n := by
    rw [BitVec.toNat_ofNat]
    omega
  have hbyte : out[j]? = some out[j] := List.getElem?_eq_getElem _
  simp [hostXoutByte, hlen, hj, Memory.read, cellsRead_ofBytes, hbyte]

/-- A command's run depends only on the constants and on what it reads (R35). -/
theorem runCommand_agree {i : Instr} (h : sameReads i s₁ s₂) :
    runsAgree (sameWritten i) (runCommand i s₁) (runCommand i s₂) := by
  obtain ⟨hk, h⟩ := h
  cases i with
  | expand n =>
    have ⟨_, _, hmsg, htag⟩ := h
    refine runsAgree_bind (checkMessageLength_congr h) fun _ _ => runsAgree_bind rfl fun _ hn =>
      runsAgree_bind (checkTagLength_congr h) fun _ _ => runsAgree_bind (by rw [hmsg, htag]) fun out hout => ?_
    exact ⟨rfl, fun j hj => writeXout_same s₁ s₂ (checkExpansionLength_ok.mp hn) (expandXmd_length hout) hj⟩
  | h2f fd count =>
    have ⟨_, _, hmsg, htag⟩ := h
    refine runsAgree_bind rfl fun _ hfd => runsAgree_bind (checkMessageLength_congr h) fun _ _ =>
      runsAgree_bind rfl fun _ _ => runsAgree_bind (checkTagLength_congr h) fun _ _ =>
      runsAgree_bind (by rw [hk, hmsg, htag]) fun us hus => ?_
    obtain rfl : us.length = count := hashToField_length hus
    exact fun j hj => writeFields_same s₁ s₂ (checkFieldRange_ok.mp hfd) hj
  | sgn0 fs => exact runsAgree_bind (fieldOperand_congr h) fun _ _ => rfl
  | sgn0e fs => exact runsAgree_bind (pairOperand_congr h.1 h.2) fun _ _ => rfl
  | map1 pd fs =>
    exact runsAgree_bind rfl fun _ _ => runsAgree_bind (fieldOperand_congr h) fun u _ =>
      runsAgree_bind (by rw [hk]) fun xy _ => setPointReg_same s₁ s₂ pd _
  | map2 pd fs =>
    exact runsAgree_bind rfl fun _ _ => runsAgree_bind (pairOperand_congr h.1 h.2) fun u _ =>
      runsAgree_bind (by rw [hk]) fun xy _ => setPointReg_same s₁ s₂ pd _
  | psi pd ps | clrcof pd ps =>
    exact runsAgree_bind rfl fun _ _ => runsAgree_bind rfl fun _ _ =>
      runsAgree_bind (pointOperandG2_congr h) fun q _ =>
      runsAgree_bind (by rw [hk]) fun r _ => setPointReg_same s₁ s₂ pd _
  | hashg1 pd | hashg2 pd | encg2 pd =>
    have ⟨_, _, hmsg, htag⟩ := h
    exact runsAgree_bind (checkHashOperands_congr h pd) fun _ _ =>
      runsAgree_bind (by rw [hk, hmsg, htag]) fun r _ => setPointReg_same s₁ s₂ pd _

end

/-- Settles O27: the two runs agree, and only a run that faults ends in the fault state. -/
theorem resultDependsOnlyOnWhatIsRead : Obligations.ResultDependsOnlyOnWhatIsRead := by
  intro i s₁ s₂ t₁ t₂ hreads hf₁ hf₂ ht₁ ht₂
  have hagree := runCommand_agree hreads
  rcases exec_cases ht₁ with hr₁ | ⟨c₁, hr₁, rfl⟩ <;> rcases exec_cases ht₂ with hr₂ | ⟨c₂, hr₂, rfl⟩ <;>
    rw [hr₁, hr₂] at hagree
  case inl.inl =>
    have hclear₁ : t₁.status.fault = false := (commandEffect_of_run hr₁).fault_eq.trans hf₁
    have hclear₂ : t₂.status.fault = false := (commandEffect_of_run hr₂).fault_eq.trans hf₂
    exact ⟨hclear₁.trans hclear₂.symm, fun h => absurd (hclear₁.symm.trans h) (by decide), fun _ => hagree⟩
  case inr.inr =>
    obtain rfl : c₁ = c₂ := hagree
    exact ⟨rfl, fun _ => rfl, nofun⟩
  case inl.inr | inr.inl => exact hagree.elim

end Sys2Proof.Machine
end

section
/-! SUPPORT. The plain registers, `CTRL`, `STATUS` and reset (spec/10_state.md R25 to R36). -/

namespace Sys2Proof.Machine

/-- Settles O16: the step of each of the four events is the event taken and nothing more. -/
theorem readOnlyRegisterWritesIgnored : Obligations.ReadOnlyRegisterWritesIgnored := by
  rintro s e rest hp (⟨w, rfl⟩ | ⟨w, rfl⟩ | ⟨w, rfl⟩ | ⟨v, rfl⟩) <;> exact step_of_pending hp

/-- Settles O17: each clause is the meaning of its one event; the constants read as the table names them. -/
theorem plainRegisterAccess : Obligations.PlainRegisterAccess := by
  intro s rest
  refine ⟨fun h => step_of_pending h, fun h => step_of_pending h, fun h => step_of_pending h,
    fun h => step_of_pending h, fun h => step_of_pending h, fun h => step_of_pending h,
    fun _ h => step_of_pending h, fun _ h => step_of_pending h, fun _ h => step_of_pending h, ?_⟩
  refine ⟨?_, ?_, ?_, ?_, ?_, ?_, ?_, ?_, ?_, ?_, ?_, ?_, ?_, ?_, ?_, ?_, ?_, ?_, ?_, ?_⟩ <;> rfl

/-- Settles O18: what a write to `CTRL` does turns on bit 0 alone. -/
theorem ctrlBitZeroResets : Obligations.CtrlBitZeroResets := by
  refine fun s rest => ⟨fun w hp hw => ?_, fun w hp hw => ?_, fun hp => step_of_pending hp⟩
  · rw [step_of_pending hp, step_of_pending (e := .assertRst) (rest := rest) rfl]
    exact congrArg Host.Outcome.next (hostWriteCtrl_of_set hw _)
  · rw [step_of_pending hp]
    exact congrArg Host.Outcome.next (hostWriteCtrl_of_clear hw _)

/-- `STATUS` has no bit above bit 1 (R25). -/
theorem statusWord_toNat_lt (st : Status) : (statusWord st).toNat < 2 ^ 2 := by
  obtain ⟨fault, sgn⟩ := st
  cases fault <;> cases sgn <;> decide

theorem statusWord_bit0 (st : Status) : (statusWord st).getLsbD 0 = st.fault := by
  obtain ⟨fault, sgn⟩ := st
  cases fault <;> cases sgn <;> rfl

theorem statusWord_bit1 (st : Status) : (statusWord st).getLsbD 1 = st.sgn := by
  obtain ⟨fault, sgn⟩ := st
  cases fault <;> cases sgn <;> rfl

theorem statusWord_high (st : Status) {j : Nat} (hj : 2 ≤ j) : (statusWord st).getLsbD j = false :=
  Nat.testBit_lt_two_pow ((statusWord_toNat_lt st).trans_le (Nat.pow_le_pow_right (by decide) hj))

/-- Settles O19: the host reads `statusWord`, whose bits are known one by one. -/
theorem statusReadShowsFaultAndSign : Obligations.StatusReadShowsFaultAndSign := fun s _ hp =>
  ⟨statusWord s.status, step_of_pending hp, statusWord_bit0 _, statusWord_bit1 _, fun _ => statusWord_high _⟩

/-- After a reset no register is valid (R36). -/
theorem softReset_none_valid (s : State) :
    (∀ k, k < 256 → ∃ r, (softReset s).f[k]? = some r ∧ r.valid = false) ∧
    (∀ k, k < 16 → ∃ r, (softReset s).pt[k]? = some r ∧ r.valid = false) :=
  ⟨fun _ hk => ⟨_, softReset_fieldReg s hk, rfl⟩, fun _ hk => ⟨_, softReset_pointReg s hk, rfl⟩⟩

/-- Settles O20: both reset events are `softReset`, and the power-on state is a reset state. -/
theorem resetLeavesResetValues : Obligations.ResetLeavesResetValues := by
  refine ⟨fun s e rest hp he => ?_, ?_⟩
  · obtain ⟨hfields, hpoints⟩ := softReset_none_valid (s.takeEvent rest)
    exact ⟨_, (step_of_pending hp).trans (hostAccess_of_isReset he _), rfl, rfl, rfl, rfl, hfields, hpoints,
      rfl, rfl, rfl, rfl, rfl⟩
  · obtain ⟨hfields, hpoints⟩ := softReset_none_valid { State.reset with draws := 0 }
    rw [← reset_eq_softReset] at hfields hpoints
    exact ⟨rfl, rfl, rfl, rfl, hfields, hpoints, rfl, rfl, rfl, rfl⟩

/-- Settles O22: the power-on state is a reset state with the table of the spec. -/
theorem resetMeetsInvariant : Obligations.ResetMeetsInvariant := by
  unfold Obligations.ResetMeetsInvariant
  rw [reset_eq_softReset]
  exact softReset_inv rfl

end Sys2Proof.Machine
end

section
/-! SUPPORT. The host's accesses to the buffers and the registers: which exist, what a read returns, and what a write
of a register stores (spec/20_memory.md R62, R67 to R75). -/

namespace Sys2Proof.Machine

/-! ### Which accesses exist (R67) -/

theorem hostIndexed_of_lt {i size : Nat} (h : i < size) (access : Host.Outcome State Fault Refusal) :
    hostIndexed i size access = access := if_pos h

theorem hostIndexed_of_le {i size : Nat} (h : size ≤ i) (access : Host.Outcome State Fault Refusal) :
    hostIndexed i size access = .refused .noSuchAccess := if_neg (Nat.not_lt.mpr h)

/-- An indexed access within the size has a next state when the access itself has one. -/
theorem hostIndexed_hasNext {i size : Nat} (h : decide (size ≤ i) = false) (t : State) :
    ∃ u, hostIndexed i size (.next t) = .next u :=
  ⟨t, hostIndexed_of_lt (Nat.not_le.mp (of_decide_eq_false h)) _⟩

/-- A write to `CMD` always has a next state: it is ignored, or its command completes or faults (R90, R284, R286). -/
theorem issue_hasNext (w : Word) (s : State) : ∃ t, issue w s = .next t := by
  unfold issue
  split
  · exact ⟨_, rfl⟩
  · split
    · next i _ => exact ⟨_, exec_eq_complete i _⟩
    · exact ⟨_, rfl⟩

theorem hostAccess_of_isAbsent {e : HostEvent} (h : e.isAbsent = true) (s : State) :
    hostAccess e s = .refused .noSuchAccess := by
  cases e with
  | readMsg | writeMsg | readDst | writeDst | readXout | readF | writeF | readPt | writePt =>
    exact hostIndexed_of_le (of_decide_eq_true h) _
  | writeXout | writeK => rfl
  | _ => cases h

theorem hostAccess_hasNext {e : HostEvent} (h : e.isAbsent = false) (s : State) :
    ∃ t, hostAccess e s = .next t := by
  cases e with
  | readMsg | writeMsg | readDst | writeDst | readXout | readF | writeF | readPt | writePt =>
    exact hostIndexed_hasNext h _
  | writeXout | writeK => cases h
  | writeCmd w => exact issue_hasNext w s
  | _ => exact ⟨_, rfl⟩

/-- Settles O15: an absent access is refused whatever the state, and every other event has a next state. -/
theorem onlyAbsentAccessesAreRefused : Obligations.OnlyAbsentAccessesAreRefused := by
  intro s e rest hp
  rw [step_of_pending hp]
  exact ⟨fun h => hostAccess_of_isAbsent h _, fun h => hostAccess_hasNext h _⟩

/-! ### Reads (R62, R73) -/

theorem HostEvent.not_isRead_of_isReset {e : HostEvent} (h : e.isReset = true) : e.isRead = false := by
  cases e with
  | assertRst | writeCtrl => rfl
  | _ => cases h

/-- A read changes nothing but the value returned. -/
theorem hostAccess_of_isRead {e : HostEvent} {s t : State} (he : e.isRead = true) (h : hostAccess e s = .next t) :
    t = { s with returned := t.returned } := by
  cases hostEffect_of_hostAccess h with
  | read | ignored => rfl
  | reset hr => exact absurd (he.symm.trans (HostEvent.not_isRead_of_isReset hr)) (by decide)
  | command | msgLen | dstLen | msgByte | dstByte | fieldReg | pointReg => cases he

/-- Settles O9: a read leaves the state it read from in place, so the same read made again is the same step. -/
theorem hostReadsHaveNoSideEffect : Obligations.HostReadsHaveNoSideEffect := by
  intro s t e rest hp he hst
  have haccess : hostAccess e (s.takeEvent rest) = .next t := step_of_pending hp ▸ hst
  have hsame : t = { s with pending := rest, returned := t.returned } := hostAccess_of_isRead he haccess
  refine ⟨hsame, fun u hu => ?_⟩
  have hback : State.takeEvent { t with pending := e :: rest } rest = s.takeEvent rest := by rw [hsame]; rfl
  rw [step_of_pending rfl, hback, haccess] at hu
  cases hu
  rfl

/-- What a host read of a field register returns (R73). -/
theorem hostFieldValue_of_getElem? {s : State} {k : Nat} {r : FieldReg} (h : s.f[k]? = some r) :
    ∃ x, hostFieldValue s k = .field r.valid x ∧ (r.valid = true → x = r.val) := by
  unfold hostFieldValue
  rw [h]
  cases hv : r.valid with
  | true => exact ⟨r.val, by simp [hv], fun _ => rfl⟩
  | false => exact ⟨Config.freeField s.draws k, by simp [hv], nofun⟩

/-- What a host read of a point register returns (R73). -/
theorem hostPointValue_of_getElem? {s : State} {k : Nat} {r : PointReg} (h : s.pt[k]? = some r) :
    ∃ q, hostPointValue s k = .point q ∧ q.valid = r.valid ∧ (r.valid = true → q = r) := by
  unfold hostPointValue
  rw [h]
  cases hv : r.valid with
  | true => exact ⟨r, by simp [hv], hv, fun _ => rfl⟩
  | false => exact ⟨emptyPointReg s.draws k, by simp [hv], rfl, nofun⟩

/-- Settles O14: a register that is held exists, so the read returns what the register file gives. -/
theorem hostRegisterReadReturnsHeldValue : Obligations.HostRegisterReadReturnsHeldValue := by
  refine ⟨fun s k r rest hp hr => ?_, fun s k r rest hp hr => ?_⟩
  · obtain ⟨hk, _⟩ := Vector.getElem?_eq_some_iff.mp hr
    obtain ⟨x, hx, hval⟩ := hostFieldValue_of_getElem? (s := s.takeEvent rest) hr
    refine ⟨x, ?_, hval⟩
    rw [step_of_pending hp, hostAccess, hostIndexed_of_lt hk, hx]
    rfl
  · obtain ⟨hk, _⟩ := Vector.getElem?_eq_some_iff.mp hr
    obtain ⟨q, hq, hvalid, hall⟩ := hostPointValue_of_getElem? (s := s.takeEvent rest) hr
    refine ⟨q, ?_, hvalid, hall⟩
    rw [step_of_pending hp, hostAccess, hostIndexed_of_lt hk, hq]
    rfl

/-! ### Buffer bytes (R62, R67, R68, R75) -/

theorem step_writeDst {s : State} {i : Nat} {b : Byte} {rest : List HostEvent} (hi : i < 255)
    (hp : s.pending = .writeDst i b :: rest) :
    step s = .next { s with pending := rest, returned := .nothing, dst := s.dst.write i b } :=
  (step_of_pending hp).trans (hostIndexed_of_lt hi _)

theorem step_readDst {s : State} {j : Nat} {rest : List HostEvent} (hj : j < 255)
    (hp : s.pending = .readDst j :: rest) :
    step s = .next { s with pending := rest, returned := .byte (s.dst.read .dst j) } :=
  (step_of_pending hp).trans (hostIndexed_of_lt hj _)

/-- Settles O10: the tag byte read after the write is `memoryRead_write`; each other access is its step equation. -/
theorem bufferByteReadsBackLastWrite : Obligations.BufferByteReadsBackLastWrite := by
  refine ⟨fun s i j b rest hi hj hp => ?_, fun s i b rest hp => step_of_pending hp,
    fun s j rest hp => step_of_pending hp, fun m i j b => memoryRead_write m .msg i j b,
    fun s j rest hp => ⟨step_of_pending hp, fun hj => if_pos hj⟩⟩
  refine ⟨_, _, step_writeDst hi hp, step_readDst hj rfl, ?_⟩
  exact congrArg HostValue.byte (memoryRead_write s.dst .dst i j b)

/-! ### Register writes (R71, R72) -/

/-- Settles O12: the two branches of `hostWriteField`. -/
theorem hostFieldWriteStoresOrInvalidates : Obligations.HostFieldWriteStoresOrInvalidates := by
  intro s k v rest hk hp
  have hstep : step s = .next (hostWriteField k v (s.takeEvent rest)) :=
    (step_of_pending hp).trans (hostIndexed_of_lt hk _)
  rw [hstep, hostWriteField]
  refine ⟨fun hv => ?_, fun hv => ?_⟩
  · rw [if_pos hv, State.writeField, BitVec.ofNat_toNat, BitVec.setWidth_eq]
    rfl
  · rw [if_neg (Nat.not_lt.mpr hv)]
    exact ⟨_, _, rfl⟩

/-- The curve equation of G1, without the reductions the field operations make on the way (R250). -/
theorem onCurve_fqOps_iff (b x y : Nat) :
    onCurve fqOps b x y = true ↔ y ^ 2 % fieldP = (x ^ 3 + b) % fieldP := by
  have hlhs : fqSqr y = y ^ 2 % fieldP := by rw [fqSqr, fqMul, pow_two]
  have hrhs : curveRhs fqOps b x = (x ^ 3 + b) % fieldP := by
    change (x * x % fieldP * x % fieldP + b) % fieldP = _
    rw [Nat.mod_add_mod, Nat.add_mod, Nat.mod_mul_mod, ← Nat.add_mod, ← pow_two, ← pow_succ]
  rw [← hlhs, ← hrhs]
  exact beq_iff_eq

/-- The curve equation of G2 (R250). -/
theorem onCurve_fq2Ops_iff (b x y : Fq2) :
    onCurve fq2Ops b x y = true ↔ fq2Sqr y = fq2Add (fq2Mul (fq2Sqr x) x) b := beq_iff_eq

/-- `wellformed` of R72, condition by condition. -/
theorem wellFormed_iff (k : Consts) (valid : Bool) (grp : Group) (inf : Bool) (x0 x1 y0 y1 : Wide) :
    PointReg.wellFormed k ⟨valid, grp, inf, x0, x1, y0, y1⟩ = true ↔
      (x0.toNat < fieldP ∧ x1.toNat < fieldP ∧ y0.toNat < fieldP ∧ y1.toNat < fieldP) ∧
      (grp = .g1 → x1 = 0 ∧ y1 = 0) ∧
      (inf = true → x0 = 0 ∧ x1 = 0 ∧ y0 = 0 ∧ y1 = 0) ∧
      (inf = false → grp = .g1 → y0.toNat ^ 2 % fieldP = (x0.toNat ^ 3 + k.b1) % fieldP) ∧
      (inf = false → grp = .g2 →
        fq2Sqr ⟨y0.toNat, y1.toNat⟩ =
          fq2Add (fq2Mul (fq2Sqr ⟨x0.toNat, x1.toNat⟩) ⟨x0.toNat, x1.toNat⟩) k.b2) := by
  rw [← onCurve_fqOps_iff, ← onCurve_fq2Ops_iff]
  unfold PointReg.wellFormed
  rw [Bool.and_eq_true, Bool.and_eq_true, decide_eq_true_eq, and_assoc]
  refine and_congr_right fun _ => ?_
  cases inf with
  | true => cases grp <;> simp [and_assoc]
  | false => cases grp <;> simp

/-- A host write of a point register stores the fields and whether they are well formed (R72). -/
theorem hostWritePoint_eq (k : Nat) (grp : Group) (inf : Bool) (x0 x1 y0 y1 : Wide) (s : State) :
    ∃ d, hostWritePoint k grp inf x0 x1 y0 y1 s =
      { s.setPointReg k ⟨PointReg.wellFormed s.k ⟨true, grp, inf, x0, x1, y0, y1⟩, grp, inf, x0, x1, y0, y1⟩ with
        draws := d } := by
  simp only [hostWritePoint]
  cases PointReg.wellFormed s.k ⟨true, grp, inf, x0, x1, y0, y1⟩
  · exact ⟨_, rfl⟩
  · exact ⟨s.draws, rfl⟩

/-- Settles O13: the valid bit stored is `wellformed` of the fields, which `wellFormed_iff` spells out. -/
theorem hostPointWriteSetsValidWhenWellFormed : Obligations.HostPointWriteSetsValidWhenWellFormed := by
  intro s k grp inf x0 x1 y0 y1 rest hk hp
  obtain ⟨d, hd⟩ := hostWritePoint_eq k grp inf x0 x1 y0 y1 (s.takeEvent rest)
  have hstep : step s = .next (hostWritePoint k grp inf x0 x1 y0 y1 (s.takeEvent rest)) :=
    (step_of_pending hp).trans (hostIndexed_of_lt hk _)
  rw [hd] at hstep
  exact ⟨_, d, hstep, wellFormed_iff s.k true grp inf x0 x1 y0 y1⟩

end Sys2Proof.Machine
end

section
/-! SUPPORT. The encoding: the fields of a word, the decoder and the encoder as inverses of each other, the rows of the
opcode map, and the issue of a command (spec/30_encoding.md R90 to R96). -/

namespace Sys2Proof

/-! ### The four fields of a word (R91) -/

theorem opField_lt (w : Word) : opField w < 256 := Nat.div_lt_of_lt_mul w.isLt
theorem aField_lt (w : Word) : aField w < 256 := Nat.mod_lt _ (by decide)
theorem bField_lt (w : Word) : bField w < 256 := Nat.mod_lt _ (by decide)
theorem cField_lt (w : Word) : cField w < 256 := Nat.mod_lt _ (by decide)

/-- A word is made of its four fields, and no bit is left over. -/
theorem wordOfFields_fields (w : Word) : wordOfFields (opField w) (aField w) (bField w) (cField w) = w := by
  apply BitVec.eq_of_toNat_eq
  have hw : w.toNat < 4294967296 := w.isLt
  simp only [wordOfFields, opField, aField, bField, cField, BitVec.toNat_ofNat]
  omega

theorem word_eq_iff_fields {w v : Word} :
    w = v ↔ opField w = opField v ∧ aField w = aField v ∧ bField w = bField v ∧ cField w = cField v := by
  refine ⟨fun h => by simp [h], fun ⟨hop, ha, hb, hc⟩ => ?_⟩
  rw [← wordOfFields_fields w, ← wordOfFields_fields v, hop, ha, hb, hc]

section
variable {op a b c : Nat}

/-- Four bytes side by side do not carry into each other. -/
theorem toNat_wordOfFields (hop : op < 256) (ha : a < 256) (hb : b < 256) (hc : c < 256) :
    (wordOfFields op a b c).toNat = op * 16777216 + a * 65536 + b * 256 + c := by
  rw [wordOfFields, BitVec.toNat_ofNat]
  omega

theorem opField_wordOfFields (hop : op < 256) (ha : a < 256) (hb : b < 256) (hc : c < 256) :
    opField (wordOfFields op a b c) = op := by
  rw [opField, toNat_wordOfFields hop ha hb hc]
  omega

theorem aField_wordOfFields (hop : op < 256) (ha : a < 256) (hb : b < 256) (hc : c < 256) :
    aField (wordOfFields op a b c) = a := by
  rw [aField, toNat_wordOfFields hop ha hb hc]
  omega

theorem bField_wordOfFields (hop : op < 256) (ha : a < 256) (hb : b < 256) (hc : c < 256) :
    bField (wordOfFields op a b c) = b := by
  rw [bField, toNat_wordOfFields hop ha hb hc]
  omega

theorem cField_wordOfFields (hop : op < 256) (ha : a < 256) (hb : b < 256) (hc : c < 256) :
    cField (wordOfFields op a b c) = c := by
  rw [cField, toNat_wordOfFields hop ha hb hc]
  omega

end

/-- `len16` is the two low bytes (R93). -/
theorem len16Field_eq (w : Word) : len16Field w = bField w * 256 + cField w := by
  simp only [len16Field, bField, cField]
  omega

/-! ### The operands of a command as the bytes of its word (R92, R93) -/

/-- The bytes `a`, `b` and `c` of the command's word. -/
def Instr.fields : Instr → Nat × Nat × Nat
  | .expand n => (0, n / 256, n % 256)
  | .h2f fd count => (fd, 0, count)
  | .sgn0 fs | .sgn0e fs => (0, fs, 0)
  | .map1 pd fs | .map2 pd fs => (pd, fs, 0)
  | .psi pd ps | .clrcof pd ps => (pd, ps, 0)
  | .hashg1 pd | .hashg2 pd | .encg2 pd => (pd, 0, 0)

theorem encode_eq_wordOfFields (i : Instr) :
    encode i = wordOfFields (opcodeOf i) i.fields.1 i.fields.2.1 i.fields.2.2 := by cases i <;> rfl

theorem opcodeOf_lt (i : Instr) : opcodeOf i < 256 := by cases i <;> simp [opcodeOf]

/-- A command is well formed when each of its bytes is one. -/
theorem wf_iff_fields_lt (i : Instr) :
    i.wf = true ↔ i.fields.1 < 256 ∧ i.fields.2.1 < 256 ∧ i.fields.2.2 < 256 := by
  cases i with
  | expand n => simp only [Instr.wf, Instr.fields, fitsLen16, decide_eq_true_eq]; omega
  | _ => simp [Instr.wf, Instr.fields, fitsByte]

/-! ### The decoder and the encoder -/

theorem whenZero_eq_ok {op mbz : Nat} {i j : Instr} : whenZero op mbz i = .ok j ↔ mbz = 0 ∧ i = j := by
  unfold whenZero
  split <;> simp [*]

/-- What the decoder reads: the command whose opcode and bytes are those of the word. -/
theorem decode_eq_ok_iff {w : Word} {i : Instr} :
    decode w = .ok i ↔ opField w = opcodeOf i ∧ i.fields = (aField w, bField w, cField w) := by
  have hlen := len16Field_eq w
  have hc := cField_lt w
  constructor
  · intro h
    unfold decode at h
    split at h
    case h_12 => cases h
    case h_1 hop =>
      obtain ⟨ha, rfl⟩ := whenZero_eq_ok.mp h
      simp only [Instr.fields, opcodeOf, hop, ha, Prod.mk.injEq, true_and]
      omega
    all_goals
      rename_i hop
      obtain ⟨hz, rfl⟩ := whenZero_eq_ok.mp h
      simpa [Instr.fields, opcodeOf, hop, eq_comm] using hz
  · rintro ⟨hop, hf⟩
    cases i with
    | expand n =>
      obtain ⟨ha, hb, hc'⟩ : 0 = aField w ∧ n / 256 = bField w ∧ n % 256 = cField w := by
        simpa [Instr.fields] using hf
      have hn : len16Field w = n := by omega
      simp [decode, hop, opcodeOf, whenZero, ← ha, hn]
    | _ =>
      simp only [Instr.fields, Prod.mk.injEq] at hf
      obtain ⟨ha, hb, hc'⟩ := hf
      simp [decode, hop, opcodeOf, whenZero, ← ha, ← hb, ← hc']

/-- Settles O1: the encoder puts the opcode and the bytes where the decoder reads them. -/
theorem decodeInvertsEncode : Obligations.DecodeInvertsEncode := by
  intro i hwf
  obtain ⟨ha, hb, hc⟩ := (wf_iff_fields_lt i).mp hwf
  have hop := opcodeOf_lt i
  rw [decode_eq_ok_iff, encode_eq_wordOfFields, opField_wordOfFields hop ha hb hc, aField_wordOfFields hop ha hb hc,
    bField_wordOfFields hop ha hb hc, cField_wordOfFields hop ha hb hc]
  exact ⟨rfl, rfl⟩

/-- Settles O2: the bytes of the command are fields of the word, and the word is made of its fields. -/
theorem encodeInvertsDecode : Obligations.EncodeInvertsDecode := by
  intro w i h
  obtain ⟨hop, hf⟩ := decode_eq_ok_iff.mp h
  rw [wf_iff_fields_lt, encode_eq_wordOfFields, ← hop, hf]
  exact ⟨⟨aField_lt w, bField_lt w, cField_lt w⟩, wordOfFields_fields w⟩

/-! ### The words of the assembler table (R96) -/

theorem decode_of_encode_eq {i : Instr} {w : Word} (hwf : i.wf = true) (hw : encode i = w) : decode w = .ok i :=
  hw ▸ decodeInvertsEncode i hwf

theorem fitsByte_of_le {v : Nat} (h : v ≤ 255) : fitsByte v = true := decide_eq_true (Nat.lt_succ_of_le h)

theorem fitsByte_and_of_le {u v : Nat} (hu : u ≤ 255) (hv : v ≤ 255) : (fitsByte u && fitsByte v) = true := by
  rw [fitsByte_of_le hu, fitsByte_of_le hv, Bool.and_self]

/-- Settles O3: the word of each form is the encoding of a command that is well formed within the form's bounds. -/
theorem decodeReadsAssemblerWords : Obligations.DecodeReadsAssemblerWords := by
  refine ⟨fun n hn => ?expand, fun d n hd hn => ?h2f, fun s hs => ?sgn0, fun s hs => ?sgn0e, fun d s hd hs => ?map1,
    fun d s hd hs => ?map2, fun d s hd hs => ?psi, fun d s hd hs => ?clrcof, fun d hd => ?hashg1, fun d hd => ?hashg2,
    fun d hd => ?encg2⟩
  case expand =>
    have hwf : fitsLen16 n = true := decide_eq_true (Nat.lt_succ_of_le hn)
    exact decode_of_encode_eq hwf (congrArg (BitVec.ofNat 32) (by omega))
  case h2f => exact decode_of_encode_eq (fitsByte_and_of_le hd hn) (congrArg (BitVec.ofNat 32) (by omega))
  case sgn0 | sgn0e => exact decode_of_encode_eq (fitsByte_of_le hs) (congrArg (BitVec.ofNat 32) (by omega))
  case map1 | map2 | psi | clrcof => exact decode_of_encode_eq (fitsByte_and_of_le hd hs) rfl
  case hashg1 | hashg2 | encg2 => exact decode_of_encode_eq (fitsByte_of_le hd) rfl

/-- Settles O5: eleven closed words, evaluated. -/
theorem sampleWordsDecode : Obligations.SampleWordsDecode := by
  unfold Obligations.SampleWordsDecode
  decide

/-! ### The rows of the opcode map (R94) -/

/-- Masking a word masks each of its fields. -/
theorem fields_and (w m : Word) :
    opField (w &&& m) = opField w &&& opField m ∧ aField (w &&& m) = aField w &&& aField m ∧
      bField (w &&& m) = bField w &&& bField m ∧ cField (w &&& m) = cField w &&& cField m := by
  have hdiv (x y k : Nat) : (x &&& y) / 2 ^ k = x / 2 ^ k &&& y / 2 ^ k := Nat.and_div_two_pow
  have hmod (x y : Nat) : (x &&& y) % 2 ^ 8 = x % 2 ^ 8 &&& y % 2 ^ 8 := Nat.and_mod_two_pow
  simp only [opField, aField, bField, cField, BitVec.toNat_and]
  refine ⟨hdiv _ _ 24, ?_, ?_, hmod _ _⟩
  · exact (congrArg (· % 2 ^ 8) (hdiv _ _ 16)).trans (hmod _ _)
  · exact (congrArg (· % 2 ^ 8) (hdiv _ _ 8)).trans (hmod _ _)

/-- The byte of a row's mask over one field: all ones where the format wants a zero, nothing where it has an operand. -/
def maskByte (mustBeZero : Bool) : Nat := if mustBeZero then 255 else 0

theorem maskByte_lt (z : Bool) : maskByte z < 256 := by cases z <;> decide

theorem and_maskByte_eq_zero {v : Nat} (hv : v < 256) (z : Bool) : v &&& maskByte z = 0 ↔ (z = true → v = 0) := by
  cases z with
  | false => simp [maskByte]
  | true =>
    have hones : v &&& 255 = v := Nat.and_two_pow_sub_one_of_lt_two_pow (n := 8) hv
    simp [maskByte, hones]

/-- Which of the fields `a`, `b`, `c` must be zero in the command's format (R92). -/
def Instr.zeroFields : Instr → Bool × Bool × Bool
  | .expand _ => (true, false, false)
  | .h2f _ _ => (false, true, false)
  | .sgn0 _ | .sgn0e _ => (true, false, true)
  | .map1 _ _ | .map2 _ _ | .psi _ _ | .clrcof _ _ => (false, false, true)
  | .hashg1 _ | .hashg2 _ | .encg2 _ => (false, true, true)

/-- The encoder leaves those fields zero. -/
theorem fields_zero_of_zeroFields (i : Instr) :
    (i.zeroFields.1 = true → i.fields.1 = 0) ∧ (i.zeroFields.2.1 = true → i.fields.2.1 = 0) ∧
      (i.zeroFields.2.2 = true → i.fields.2.2 = 0) := by
  cases i <;> simp [Instr.zeroFields, Instr.fields]

/-- The row of the opcode map for the command, from its opcode and its format. -/
def rowOf (i : Instr) : OpcodeRow :=
  ⟨mnemonicOf i, wordOfFields 255 (maskByte i.zeroFields.1) (maskByte i.zeroFields.2.1) (maskByte i.zeroFields.2.2),
    wordOfFields (opcodeOf i) 0 0 0⟩

/-- A word selects a command's row when it has the command's opcode and the zero fields of its format. -/
theorem rowOf_selects_iff (i : Instr) (w : Word) :
    (rowOf i).selects w = true ↔ opField w = opcodeOf i ∧ (i.zeroFields.1 = true → aField w = 0) ∧
      (i.zeroFields.2.1 = true → bField w = 0) ∧ (i.zeroFields.2.2 = true → cField w = 0) := by
  have hones : opField w &&& 255 = opField w := Nat.and_two_pow_sub_one_of_lt_two_pow (n := 8) (opField_lt w)
  have hop := opcodeOf_lt i
  have h0 : 0 < 256 := by decide
  have h255 : 255 < 256 := by decide
  have hza := maskByte_lt i.zeroFields.1
  have hzb := maskByte_lt i.zeroFields.2.1
  have hzc := maskByte_lt i.zeroFields.2.2
  obtain ⟨hand, handa, handb, handc⟩ := fields_and w (rowOf i).mask
  rw [OpcodeRow.selects, beq_iff_eq, word_eq_iff_fields, hand, handa, handb, handc]
  simp only [rowOf, opField_wordOfFields, aField_wordOfFields, bField_wordOfFields, cField_wordOfFields, hop, hza, hzb, hzc,
    h0, h255, hones, and_maskByte_eq_zero, aField_lt, bField_lt, cField_lt]

theorem opcodeRows_eq_map : opcodeRows = [.expand 0, .h2f 0 0, .sgn0 0, .sgn0e 0, .map1 0 0, .map2 0 0, .psi 0 0,
    .clrcof 0 0, .hashg1 0, .hashg2 0, .encg2 0].map rowOf := by decide

/-- Every row is some command's row. -/
theorem exists_rowOf_eq {r : OpcodeRow} (hr : r ∈ opcodeRows) : ∃ i, rowOf i = r := by
  rw [opcodeRows_eq_map] at hr
  obtain ⟨i, _, hi⟩ := List.mem_map.mp hr
  exact ⟨i, hi⟩

theorem rowOf_mem (i : Instr) : rowOf i ∈ opcodeRows := by
  rw [opcodeRows_eq_map]
  cases i <;> simp [rowOf, mnemonicOf, opcodeOf, Instr.zeroFields]

/-- No two rows have the same mnemonic. -/
theorem row_eq_of_mnemonic_eq : ∀ r₁ ∈ opcodeRows, ∀ r₂ ∈ opcodeRows, r₁.mnemonic = r₂.mnemonic → r₁ = r₂ := by decide

/-- A word the decoder reads selects the row of the command read. -/
theorem rowOf_selects_of_decode {w : Word} {i : Instr} (h : decode w = .ok i) : (rowOf i).selects w = true := by
  obtain ⟨hop, hf⟩ := decode_eq_ok_iff.mp h
  have hz := fields_zero_of_zeroFields i
  rw [hf] at hz
  exact (rowOf_selects_iff i w).mpr ⟨hop, hz⟩

/-- From a word that selects a row the decoder reads a command of that row. -/
theorem decode_of_rowOf_selects {w : Word} {i : Instr} (h : (rowOf i).selects w = true) :
    ∃ j, decode w = .ok j ∧ rowOf j = rowOf i := by
  obtain ⟨hop, ha, hb, hc⟩ := (rowOf_selects_iff i w).mp h
  have hread {j : Instr} (hj : opcodeOf j = opcodeOf i) (hf : j.fields = (aField w, bField w, cField w)) :
      decode w = .ok j := decode_eq_ok_iff.mpr ⟨hop.trans hj.symm, hf⟩
  cases i with
  | expand =>
    refine ⟨.expand (bField w * 256 + cField w), hread rfl ?_, rfl⟩
    have hlow := cField_lt w
    simp only [Instr.fields, ha rfl, Prod.mk.injEq, true_and]
    omega
  | h2f => exact ⟨.h2f (aField w) (cField w), hread rfl (by rw [hb rfl]; rfl), rfl⟩
  | sgn0 => exact ⟨.sgn0 (bField w), hread rfl (by rw [ha rfl, hc rfl]; rfl), rfl⟩
  | sgn0e => exact ⟨.sgn0e (bField w), hread rfl (by rw [ha rfl, hc rfl]; rfl), rfl⟩
  | map1 => exact ⟨.map1 (aField w) (bField w), hread rfl (by rw [hc rfl]; rfl), rfl⟩
  | map2 => exact ⟨.map2 (aField w) (bField w), hread rfl (by rw [hc rfl]; rfl), rfl⟩
  | psi => exact ⟨.psi (aField w) (bField w), hread rfl (by rw [hc rfl]; rfl), rfl⟩
  | clrcof => exact ⟨.clrcof (aField w) (bField w), hread rfl (by rw [hc rfl]; rfl), rfl⟩
  | hashg1 => exact ⟨.hashg1 (aField w), hread rfl (by rw [hb rfl, hc rfl]; rfl), rfl⟩
  | hashg2 => exact ⟨.hashg2 (aField w), hread rfl (by rw [hb rfl, hc rfl]; rfl), rfl⟩
  | encg2 => exact ⟨.encg2 (aField w), hread rfl (by rw [hb rfl, hc rfl]; rfl), rfl⟩

/-- Settles O4: a word selects a row exactly when the decoder reads a command of the row, and it reads at most one. -/
theorem opcodeRowsSelectOneCommand : Obligations.OpcodeRowsSelectOneCommand := by
  have hread {w : Word} {r : OpcodeRow} (hr : r ∈ opcodeRows) (h : r.selects w = true) :
      ∃ i, decode w = .ok i ∧ rowOf i = r := by
    obtain ⟨i, rfl⟩ := exists_rowOf_eq hr
    exact decode_of_rowOf_selects h
  refine ⟨fun w r₁ r₂ hr₁ hr₂ h₁ h₂ => ?_, fun w r hr => ⟨fun h => ?_, fun ⟨i, hi, hm⟩ => ?_⟩⟩
  · obtain ⟨i, hi, rfl⟩ := hread hr₁ h₁
    obtain ⟨j, hj, rfl⟩ := hread hr₂ h₂
    cases hi.symm.trans hj
    rfl
  · obtain ⟨i, hi, rfl⟩ := hread hr h
    exact ⟨i, hi, rfl⟩
  · rw [← row_eq_of_mnemonic_eq _ (rowOf_mem i) r hr hm]
    exact rowOf_selects_of_decode hi

end Sys2Proof

namespace Sys2Proof.Machine

/-! ### The issue of a command (R90, R286) -/

section
variable {w : Word} {s : State}

theorem issue_of_fault (h : s.status.fault = true) : issue w s = .next s := if_pos h

theorem issue_of_decode_ok (h : s.status.fault = false) {i : Instr} (hi : decode w = .ok i) :
    issue w s = exec i { s with cmd := w } := by simp [issue, h, hi]

theorem issue_of_decode_error (h : s.status.fault = false) {e : DecodeReject} (he : decode w = .error e) :
    issue w s = .next (raiseFault .illegalCmd { s with cmd := w }) := by simp [issue, h, he]

end

/-- Settles O6: the step hands the word to `issue`, which has these three cases. -/
theorem stepIssuesCommand : Obligations.StepIssuesCommand := by
  intro s w rest hp
  have hstep : step s = issue w (s.takeEvent rest) := step_of_pending hp
  rw [hstep]
  exact ⟨fun h => issue_of_fault (s := s.takeEvent rest) h, fun h _ hi => issue_of_decode_ok (s := s.takeEvent rest) h hi,
    fun h _ he => issue_of_decode_error (s := s.takeEvent rest) h he⟩

end Sys2Proof.Machine
end

section
/-! SUPPORT. The expander: the bytes of an expansion, and how `EXPAND` completes or faults (spec/40_xmd.md R122 to R125;
spec/20_memory.md R62, R75). -/

namespace Sys2Proof.Machine

/-! ### The blocks of an expansion (R122, R123) -/

/-- The byte string `b_0` hashes, with its pieces written out (R122). -/
theorem msgPrime_eq (msg dst : List Byte) (n : Nat) :
    msgPrime msg dst n =
      List.replicate 64 0 ++ msg ++ [BitVec.ofNat 8 (n / 256), BitVec.ofNat 8 n] ++ [0] ++ dst ++
        [BitVec.ofNat 8 dst.length] := by
  have hbe2 : be2 n = [BitVec.ofNat 8 (n / 256), BitVec.ofNat 8 n] := by simp [be2, bigEndian, byteOf]
  rw [msgPrime, hbe2, dstPrime, ← List.append_assoc]
  rfl

/-- A block has a digest's length (R123). -/
theorem xmdBlock_succ_length (b0 dst' : List Byte) (i : Nat) : (xmdBlock b0 dst' (i + 1)).length = 32 := by
  cases i <;> exact sha256_length _

/-- If `mixed` is what block `i + 1` hashes before its counter byte, byte `j` of the blocks from there on is byte
`j mod 32` of the block `j / 32` places further (R123). -/
theorem xmdBlocks_getElem? {b0 dst' mixed : List Byte} {count i j : Nat}
    (hmixed : xmdBlock b0 dst' (i + 1) = sha256 (mixed ++ [byteOf (i + 1)] ++ dst')) (hj : j < 32 * count) :
    (xmdBlocks b0 dst' count (i + 1) mixed)[j]? = (xmdBlock b0 dst' (i + 1 + j / 32))[j % 32]? := by
  induction count generalizing i j mixed with
  | zero => omega
  | succ count ih =>
    have hlen := xmdBlock_succ_length b0 dst' i
    simp only [xmdBlocks, ← hmixed]
    by_cases hfirst : j < 32
    · rw [List.getElem?_append_left (by omega), Nat.div_eq_of_lt hfirst, Nat.mod_eq_of_lt hfirst, Nat.add_zero]
    · have hnext : i + 1 + 1 + (j - 32) / 32 = i + 1 + j / 32 := by omega
      have hbyte : (j - 32) % 32 = j % 32 := by omega
      rw [List.getElem?_append_right (by omega), hlen, ih rfl (by omega), hnext, hbyte]

/-- Settles O31: the expansion is the first `n` bytes of the blocks from `b_1` on, and `b_1` hashes `b_0` first. -/
theorem expansionIsChainedDigests : Obligations.ExpansionIsChainedDigests := by
  intro msg dst out n h
  refine ⟨expandXmd_length h, fun j hj => ?_⟩
  obtain ⟨_, _, rfl⟩ := expandXmd_ok.mp h
  have hcount : j < 32 * ceilDiv n 32 := by
    have hc : ceilDiv n 32 = (n + 31) / 32 := rfl
    omega
  rw [List.getElem?_take_of_lt hj, xmdBlocks_getElem? (i := 0) rfl hcount, xmdFirstHash, msgPrime_eq, Nat.zero_add,
    Nat.add_comm 1]
  rfl

/-! ### `EXPAND` (R125) -/

/-- The expansion cannot fail where the command's own checks pass (R121, R125). -/
theorem expandXmd_of_bounds {s : State} {n : Nat} (hn : n ≤ 8160) (htag : s.dstLen.toNat ≤ 255) :
    ∃ out, expandXmd (messageOf s) (tagOf s) n = .ok out :=
  ⟨_, expandXmd_ok.mpr ⟨hn, (tagOf_length s).trans_le htag, rfl⟩⟩

theorem writeXout_xoutLen_toNat (s : State) (out : List Byte) {n : Nat} (hn : n ≤ 8160) :
    (s.writeXout out n).xoutLen.toNat = n := by
  rw [writeXout_xoutLen, BitVec.toNat_ofNat]
  omega

/-- The host finds every byte written to `XOUT` below the new `XOUT_LEN` (R75). -/
theorem getElem?_eq_hostXoutByte_writeXout (s : State) {out : List Byte} {n j : Nat} (hn : n ≤ 8160)
    (hout : out.length = n) (hj : j < n) : out[j]? = some (hostXoutByte (s.writeXout out n) j) := by
  have hbyte : out[j]? = some out[j] := List.getElem?_eq_getElem _
  rw [hostXoutByte, writeXout_xoutLen_toNat s out hn, if_pos hj, writeXout_xout, Memory.read, cellsRead_ofBytes, hbyte]
  rfl

theorem step_readXout {s : State} {j : Nat} {rest : List HostEvent} (hj : j < 8160)
    (hp : s.pending = .readXout j :: rest) :
    step s = .next { s with pending := rest, returned := .byte (hostXoutByte s j) } :=
  (step_of_pending hp).trans (hostIndexed_of_lt hj _)

/-- Settles O29: the state reached is that of `runExpand_ok`, and the host reads what `writeXout` wrote. -/
theorem expandCompletes : Obligations.ExpandCompletes := by
  intro s n hmsg hn htag
  obtain ⟨out, hout⟩ := expandXmd_of_bounds hn htag
  have hlen : out.length = n := expandXmd_length hout
  have hrun : runCommand (.expand n) s = .ok (s.writeXout out n) :=
    runExpand_ok.mpr ⟨hmsg, hn, htag, out, hout, rfl⟩
  have hbyte (j : Nat) (hj : j < n) := getElem?_eq_hostXoutByte_writeXout s hn hlen hj
  refine ⟨out, s.writeXout out n, hout, hlen, exec_of_ok hrun, writeXout_xoutLen_toNat s out hn, hbyte,
    fun j rest hj => ⟨_, hbyte j hj, step_readXout (hj.trans_le hn) rfl⟩, rfl⟩

/-- The faults of `EXPAND n`: the first of the operand, the length and the tag cause that applies (R125, R295). -/
theorem runExpand_error {n : Nat} {s : State} {c : Cause} :
    runExpand n s = .error c ↔
      (s.msgLen.toNat > Config.msgMax.toNat ∧ c = .operand) ∨
      (s.msgLen.toNat ≤ Config.msgMax.toNat ∧ n > 8160 ∧ c = .cfgLenTooLarge) ∨
      (s.msgLen.toNat ≤ Config.msgMax.toNat ∧ n ≤ 8160 ∧ s.dstLen.toNat > 255 ∧ c = .cfgDstTooLong) := by
  simp only [runExpand, except_bind_error, checkMessageLength_error, checkMessageLength_ok, checkExpansionLength_error,
    checkExpansionLength_ok, checkTagLength_error, checkTagLength_ok, expandXmd_error, tagOf_length, exists_const,
    reduceCtorEq, and_false, or_false]
  constructor
  · rintro (h | ⟨hmsg, h | ⟨hn, ⟨htag, hc⟩ | ⟨htag, ⟨_, hn'⟩ | ⟨_, _, htag'⟩⟩⟩⟩)
    · exact .inl h
    · exact .inr (.inl ⟨hmsg, h⟩)
    · exact .inr (.inr ⟨hmsg, hn, htag, hc⟩)
    · exact absurd hn (Nat.not_le.mpr hn')
    · exact absurd htag (Nat.not_le.mpr htag')
  · rintro (h | ⟨hmsg, h⟩ | ⟨hmsg, hn, h⟩)
    · exact .inl h
    · exact .inr ⟨hmsg, .inl h⟩
    · exact .inr ⟨hmsg, .inr ⟨hn, .inl h⟩⟩

/-- Settles O30: one case of `runExpand_error` per cause. -/
theorem expandFaultsInOrder : Obligations.ExpandFaultsInOrder := by
  intro s n h
  refine exec_of_error (runExpand_error.mpr ?_)
  by_cases hmsg : Config.msgMax.toNat < s.msgLen.toNat
  · exact .inl ⟨hmsg, if_pos hmsg⟩
  rw [if_neg hmsg]
  by_cases hn : 8160 < n
  · exact .inr (.inl ⟨Nat.not_lt.mp hmsg, hn, if_pos hn⟩)
  · have htag : 255 < s.dstLen.toNat := (h.resolve_left hmsg).resolve_left hn
    exact .inr (.inr ⟨Nat.not_lt.mp hmsg, Nat.not_lt.mp hn, htag, if_neg hn⟩)

end Sys2Proof.Machine
end

section
/-! SUPPORT. The field hasher: what the registers read after `H2F`, and how `H2F` completes or faults
(spec/41_hash_to_field.md R140 to R142). -/

namespace Sys2Proof.Machine

/-! ### The registers `H2F` writes (R141) -/

/-- Register `fd + j` reads back element `j`, which fits a register because it is below `P` (R18, R22). -/
theorem readField_writeFields {us : List Nat} {fd j u : Nat} (s : State) (h : fd + us.length ≤ 256)
    (hus : ∀ v ∈ us, v < fieldP) (hu : us[j]? = some u) : (s.writeFields fd us).readField (fd + j) = some u := by
  obtain ⟨hj, rfl⟩ := List.getElem?_eq_some_iff.mp hu
  have hin : fd ≤ fd + j ∧ fd + j < fd + us.length := by omega
  refine readField_eq_some.mpr ⟨⟨true, BitVec.ofNat 256 us[j]⟩, ?_, rfl,
    toNat_ofNat_of_lt_fieldP (hus _ (List.getElem_mem hj))⟩
  rw [fieldReg_writeFields us s fd _ h, dif_pos hin]
  simp only [Nat.add_sub_cancel_left]

/-- A register outside the destination range is as before. -/
theorem fieldReg_writeFields_outside {us : List Nat} {fd j : Nat} (s : State) (h : fd + us.length ≤ 256)
    (hj : j < fd ∨ fd + us.length ≤ j) : (s.writeFields fd us).f[j]? = s.f[j]? := by
  rw [fieldReg_writeFields us s fd j h, dif_neg (by omega)]

/-- The writes change the field file only. -/
theorem writeFields_eq_with_f (s : State) (fd : Nat) (us : List Nat) :
    s.writeFields fd us = { s with f := (s.writeFields fd us).f } := by
  induction us generalizing s fd with
  | nil => rfl
  | cons u us ih => exact ih (s.writeField fd u) (fd + 1)

/-! ### How `H2F` completes (R140, R141) -/

/-- The field hash as `H2F` takes it with the constants of the spec: the windows of the expansion modulo `P`. -/
theorem hashToField_of_expandXmd {s : State} (hk : s.k = constTable) {count : Nat} {e : List Byte}
    (he : expandXmd (messageOf s) (tagOf s) (48 * count) = .ok e) :
    hashToField s.k.p (messageOf s) (tagOf s) count = .ok ((List.range count).map (windowElement fieldP e)) := by
  have hp : s.k.p = fieldP := congrArg Consts.p hk
  exact hashToField_ok.mpr ⟨e, he, by rw [hp]⟩

/-- After the windows of `e` are written, register `fd + j` reads window `j` modulo `P`. -/
theorem readField_writeFields_windows (s : State) (e : List Byte) {fd count j : Nat} (h : fd + count ≤ 256)
    (hj : j < count) :
    (s.writeFields fd ((List.range count).map (windowElement fieldP e))).readField (fd + j) =
      some (windowElement fieldP e j) := by
  refine readField_writeFields s (by simpa using h) (fun v hv => ?_) (by simp [hj])
  obtain ⟨i, _, rfl⟩ := List.mem_map.mp hv
  exact Nat.mod_lt _ fieldP_pos

/-- Settles O32: the state reached is that of `runH2f_ok`, and the registers read what `writeFields` wrote. -/
theorem h2fCompletes : Obligations.H2fCompletes := by
  intro s fd count hk hfd hmsg hcount htag
  obtain ⟨e, he⟩ := expandXmd_of_bounds (n := 48 * count) (by omega) htag
  have hus := hashToField_of_expandXmd hk he
  have hrun : runCommand (.h2f fd count) s = .ok (s.writeFields fd _) :=
    runH2f_ok.mpr ⟨hfd, hmsg, hcount, htag, _, hus, rfl⟩
  refine ⟨e, _, he, exec_of_ok hrun, fun j hj => readField_writeFields_windows s e hfd hj, fun j hj => ?_,
    writeFields_eq_with_f _ _ _⟩
  rw [← hashToField_length hus] at hfd hj
  exact fieldReg_writeFields_outside s hfd hj

/-! ### Range and determinism (R142) -/

/-- A command that does not end in the fault state has completed, for a fault sets `STATUS.FAULT` (R284). -/
theorem runCommand_ok_of_no_fault {i : Instr} {s t : State} (h : exec i s = .next t) (hf : t.status.fault = false) :
    runCommand i s = .ok t := by
  rcases exec_cases h with hrun | ⟨c, _, rfl⟩
  · exact hrun
  · cases hf

/-- The registers after a completed `H2F` read the windows of the expansion modulo `P`, so they depend on the message,
the tag and the count alone. -/
theorem h2f_readField {s t : State} {fd count : Nat} (hk : s.k = constTable) (h : exec (.h2f fd count) s = .next t)
    (hf : t.status.fault = false) :
    ∃ e, expandXmd (messageOf s) (tagOf s) (48 * count) = .ok e ∧
      ∀ j, j < count → t.readField (fd + j) = some (windowElement fieldP e j) := by
  obtain ⟨hfd, _, _, _, us, hus, rfl⟩ := runH2f_ok.mp (runCommand_ok_of_no_fault h hf)
  obtain ⟨e, he, _⟩ := hashToField_ok.mp hus
  obtain rfl := Except.ok.inj (hus.symm.trans (hashToField_of_expandXmd hk he))
  exact ⟨e, he, fun j hj => readField_writeFields_windows s e hfd hj⟩

/-- Settles O34: both runs read the windows of one expansion, and a window's element is a residue modulo `P`. -/
theorem h2fOutputsCanonicalAndDetermined : Obligations.H2fOutputsCanonicalAndDetermined := by
  intro s t fd count hk _ hexec hclear
  obtain ⟨e, he, hread⟩ := h2f_readField hk hexec hclear
  refine ⟨fun j hj => ⟨_, hread j hj, Nat.mod_lt _ fieldP_pos⟩, ?_⟩
  intro s' t' fd' hk' hmsg htag _ hexec' hclear' j hj
  obtain ⟨e', he', hread'⟩ := h2f_readField hk' hexec' hclear'
  rw [hmsg, htag] at he'
  obtain rfl := Except.ok.inj (he'.symm.trans he)
  exact (hread' j hj).trans (hread j hj).symm

/-! ### The faults of `H2F` (R141) -/

/-- The faults of `H2F Fd, count`: the first of the operand, the length and the tag cause that applies (R141, R295). -/
theorem runH2f_error {fd count : Nat} {s : State} {c : Cause} :
    runH2f fd count s = .error c ↔
      ((256 < fd + count ∨ Config.msgMax.toNat < s.msgLen.toNat) ∧ c = .operand) ∨
      (fd + count ≤ 256 ∧ s.msgLen.toNat ≤ Config.msgMax.toNat ∧ 170 < count ∧ c = .cfgLenTooLarge) ∨
      (fd + count ≤ 256 ∧ s.msgLen.toNat ≤ Config.msgMax.toNat ∧ count ≤ 170 ∧ 255 < s.dstLen.toNat ∧
        c = .cfgDstTooLong) := by
  have hle : windowBytes * count ≤ 8160 ↔ count ≤ 170 := by unfold windowBytes; omega
  have hgt : windowBytes * count > 8160 ↔ 170 < count := by unfold windowBytes; omega
  have hgt' : 48 * count > 8160 ↔ 170 < count := by omega
  simp only [runH2f, except_bind_error, checkFieldRange_error, checkFieldRange_ok, checkMessageLength_error,
    checkMessageLength_ok, checkExpansionLength_error, checkExpansionLength_ok, checkTagLength_error, checkTagLength_ok,
    hashToField_error, expandXmd_error, tagOf_length, exists_const, reduceCtorEq, and_false, or_false, hle, hgt, hgt']
  constructor
  · rintro (⟨hfd, hc⟩ | ⟨hfd, ⟨hmsg, hc⟩ | ⟨hmsg, h | ⟨hcount, ⟨htag, hc⟩ | ⟨htag, ⟨_, hcount'⟩ | ⟨_, _, htag'⟩⟩⟩⟩⟩)
    · exact .inl ⟨.inl hfd, hc⟩
    · exact .inl ⟨.inr hmsg, hc⟩
    · exact .inr (.inl ⟨hfd, hmsg, h⟩)
    · exact .inr (.inr ⟨hfd, hmsg, hcount, htag, hc⟩)
    · exact absurd hcount (Nat.not_le.mpr hcount')
    · exact absurd htag (Nat.not_le.mpr htag')
  · rintro (⟨hop, hc⟩ | ⟨hfd, hmsg, h⟩ | ⟨hfd, hmsg, hcount, h⟩)
    · rcases Nat.lt_or_ge 256 (fd + count) with hfd | hfd
      · exact .inl ⟨hfd, hc⟩
      · exact .inr ⟨hfd, .inl ⟨hop.resolve_left (Nat.not_lt.mpr hfd), hc⟩⟩
    · exact .inr ⟨hfd, .inr ⟨hmsg, .inl h⟩⟩
    · exact .inr ⟨hfd, .inr ⟨hmsg, .inr ⟨hcount, .inl h⟩⟩⟩

/-- Settles O33: one case of `runH2f_error` per cause. -/
theorem h2fFaultsInOrder : Obligations.H2fFaultsInOrder := by
  intro s fd count h
  refine exec_of_error (runH2f_error.mpr ?_)
  by_cases hop : 256 < fd + count ∨ Config.msgMax.toNat < s.msgLen.toNat
  · exact .inl ⟨hop, if_pos hop⟩
  rw [if_neg hop]
  obtain ⟨hfd, hmsg⟩ := not_or.mp hop
  by_cases hcount : 170 < count
  · exact .inr (.inl ⟨Nat.not_lt.mp hfd, Nat.not_lt.mp hmsg, hcount, if_pos hcount⟩)
  · have htag : 255 < s.dstLen.toNat := ((h.resolve_left hfd).resolve_left hmsg).resolve_left hcount
    exact .inr (.inr ⟨Nat.not_lt.mp hfd, Nat.not_lt.mp hmsg, Nat.not_lt.mp hcount, htag, if_neg hcount⟩)

end Sys2Proof.Machine
end

section
/-! SUPPORT. The sign function: the sign of a negative, and how `SGN0` and `SGN0E` complete or fault
(spec/42_sgn0.md R150 to R154). -/

namespace Sys2Proof.Machine

/-! ### The sign of a value (R150, R151) -/

theorem sgn0Fq_eq_decide (x : Nat) : sgn0Fq x = decide (x % 2 = 1) := rfl

theorem sgn0Fq2_of_c0_eq_zero {x : Fq2} (h : x.c0 = 0) : sgn0Fq2 x = sgn0Fq x.c1 := if_neg (not_not.mpr h)

theorem sgn0Fq2_of_c0_ne_zero {x : Fq2} (h : x.c0 ≠ 0) : sgn0Fq2 x = sgn0Fq x.c0 := if_pos h

/-- The sign of a pair is one parity, taken of `c1` exactly when `c0` is zero. -/
theorem sgn0Fq2_eq_decide (x : Fq2) : sgn0Fq2 x = decide ((if x.c0 = 0 then x.c1 else x.c0) % 2 = 1) := by
  by_cases h : x.c0 = 0
  · rw [sgn0Fq2_of_c0_eq_zero h, if_pos h, sgn0Fq_eq_decide]
  · rw [sgn0Fq2_of_c0_ne_zero h, if_neg h, sgn0Fq_eq_decide]

/-! ### The sign of a negative (R154) -/

theorem fieldP_odd : fieldP % 2 = 1 := by decide

theorem fqNeg_zero : fqNeg 0 = 0 := by decide

/-- The negative of a nonzero canonical element is `P - y`, again nonzero (R154, R231). -/
theorem fqNeg_of_ne_zero {y : Nat} (hy : y < fieldP) (h0 : y ≠ 0) : fqNeg y = fieldP - y := by
  have hneg : fieldP - y < fieldP := Nat.sub_lt fieldP_pos (Nat.pos_of_ne_zero h0)
  rw [fqNeg, Nat.mod_eq_of_lt hy, Nat.mod_eq_of_lt hneg]

theorem fqNeg_ne_zero {y : Nat} (hy : y < fieldP) (h0 : y ≠ 0) : fqNeg y ≠ 0 := by
  rw [fqNeg_of_ne_zero hy h0]
  exact Nat.sub_ne_zero_of_lt hy

/-- `y` and `P - y` add up to the odd `P`, so exactly one of them is odd (R154). -/
theorem sgn0Fq_fqNeg {y : Nat} (hy : y < fieldP) (h0 : y ≠ 0) : sgn0Fq (fqNeg y) = !sgn0Fq y := by
  have hparity : (fieldP - y) % 2 = 1 ↔ ¬ y % 2 = 1 := by
    have hodd := fieldP_odd
    omega
  rw [fqNeg_of_ne_zero hy h0, sgn0Fq_eq_decide, sgn0Fq_eq_decide, ← decide_not]
  exact decide_eq_decide.mpr hparity

/-- Negation keeps which part decides the sign: it takes zero to zero and nonzero to nonzero (R151, R154). -/
theorem sgn0Fq2_fq2Neg {y : Fq2} (hy : canonicalFq2 y) (h0 : y ≠ ⟨0, 0⟩) : sgn0Fq2 (fq2Neg y) = !sgn0Fq2 y := by
  obtain ⟨c0, c1⟩ := y
  obtain ⟨hc0, hc1⟩ := hy
  by_cases hz : c0 = 0
  · subst hz
    have h1 : c1 ≠ 0 := fun h => h0 (by rw [h])
    have hneg : (fq2Neg ⟨0, c1⟩).c0 = 0 := fqNeg_zero
    rw [sgn0Fq2_of_c0_eq_zero hneg, sgn0Fq2_of_c0_eq_zero rfl]
    exact sgn0Fq_fqNeg hc1 h1
  · have hneg : (fq2Neg ⟨c0, c1⟩).c0 ≠ 0 := fqNeg_ne_zero hc0 hz
    rw [sgn0Fq2_of_c0_ne_zero hneg, sgn0Fq2_of_c0_ne_zero hz]
    exact sgn0Fq_fqNeg hc0 hz

/-- Settles O37: `sgn0Fq_fqNeg` and `sgn0Fq2_fq2Neg`; the negative of zero is zero. -/
theorem negationFlipsSign : Obligations.NegationFlipsSign :=
  ⟨fun _ => sgn0Fq_fqNeg, fun _ => sgn0Fq2_fq2Neg, by decide, by decide, by decide, by decide⟩

/-! ### How `SGN0` and `SGN0E` complete or fault (R152, R153) -/

theorem runSgn0_error {fs : Nat} {s : State} {c : Cause} :
    runSgn0 fs s = .error c ↔ s.readField fs = none ∧ c = .operand := by
  simp only [runSgn0, except_bind_error, fieldOperand_error, reduceCtorEq, and_false, exists_const, or_false]

theorem runSgn0e_error {fs : Nat} {s : State} {c : Cause} :
    runSgn0e fs s = .error c ↔
      c = .operand ∧ (255 ≤ fs ∨ s.readField fs = none ∨ s.readField (fs + 1) = none) := by
  simp only [runSgn0e, except_bind_error, pairOperand_error, reduceCtorEq, and_false, exists_const, or_false]

/-- Settles O35: a valid register is the case of `runSgn0_ok`, any other that of `runSgn0_error`. -/
theorem sgn0Completes : Obligations.Sgn0Completes := by
  refine ⟨fun s fs x hx => ?_, fun s fs hnone => exec_of_error (runSgn0_error.mpr ⟨hnone, rfl⟩)⟩
  rw [← sgn0Fq_eq_decide]
  exact exec_of_ok (runSgn0_ok.mpr ⟨x, hx, rfl⟩)

/-- Settles O36: a valid pair is the case of `runSgn0e_ok`, anything else that of `runSgn0e_error`. -/
theorem sgn0eCompletes : Obligations.Sgn0eCompletes := by
  refine ⟨fun s fs c0 c1 hfs h0 h1 => ?_, fun s fs hbad => exec_of_error (runSgn0e_error.mpr ⟨rfl, hbad⟩)⟩
  have hpair : pairOperand s fs = .ok ⟨c0, c1⟩ := pairOperand_ok.mpr ⟨hfs, h0, h1⟩
  rw [← sgn0Fq2_eq_decide ⟨c0, c1⟩]
  exact exec_of_ok (runSgn0e_ok.mpr ⟨_, hpair, rfl⟩)

end Sys2Proof.Machine
end

section
/-! SUPPORT. The base-field prime `P` is a prime number, by Lucas' test (spec/00_scope.md R9). The powers are computed
in the proof and not by `decide`. -/

namespace Sys2Proof.Machine

/-- Lucas' test for a number whose predecessor has no prime factors but those listed. -/
theorem prime_of_lucas {p : Nat} (a : ZMod p) (fs : List Nat) (k : Nat) (hprime : ∀ q ∈ fs, q.Prime)
    (hfactors : p - 1 ∣ fs.prod ^ k) (hone : a ^ (p - 1) = 1) (hne : ∀ q ∈ fs, a ^ ((p - 1) / q) ≠ 1) :
    p.Prime := by
  refine lucas_primality p a hone fun q hq hdvd => ?_
  obtain ⟨f, hf, hqf⟩ := hq.prime.dvd_prod_iff.mp (hq.dvd_of_dvd_pow (hdvd.trans hfactors))
  obtain rfl := (Nat.prime_dvd_prime_iff_eq hq (hprime f hf)).mp hqf
  exact hne q hf

/-! The prime factors of `P - 1` that are too large for trial division, each after those of its own predecessor. -/

theorem prime_405928799 : Nat.Prime 405928799 := by
  refine prime_of_lucas 22 [2, 11, 3691, 4999] 1 (by norm_num) (by norm_num) (by reduce_mod_char) ?_
  simp only [List.forall_mem_cons, Nat.reduceSub, Nat.reduceDiv]
  reduce_mod_char
  decide

theorem prime_11465965001 : Nat.Prime 11465965001 := by
  refine prime_of_lucas 3 [2, 5, 7, 327599] 4 (by norm_num) (by norm_num) (by reduce_mod_char) ?_
  simp only [List.forall_mem_cons, Nat.reduceSub, Nat.reduceDiv]
  reduce_mod_char
  decide

theorem prime_173171039 : Nat.Prime 173171039 := by
  refine prime_of_lucas 13 [2, 73, 89, 13327] 1 (by norm_num) (by norm_num) (by reduce_mod_char) ?_
  simp only [List.forall_mem_cons, Nat.reduceSub, Nat.reduceDiv]
  reduce_mod_char
  decide

theorem prime_1263766531 : Nat.Prime 1263766531 := by
  refine prime_of_lucas 10 [2, 3, 5, 13, 911, 3557] 1 (by norm_num) (by norm_num) (by reduce_mod_char) ?_
  simp only [List.forall_mem_cons, Nat.reduceSub, Nat.reduceDiv]
  reduce_mod_char
  decide

theorem prime_35385462869 : Nat.Prime 35385462869 := by
  refine prime_of_lucas 2 [2, 7, 1263766531] 2 ?_ (by norm_num) (by reduce_mod_char) ?_
  · simp only [List.forall_mem_cons, prime_1263766531]
    norm_num
  · simp only [List.forall_mem_cons, Nat.reduceSub, Nat.reduceDiv]
    reduce_mod_char
    decide

theorem prime_2480874801745591 : Nat.Prime 2480874801745591 := by
  refine prime_of_lucas 6 [2, 3, 5, 19, 41, 35385462869] 2 ?_ (by norm_num) (by reduce_mod_char) ?_
  · simp only [List.forall_mem_cons, prime_35385462869]
    norm_num
  · simp only [List.forall_mem_cons, Nat.reduceSub, Nat.reduceDiv]
    reduce_mod_char
    decide

theorem prime_13427688667394608761327070753331941386769 : Nat.Prime 13427688667394608761327070753331941386769 := by
  refine prime_of_lucas 17 [2, 3, 7, 11, 1853641, 4562087, 173171039, 2480874801745591] 4 ?_ (by norm_num)
    (by reduce_mod_char) ?_
  · simp only [List.forall_mem_cons, prime_173171039, prime_2480874801745591]
    norm_num
  · simp only [List.forall_mem_cons, Nat.reduceSub, Nat.reduceDiv]
    reduce_mod_char
    decide

/-- `P` is prime (R9). -/
theorem fieldP_prime : fieldP.Prime := by
  unfold fieldP
  refine prime_of_lucas 3 [2, 3, 13, 29, 67, 229, 311, 983, 11003, 405928799, 11465965001,
    13427688667394608761327070753331941386769] 2 ?_ (by norm_num) (by reduce_mod_char) ?_
  · simp only [List.forall_mem_cons, prime_405928799, prime_11465965001,
      prime_13427688667394608761327070753331941386769]
    norm_num
  · simp only [List.forall_mem_cons, Nat.reduceSub, Nat.reduceDiv]
    reduce_mod_char
    decide

end Sys2Proof.Machine
end

section
/-! SUPPORT. The field collaborators as fields: the base field reads as the integers modulo `P`, the extension field as
the quadratic algebra over them with `i^2 = -1` (spec/49_collaborators.md R230 to R246). -/

namespace Sys2Proof.Machine

/-! ### The base field (R230 to R236) -/

/-- The field `Fq` of R230. -/
abbrev Fq : Type := ZMod fieldP

theorem natCast_fqAdd (a b : Nat) : (fqAdd a b : Fq) = a + b := by simp [fqAdd]

theorem natCast_fqNeg (a : Nat) : (fqNeg a : Fq) = -a := by
  have hle : a % fieldP ≤ fieldP := (Nat.mod_lt a fieldP_pos).le
  simp [fqNeg, Nat.cast_sub hle]

theorem natCast_fqSub (a b : Nat) : (fqSub a b : Fq) = a - b := by
  have hle : b % fieldP ≤ fieldP := (Nat.mod_lt b fieldP_pos).le
  simp [fqSub, Nat.cast_sub hle, sub_eq_add_neg]

theorem natCast_fqMul (a b : Nat) : (fqMul a b : Fq) = a * b := by simp [fqMul]

theorem natCast_fqSqr (a : Nat) : (fqSqr a : Fq) = a ^ 2 := by rw [fqSqr, natCast_fqMul, pow_two]

theorem natCast_fqPow (a e : Nat) : (fqPow a e : Fq) = (a : Fq) ^ e := by
  induction e using Nat.strong_induction_on with
  | _ e ih =>
    obtain ⟨n, rfl | rfl⟩ := Nat.even_or_odd' e
    · by_cases hn : n = 0
      · subst hn
        simp [fqPow, bitsOf]
      · rw [fqPow_double a hn, natCast_fqSqr, ih n (by omega), ← pow_mul, mul_comm]
    · rw [fqPow_double_add_one, natCast_fqMul, natCast_fqSqr, ih n (by omega), ← pow_mul, mul_comm n 2, pow_succ]

/-- A canonical representative is determined by its residue. -/
theorem natCast_fq_inj {a b : Nat} (ha : a < fieldP) (hb : b < fieldP) : (a : Fq) = b ↔ a = b := by
  rw [ZMod.natCast_eq_natCast_iff', Nat.mod_eq_of_lt ha, Nat.mod_eq_of_lt hb]

theorem natCast_fq_eq_zero {a : Nat} (ha : a < fieldP) : (a : Fq) = 0 ↔ a = 0 := by
  rw [← Nat.cast_zero, natCast_fq_inj ha fieldP_pos]

theorem natCast_fqInv0 [Fact fieldP.Prime] (a : Nat) : (fqInv0 a : Fq) = 1 / (a : Fq) := by
  have hexp : fieldP - 1 = (fieldP - 2) + 1 := by decide
  rw [fqInv0, natCast_fqPow]
  by_cases h : (a : Fq) = 0
  · rw [h, div_zero, zero_pow (by decide)]
  · rw [eq_div_iff h, ← pow_succ, ← hexp, ZMod.pow_card_sub_one_eq_one h]

/-- Euler's criterion (R234). -/
theorem fqIsSquare_iff [Fact fieldP.Prime] (a : Nat) : fqIsSquare a = true ↔ IsSquare (a : Fq) := by
  have hhalf : (fieldP - 1) / 2 = fieldP / 2 := by decide
  have hneg : ((fieldP - 1 : Nat) : Fq) = -1 := by rw [Nat.cast_pred fieldP_pos, ZMod.natCast_self, zero_sub]
  have : Fact (2 < fieldP) := ⟨by decide⟩
  have hone : (-1 : Fq) ≠ 1 := ZMod.neg_one_ne_one
  have htest : fqIsSquare a = true ↔ (a : Fq) ^ (fieldP / 2) ≠ -1 := by
    rw [fqIsSquare, bne_iff_ne, ne_eq, ← natCast_fq_inj (fqPow_lt _ _) (by decide), natCast_fqPow, hneg, hhalf]
  rw [htest]
  by_cases h : (a : Fq) = 0
  · have hzero : (0 : Fq) ^ (fieldP / 2) ≠ -1 := by
      rw [zero_pow (by decide)]
      exact (neg_ne_zero.mpr one_ne_zero).symm
    exact iff_of_true (h ▸ hzero) (h ▸ IsSquare.zero)
  · rw [ZMod.euler_criterion fieldP h]
    have hsign := ZMod.pow_div_two_eq_neg_one_or_one fieldP h
    constructor
    · exact hsign.resolve_right
    · intro h1
      rw [h1]
      exact hone.symm

/-- The root of the reference realization exists for every square, because `P mod 4 = 3` (R236). -/
theorem fqRefRoot_of_isSquare [Fact fieldP.Prime] {a : Nat} (ha : a < fieldP) (h : IsSquare (a : Fq)) :
    ∃ r, fqRefRoot a = some r := by
  refine ⟨_, if_pos ?_⟩
  rw [← natCast_fq_inj (a := fqSqr _) (fqMul_lt _ _) ha, natCast_fqSqr, natCast_fqPow]
  by_cases h0 : (a : Fq) = 0
  · rw [h0, zero_pow (by decide), zero_pow two_ne_zero]
  · have hexp : (fieldP + 1) / 4 * 2 = fieldP / 2 + 1 := by decide
    rw [← pow_mul, hexp, pow_succ, (ZMod.euler_criterion fieldP h0).mp h, one_mul]

/-- `-1` has no root modulo `P`, because `P mod 4 = 3` (R240). -/
theorem not_isSquare_neg_one [Fact fieldP.Prime] : ¬ IsSquare (-1 : Fq) := by
  rw [ZMod.exists_sq_eq_neg_one_iff, not_not]
  decide

/-- The product of two nonsquares is a square. -/
theorem isSquare_mul_of_not [Fact fieldP.Prime] {a b : Fq} (ha : ¬ IsSquare a) (hb : ¬ IsSquare b) :
    IsSquare (a * b) := by
  by_contra h
  rw [← quadraticChar_neg_one_iff_not_isSquare] at ha hb h
  rw [map_mul, ha, hb] at h
  exact absurd h (by decide)

/-! ### The extension field (R240 to R246) -/

/-- The field `Fq[i] / (i^2 + 1)` of R240. -/
abbrev FqI : Type := QuadraticAlgebra Fq (-1) 0

/-- The element `c0 + c1·i` a pair stands for (R240). -/
def toFqI (a : Fq2) : FqI := ⟨a.c0, a.c1⟩

theorem toFqI_re (a : Fq2) : (toFqI a).re = a.c0 := rfl

theorem toFqI_im (a : Fq2) : (toFqI a).im = a.c1 := rfl

theorem toFqI_inj {a b : Fq2} (ha : canonicalFq2 a) (hb : canonicalFq2 b) : toFqI a = toFqI b ↔ a = b := by
  obtain ⟨a0, a1⟩ := a
  obtain ⟨b0, b1⟩ := b
  rw [QuadraticAlgebra.ext_iff, Fq2.mk.injEq]
  exact and_congr (natCast_fq_inj ha.1 hb.1) (natCast_fq_inj ha.2 hb.2)

theorem toFqI_fq2Add (a b : Fq2) : toFqI (fq2Add a b) = toFqI a + toFqI b :=
  QuadraticAlgebra.ext (natCast_fqAdd _ _) (natCast_fqAdd _ _)

theorem toFqI_fq2Sub (a b : Fq2) : toFqI (fq2Sub a b) = toFqI a - toFqI b :=
  QuadraticAlgebra.ext (natCast_fqSub _ _) (natCast_fqSub _ _)

theorem toFqI_fq2Neg (a : Fq2) : toFqI (fq2Neg a) = -toFqI a :=
  QuadraticAlgebra.ext (natCast_fqNeg _) (natCast_fqNeg _)

theorem toFqI_fq2Mul (a b : Fq2) : toFqI (fq2Mul a b) = toFqI a * toFqI b := by
  ext
  · simp only [toFqI_re, toFqI_im, fq2Mul, natCast_fqSub, natCast_fqMul, QuadraticAlgebra.re_mul]
    ring
  · simp only [toFqI_re, toFqI_im, fq2Mul, natCast_fqAdd, natCast_fqMul, QuadraticAlgebra.im_mul]
    ring

theorem toFqI_fq2Sqr (a : Fq2) : toFqI (fq2Sqr a) = toFqI a ^ 2 := by rw [fq2Sqr, toFqI_fq2Mul, pow_two]

theorem natCast_fq2Norm (a : Fq2) : (fq2Norm a : Fq) = QuadraticAlgebra.norm (toFqI a) := by
  rw [fq2Norm, natCast_fqAdd, natCast_fqSqr, natCast_fqSqr, QuadraticAlgebra.norm_def, toFqI_re, toFqI_im]
  ring

/-- `i^2 = -1` has no root in `Fq`, which makes the pairs a field (R240). -/
theorem fqI_irreducible [Fact fieldP.Prime] : Fact (∀ r : Fq, r ^ 2 ≠ -1 + 0 * r) := by
  refine ⟨fun r hr => not_isSquare_neg_one ⟨r, ?_⟩⟩
  rw [← pow_two, hr, zero_mul, add_zero]

theorem toFqI_fq2Inv0 [Fact fieldP.Prime] [Fact (∀ r : Fq, r ^ 2 ≠ -1 + 0 * r)] (a : Fq2) :
    toFqI (fq2Inv0 a) = (toFqI a)⁻¹ := by
  rw [QuadraticAlgebra.inv_def, ← natCast_fq2Norm, ← one_div, ← natCast_fqInv0]
  ext
  · simp only [toFqI_re, toFqI_im, fq2Inv0, natCast_fqMul, QuadraticAlgebra.re_smul, QuadraticAlgebra.re_star,
      smul_eq_mul]
    ring
  · simp only [toFqI_im, fq2Inv0, natCast_fqMul, natCast_fqNeg, QuadraticAlgebra.im_smul,
      QuadraticAlgebra.im_star, smul_eq_mul]
    ring

theorem fq2IsSquare_iff [Fact fieldP.Prime] (a : Fq2) :
    fq2IsSquare a = true ↔ IsSquare (QuadraticAlgebra.norm (toFqI a)) := by
  rw [fq2IsSquare, fqIsSquare_iff, natCast_fq2Norm]

end Sys2Proof.Machine
end

section
/-! SUPPORT. The square roots of the extension field: the complex method finds a root of every square, and what it finds
is a root (spec/49_collaborators.md R246). -/

namespace Sys2Proof.Machine

/-! ### The complex method (R246) -/

theorem two_ne_zero_fq : (2 : Fq) ≠ 0 := by
  have h := (natCast_fq_eq_zero (a := 2) (by decide)).mp.mt (by decide)
  exact_mod_cast h

theorem natCast_sq_of_fqRefRoot {v x : Nat} (h : fqRefRoot v = some x) : (x : Fq) ^ 2 = v := by
  rw [← natCast_fqSqr, (fqRefRoot_some h).2]

theorem natCast_sq_of_root_norm {a : Fq2} {n : Nat} (h : fqRefRoot (fq2Norm a) = some n) :
    (n : Fq) ^ 2 = (a.c0 : Fq) ^ 2 + (a.c1 : Fq) ^ 2 := by
  rw [natCast_sq_of_fqRefRoot h, fq2Norm, natCast_fqAdd, natCast_fqSqr, natCast_fqSqr]

section
variable [Fact fieldP.Prime]

theorem two_mul_natCast_fqHalf (v : Nat) : 2 * (fqMul v fqHalf : Fq) = v := by
  rw [natCast_fqMul, fqHalf, natCast_fqInv0, Nat.cast_ofNat, mul_one_div, mul_div_cancel₀ _ two_ne_zero_fq]

theorem two_mul_half_add (v n : Nat) : 2 * (fqMul (fqAdd v n) fqHalf : Fq) = v + n := by
  rw [two_mul_natCast_fqHalf, natCast_fqAdd]

theorem two_mul_half_sub (v n : Nat) : 2 * (fqMul (fqSub v n) fqHalf : Fq) = v - n := by
  rw [two_mul_natCast_fqHalf, natCast_fqSub]

/-- From a root `x0` of `(a0 + m) / 2`, where `m` is a root of the norm, the complex method completes a root of `a`. -/
theorem fq2RootFrom_of_root {a : Fq2} {x0 : Nat} {m : Fq} (ha : canonicalFq2 a) (h1 : (a.c1 : Fq) ≠ 0)
    (hm : m ^ 2 = (a.c0 : Fq) ^ 2 + (a.c1 : Fq) ^ 2) (hx : 2 * (x0 : Fq) ^ 2 = a.c0 + m) :
    ∃ r, fq2RootFrom a x0 = some r := by
  have h2 := two_ne_zero_fq
  have hx0 : (x0 : Fq) ≠ 0 := by
    intro h
    have hmc : m = -a.c0 := by
      rw [h] at hx
      linear_combination -hx
    refine h1 (pow_eq_zero_iff two_ne_zero |>.mp ?_)
    rw [hmc] at hm
    linear_combination -hm
  have hc1 : (fqMul a.c1 (fqInv0 (fqAdd x0 x0)) : Fq) = a.c1 / (2 * x0) := by
    rw [natCast_fqMul, natCast_fqInv0, natCast_fqAdd, mul_one_div, two_mul]
  refine ⟨_, if_pos ((toFqI_inj (fq2Mul_canonical _ _) ha).mp ?_)⟩
  rw [← fq2Sqr, toFqI_fq2Sqr, pow_two]
  ext
  · rw [QuadraticAlgebra.re_mul]
    simp only [toFqI_re, toFqI_im, hc1]
    field_simp
    linear_combination (2 * (x0 : Fq) ^ 2 + m - a.c0) * hx + hm
  · rw [QuadraticAlgebra.im_mul]
    simp only [toFqI_re, toFqI_im, hc1]
    field_simp
    ring

/-- Of `(a0 + n) / 2` and `(a0 - n) / 2`, with `n` a root of the norm of an element outside the base field, one is a
square: their product is `-(a1 / 2)^2`. -/
theorem isSquare_half_add_or_sub {a0 a1 n d d' : Fq} (h1 : a1 ≠ 0) (hn : n ^ 2 = a0 ^ 2 + a1 ^ 2)
    (hd : 2 * d = a0 + n) (hd' : 2 * d' = a0 - n) : IsSquare d ∨ IsSquare d' := by
  by_contra hnot
  obtain ⟨h, h'⟩ := not_or.mp hnot
  have hprod : 4 * (d * d') = -a1 ^ 2 := by linear_combination 2 * d' * hd + (a0 + n) * hd' - hn
  have hneg : (-1 : Fq) = d * d' * (2 / a1) ^ 2 := by
    field_simp
    linear_combination -hprod
  refine not_isSquare_neg_one ?_
  rw [hneg]
  exact (isSquare_mul_of_not h h').mul (IsSquare.sq _)

theorem fqRefRoot_none {a : Nat} (ha : a < fieldP) (h : fqRefRoot a = none) : ¬ IsSquare (a : Fq) := fun hsq => by
  obtain ⟨r, hr⟩ := fqRefRoot_of_isSquare ha hsq
  exact absurd (h.symm.trans hr) nofun

/-- The root of a square exists, in each case of the complex method (R246). -/
theorem fq2RefRoot_of_isSquare {a : Fq2} (ha : canonicalFq2 a) (h : fq2IsSquare a = true) :
    ∃ r, fq2RefRoot a = some r := by
  have hnormlt : fq2Norm a < fieldP := fqAdd_lt _ _
  have hnorm : IsSquare (fq2Norm a : Fq) := (fqIsSquare_iff _).mp h
  have hc1 : a.c1 ≠ 0 → (a.c1 : Fq) ≠ 0 := (natCast_fq_eq_zero ha.2).not.mpr
  fun_cases fq2RefRoot a with
  | case1 | case2 => exact ⟨_, rfl⟩
  | case3 _ _ hnone =>
    have hneg : IsSquare ((fqNeg a.c0 : Nat) : Fq) := by
      rw [natCast_fqNeg, neg_eq_neg_one_mul]
      exact isSquare_mul_of_not not_isSquare_neg_one (fqRefRoot_none ha.1 hnone)
    obtain ⟨r, hr⟩ := fqRefRoot_of_isSquare (fqNeg_lt _) hneg
    exact ⟨_, congrArg _ hr⟩
  | case4 _ _ hnone => exact absurd hnorm (fqRefRoot_none hnormlt hnone)
  | case5 _ h1 n hn x hx =>
    refine fq2RootFrom_of_root ha (hc1 h1) (natCast_sq_of_root_norm hn) ?_
    rw [natCast_sq_of_fqRefRoot hx, two_mul_half_add]
  | case6 _ h1 n hn _ x hx =>
    refine fq2RootFrom_of_root (m := -n) ha (hc1 h1) (by rw [neg_sq, natCast_sq_of_root_norm hn]) ?_
    rw [natCast_sq_of_fqRefRoot hx, two_mul_half_sub, sub_eq_add_neg]
  | case7 _ h1 n hn hnone hnone' =>
    have hone := isSquare_half_add_or_sub (hc1 h1) (natCast_sq_of_root_norm hn) (two_mul_half_add _ n)
      (two_mul_half_sub _ n)
    exact absurd hone (not_or.mpr ⟨fqRefRoot_none (fqMul_lt _ _) hnone, fqRefRoot_none (fqMul_lt _ _) hnone'⟩)

end

/-- The square of `x + y·i`, part by part (R242). -/
theorem fq2Sqr_mk_eq {a : Fq2} (ha : canonicalFq2 a) {x y : Nat} (h0 : (x : Fq) ^ 2 - (y : Fq) ^ 2 = a.c0)
    (h1 : 2 * (x : Fq) * y = a.c1) : fq2Sqr ⟨x, y⟩ = a := by
  rw [← toFqI_inj (a := fq2Sqr _) (fq2Mul_canonical _ _) ha, toFqI_fq2Sqr, pow_two]
  ext
  · rw [QuadraticAlgebra.re_mul, toFqI_re a, ← h0]
    simp only [toFqI_re, toFqI_im]
    ring
  · rw [QuadraticAlgebra.im_mul, toFqI_im a, ← h1]
    simp only [toFqI_re, toFqI_im]
    ring

/-- What the complex method answers is a root (R246). -/
theorem fq2RefRoot_sqr {a r : Fq2} (ha : canonicalFq2 a) (h : fq2RefRoot a = some r) : fq2Sqr r = a := by
  have hfrom : ∀ {x}, fq2RootFrom a x = some r → fq2Sqr r = a := fun hx => by
    simp only [fq2RootFrom, Option.ite_none_right_eq_some, Option.some.injEq] at hx
    obtain ⟨hsq, rfl⟩ := hx
    exact hsq
  revert h
  fun_cases fq2RefRoot a with
  | case1 h0 =>
    rintro ⟨⟩
    exact fq2Sqr_mk_eq ha (by simp [h0.1]) (by simp [h0.2])
  | case2 _ h1 x hx =>
    rintro ⟨⟩
    exact fq2Sqr_mk_eq ha (by simp [natCast_sq_of_fqRefRoot hx]) (by simp [h1])
  | case3 _ h1 _ =>
    intro h
    obtain ⟨x, hx, rfl⟩ := Option.map_eq_some_iff.mp h
    exact fq2Sqr_mk_eq ha (by simp [natCast_sq_of_fqRefRoot hx, natCast_fqNeg]) (by simp [h1])
  | case5 | case6 => exact hfrom
  | case4 | case7 => exact nofun

end Sys2Proof.Machine
end

section
/-! SUPPORT. The map over any field: the identity that makes the selection of R163 exhaustive, and from it that the map
answers a point of the curve for every input (spec/43_svdw_map.md R160, R165). -/

namespace Sys2Proof.Machine

/-! ### The identity of Shallue and van de Woestijne (R165) -/

section
variable {K : Type} [Field K]

/-- The product form of the identity: with `h = z^2 + z·v + v^2`, `G = g(z)` and `s·h = -G`, the three values of
`g(x) = x^3 + b` at `v`, `-z - v` and `z + s` are bound by `G·g(v)·g(-z - v) = -h^3·g(z + s)`. -/
theorem svdw_product {z v s b h G : K} (hh : h = z ^ 2 + z * v + v ^ 2) (hG : G = z ^ 3 + b) (hs : s * h = -G) :
    G * ((v ^ 3 + b) * ((-z - v) ^ 3 + b)) = -h ^ 3 * ((z + s) ^ 3 + b) := by
  have hb : b = G - z ^ 3 := by rw [hG]; ring
  have hexp : -h ^ 3 * ((z + s) ^ 3 + b) =
      -(h ^ 3 * G + 3 * z ^ 2 * h ^ 2 * (s * h) + 3 * z * h * (s * h) ^ 2 + (s * h) ^ 3) := by
    rw [hb]
    ring
  rw [hexp, hs, hb, hh]
  ring

/-- How the constants of the map are made from `Z` and the curve `y^2 = x^3 + b`; R11 and R12 give the values. -/
structure MapConsts.Svdw (c : MapConsts K) : Prop where
  two : (2 : K) ≠ 0
  three : 3 * c.z ^ 2 ≠ 0
  c1_ne : c.c1 ≠ 0
  c1 : c.z ^ 3 + c.b = c.c1
  c2 : c.c2 + c.c2 = -c.z
  c3 : c.c3 ^ 2 = -(3 * c.z ^ 2 * c.c1)
  c4 : c.c4 * (3 * c.z ^ 2) = -(4 * c.c1)

variable {c : MapConsts K} (hc : c.Svdw)
include hc

/-- The identity for candidates `C2 - w`, `C2 + w`, `Z + s`, where `w` and `s` depend on the input through `q` alone:
`g(x1)·g(x2) = e^2·g(x3)` with `e ≠ 0`. -/
theorem svdw_product_eq_sq_mul {w s q : K} (hq : q ≠ 0) (hw : 4 * w ^ 2 = 3 * c.z ^ 2 * (q ^ 2 - 1))
    (hs : s * q ^ 2 = c.c4) :
    ∃ e ≠ 0, ((c.c2 - w) ^ 3 + c.b) * ((c.c2 + w) ^ 3 + c.b) = e ^ 2 * ((c.z + s) ^ 3 + c.b) := by
  obtain ⟨two, three, c1_ne, hc1, hc2, hc3, hc4⟩ := hc
  obtain ⟨h, hh⟩ : ∃ h, h = c.z ^ 2 + c.z * (c.c2 - w) + (c.c2 - w) ^ 2 := ⟨_, rfl⟩
  have hc3_ne : c.c3 ≠ 0 := fun h0 =>
    neg_ne_zero.mpr (mul_ne_zero three c1_ne) (by rw [← hc3, h0, zero_pow two_ne_zero])
  have hh4 : 4 * h = 3 * c.z ^ 2 * q ^ 2 := by
    linear_combination 4 * hh + hw + (c.z + 2 * c.c2 - 4 * w) * hc2
  have hh_ne : h ≠ 0 := fun h0 => mul_ne_zero three (pow_ne_zero 2 hq) (by rw [← hh4, h0, mul_zero])
  have hsh : s * h = -c.c1 := by
    refine mul_left_cancel₀ (mul_ne_zero two two) ?_
    linear_combination s * hh4 + 3 * c.z ^ 2 * hs + hc4
  have hv : -c.z - (c.c2 - w) = c.c2 + w := by linear_combination -hc2
  have hprod := svdw_product hh hc1.symm hsh
  rw [hv] at hprod
  refine ⟨c.c3 * q * h / (2 * c.c1),
    div_ne_zero (mul_ne_zero (mul_ne_zero hc3_ne hq) hh_ne) (mul_ne_zero two c1_ne), ?_⟩
  have he : (c.c3 * q * h / (2 * c.c1)) ^ 2 * c.c1 = -h ^ 3 := by
    field_simp
    linear_combination q ^ 2 * hc3 + c.c1 * hh4
  refine mul_left_cancel₀ c1_ne ?_
  rw [hprod, ← he]
  ring

/-- Away from the poles the candidates of R162 are candidates of that shape, with `q = tv1 / tv2`. -/
theorem svdw_product_of_not_pole {u tv1 tv2 w : K} (htv1 : tv1 = 1 - c.c1 * u ^ 2) (htv2 : tv2 = 1 + c.c1 * u ^ 2)
    (hm : tv1 ≠ 0) (hp : tv2 ≠ 0) (hw : w = c.c3 * u * tv1 * (tv1 * tv2)⁻¹) :
    ∃ e ≠ 0, ((c.c2 - w) ^ 3 + c.b) * ((c.c2 + w) ^ 3 + c.b) =
      e ^ 2 * ((c.z + c.c4 * (tv2 ^ 2 * (tv1 * tv2)⁻¹) ^ 2) ^ 3 + c.b) := by
  refine svdw_product_eq_sq_mul hc (q := tv1 / tv2) (div_ne_zero hm hp) ?_ ?_
  · have hwtv2 : w * tv2 = c.c3 * u := by
      rw [hw]
      field_simp
    rw [div_pow]
    field_simp
    linear_combination 4 * (w * tv2 + c.c3 * u) * hwtv2 + 4 * u ^ 2 * hc.c3 -
      3 * c.z ^ 2 * (tv1 + tv2) * (htv1 - htv2) + 6 * c.z ^ 2 * c.c1 * u ^ 2 * (htv1 + htv2)
  · field_simp

end

/-! ### The operations of the map as those of a field (R161) -/

section
variable {α K : Type} [Field K]

/-- The dictionary `F` read in the field `K`: `φ` takes each operation to the field's own, and the square test is that
of the base field on the norm `N` (R231 to R234, R241 to R244). -/
structure FieldOps.Reads (F : FieldOps α) (φ : α → K) (N : K →* Fq) : Prop where
  one : φ F.one = 1
  add : ∀ a b, φ (F.add a b) = φ a + φ b
  sub : ∀ a b, φ (F.sub a b) = φ a - φ b
  neg : ∀ a, φ (F.neg a) = -φ a
  mul : ∀ a b, φ (F.mul a b) = φ a * φ b
  sqr : ∀ a, φ (F.sqr a) = φ a ^ 2
  inv0 : ∀ a, φ (F.inv0 a) = (φ a)⁻¹
  isSquare : ∀ a, F.isSquare a = true ↔ IsSquare (N (φ a))

/-- The recipe of the constants in the operations of the dictionary, so that it can be evaluated: 2, `3·Z^2` and `C1`
are invertible, and `C1 = g(Z)` is a square, which makes `Z` a candidate at the poles (R164). -/
structure FieldOps.SvdwTable (F : FieldOps α) (c : MapConsts α) : Prop where
  two : ∃ v, F.mul (fieldTwo F F.one) v = F.one
  three : ∃ v, F.mul (fieldThree F (F.sqr c.z)) v = F.one
  c1_inv : ∃ v, F.mul c.c1 v = F.one
  c1_sqrt : ∃ v, F.sqr v = c.c1
  c1 : curveRhs F c.b c.z = c.c1
  c2 : fieldTwo F c.c2 = F.neg c.z
  c3 : F.sqr c.c3 = F.neg (F.mul (fieldThree F (F.sqr c.z)) c.c1)
  c4 : F.mul c.c4 (fieldThree F (F.sqr c.z)) = F.neg (fieldTwo F (fieldTwo F c.c1))

/-- The constants read in the field. -/
def MapConsts.map (φ : α → K) (c : MapConsts α) : MapConsts K :=
  ⟨φ c.z, φ c.c1, φ c.c2, φ c.c3, φ c.c4, φ c.b⟩

variable {F : FieldOps α} {φ : α → K} {N : K →* Fq} (hF : F.Reads φ N) {c : MapConsts α}
include hF

namespace FieldOps.Reads

theorem map_curveRhs (b x : α) : φ (curveRhs F b x) = φ x ^ 3 + φ b := by
  rw [curveRhs, hF.add, hF.mul, hF.sqr]
  ring

theorem map_fieldTwo (a : α) : φ (fieldTwo F a) = φ a + φ a := hF.add a a

theorem map_fieldThree (a : α) : φ (fieldThree F a) = 3 * φ a := by
  rw [fieldThree, hF.add, hF.map_fieldTwo]
  ring

theorem ne_zero_of_exists_mul_eq_one {a : α} (h : ∃ v, F.mul a v = F.one) : φ a ≠ 0 := by
  obtain ⟨v, hv⟩ := h
  refine left_ne_zero_of_mul_eq_one (b := φ v) ?_
  rw [← hF.mul, hv, hF.one]

theorem map_tv1 (u : α) : φ (mapTv1 F c u) = 1 - φ c.c1 * φ u ^ 2 := by
  rw [mapTv1, mapT, hF.sub, hF.one, hF.mul, hF.sqr]

theorem map_tv2 (u : α) : φ (mapTv2 F c u) = 1 + φ c.c1 * φ u ^ 2 := by
  rw [mapTv2, mapT, hF.add, hF.one, hF.mul, hF.sqr]

theorem map_tv3 (u : α) : φ (mapTv3 F c u) = (φ (mapTv1 F c u) * φ (mapTv2 F c u))⁻¹ := by
  rw [mapTv3, hF.inv0, hF.mul]

theorem map_tv4 (u : α) :
    φ (mapTv4 F c u) = φ c.c3 * φ u * φ (mapTv1 F c u) * (φ (mapTv1 F c u) * φ (mapTv2 F c u))⁻¹ := by
  rw [mapTv4, hF.mul, hF.mul, hF.mul, hF.map_tv3]

theorem map_x3 (u : α) :
    φ (mapCandidates F c u).x3 = φ c.z + φ c.c4 * (φ (mapTv2 F c u) ^ 2 *
      (φ (mapTv1 F c u) * φ (mapTv2 F c u))⁻¹) ^ 2 := by
  rw [mapCandidates, hF.add, hF.mul, hF.sqr, hF.mul, hF.sqr, hF.map_tv3]

theorem svdw (hc : F.SvdwTable c) : (c.map φ).Svdw where
  two := by
    have h := hF.ne_zero_of_exists_mul_eq_one hc.two
    rwa [hF.map_fieldTwo, hF.one, one_add_one_eq_two] at h
  three := by
    have h := hF.ne_zero_of_exists_mul_eq_one hc.three
    rwa [hF.map_fieldThree, hF.sqr] at h
  c1_ne := hF.ne_zero_of_exists_mul_eq_one hc.c1_inv
  c1 := (hF.map_curveRhs _ _).symm.trans (congrArg φ hc.c1)
  c2 := by
    have h := congrArg φ hc.c2
    rwa [hF.map_fieldTwo, hF.neg] at h
  c3 := by
    have h := congrArg φ hc.c3
    rwa [hF.sqr, hF.neg, hF.mul, hF.map_fieldThree, hF.sqr] at h
  c4 := by
    have h := congrArg φ hc.c4
    rw [hF.mul, hF.map_fieldThree, hF.sqr, hF.neg, hF.map_fieldTwo, hF.map_fieldTwo] at h
    refine h.trans ?_
    change _ = -(4 * φ c.c1)
    ring

end FieldOps.Reads

/-! ### The selection is exhaustive (R165) -/

/-- At a pole `x3 = Z`, whose `g` is the square `C1` (R164). -/
theorem isSquare_x3_of_pole (hc : F.SvdwTable c) {u : α} (h : φ (mapTv1 F c u) * φ (mapTv2 F c u) = 0) :
    F.isSquare (curveRhs F c.b (mapCandidates F c u).x3) = true := by
  have hx3 : φ (mapCandidates F c u).x3 = φ c.z := by
    rw [hF.map_x3, h, inv_zero, mul_zero, zero_pow two_ne_zero, mul_zero, add_zero]
  obtain ⟨v, hv⟩ := hc.c1_sqrt
  rw [hF.isSquare, hF.map_curveRhs, hx3, ← hF.map_curveRhs, hc.c1, ← hv, hF.sqr, map_pow]
  exact IsSquare.sq _

/-- Elsewhere `g(x1)·g(x2)` and `g(x3)` differ by a square factor (R165). -/
theorem candidates_product_of_not_pole (hc : F.SvdwTable c) {u : α} (h : φ (mapTv1 F c u) * φ (mapTv2 F c u) ≠ 0) :
    ∃ e ≠ 0, φ (curveRhs F c.b (mapCandidates F c u).x1) * φ (curveRhs F c.b (mapCandidates F c u).x2) =
      e ^ 2 * φ (curveRhs F c.b (mapCandidates F c u).x3) := by
  obtain ⟨hm, hp⟩ := mul_ne_zero_iff.mp h
  have hx1 : φ (mapCandidates F c u).x1 = φ c.c2 - φ (mapTv4 F c u) := hF.sub _ _
  have hx2 : φ (mapCandidates F c u).x2 = φ c.c2 + φ (mapTv4 F c u) := hF.add _ _
  rw [hF.map_curveRhs, hF.map_curveRhs, hF.map_curveRhs, hx1, hx2, hF.map_x3]
  exact svdw_product_of_not_pole (hF.svdw hc) (hF.map_tv1 u) (hF.map_tv2 u) hm hp (hF.map_tv4 u)

omit hF in
/-- With two nonsquares on the left, what is left of the right side is a square. -/
theorem isSquare_norm_of_mul_eq [Fact fieldP.Prime] {x y z e : K} (he : e ≠ 0) (h : x * y = e ^ 2 * z)
    (hx : ¬ IsSquare (N x)) (hy : ¬ IsSquare (N y)) : IsSquare (N z) := by
  have hNe : N e ≠ 0 := ((IsUnit.mk0 e he).map N).ne_zero
  have hN : N z = N x * N y / N e ^ 2 := by
    refine eq_div_of_mul_eq (pow_ne_zero 2 hNe) ?_
    rw [← map_mul, h, map_mul, map_pow, mul_comm]
  rw [hN]
  exact (isSquare_mul_of_not hx hy).div (IsSquare.sq _)

/-- The `else` arm of step 7 is never reached (R165). -/
theorem selectCandidate_total [Fact fieldP.Prime] (hc : F.SvdwTable c) (u : α) :
    ∃ x, selectCandidate F c.b (mapCandidates F c u) = .ok x := by
  cases hsel : selectCandidate F c.b (mapCandidates F c u) with
  | ok x => exact ⟨x, rfl⟩
  | error e =>
    obtain ⟨_, h1, h2, h3⟩ := selectCandidate_error.mp hsel
    refine absurd ?_ (Bool.eq_false_iff.mp h3)
    by_cases hpole : φ (mapTv1 F c u) * φ (mapTv2 F c u) = 0
    · exact isSquare_x3_of_pole hF hc hpole
    · obtain ⟨e, he, hprod⟩ := candidates_product_of_not_pole hF hc hpole
      rw [← Bool.not_eq_true, hF.isSquare] at h1 h2
      exact (hF.isSquare _).mpr (isSquare_norm_of_mul_eq he hprod h1 h2)

/-- The map answers a point of the curve for every input, when the collaborator finds a root of every square (R160,
R165, R166). -/
theorem svdwMap_total [Fact fieldP.Prime] [DecidableEq α] (hc : F.SvdwTable c)
    (hroot : ∀ x, F.isSquare (curveRhs F c.b x) = true →
      ∃ r, F.sqrt (curveRhs F c.b x) = some r ∧ F.sqr r = curveRhs F c.b x)
    (hneg : ∀ a, F.sqr (F.neg a) = F.sqr a) (g : Group) (u : α) :
    ∃ x y, svdwMap F c g u = .ok (x, y) ∧ onCurve F c.b x y = true := by
  obtain ⟨x, hx⟩ := selectCandidate_total hF hc u
  obtain ⟨r, hr, hsq⟩ := hroot x (selectCandidate_square hx)
  have hcurve : onCurve F c.b x (matchSign F u r) = true := by
    refine beq_iff_eq.mpr (Eq.trans ?_ hsq)
    unfold matchSign
    split
    · rfl
    · exact hneg r
  exact ⟨x, _, svdwMap_ok.mpr ⟨x, hx, liftCandidate_ok.mpr ⟨r, hr, rfl, fun _ => hcurve⟩⟩, hcurve⟩

end

end Sys2Proof.Machine
end

section
/-! SUPPORT. The map by its steps: the candidate it takes, the sign of the point and its independence of the root the
collaborator chose (spec/43_svdw_map.md R163, R166, R168). -/

namespace Sys2Proof.Machine

section
variable {α : Type}

/-! ### The selection (R163) -/

/-- A selected candidate is the first whose `g` is a square. -/
theorem selectCandidate_ok {F : FieldOps α} {b x : α} {cs : MapCandidates α} (h : selectCandidate F b cs = .ok x) :
    (F.isSquare (curveRhs F b cs.x1) = true ∧ x = cs.x1) ∨
    (F.isSquare (curveRhs F b cs.x1) = false ∧ F.isSquare (curveRhs F b cs.x2) = true ∧ x = cs.x2) ∨
    (F.isSquare (curveRhs F b cs.x1) = false ∧ F.isSquare (curveRhs F b cs.x2) = false ∧
      F.isSquare (curveRhs F b cs.x3) = true ∧ x = cs.x3) := by
  unfold selectCandidate at h
  split at h
  · next h1 =>
    cases h
    exact .inl ⟨h1, rfl⟩
  next h1 =>
  rw [Bool.not_eq_true] at h1
  split at h
  · next h2 =>
    cases h
    exact .inr (.inl ⟨h1, h2, rfl⟩)
  next h2 =>
  rw [Bool.not_eq_true] at h2
  split at h
  · next h3 =>
    cases h
    exact .inr (.inr ⟨h1, h2, h3, rfl⟩)
  · cases h

/-- Settles O41: the three clauses are the laws of the selection; of the lift only its causes matter. -/
theorem mapTakesFirstSquareCandidate : Obligations.MapTakesFirstSquareCandidate := by
  intro α _ F c g u cs square
  refine ⟨fun x y h => ?_, ⟨fun h => ?_, fun h => ?_⟩, fun h => ?_⟩
  · obtain ⟨x', hsel, hlift⟩ := svdwMap_ok.mp h
    obtain ⟨r, _, hxy, _⟩ := liftCandidate_ok.mp hlift
    obtain ⟨rfl, _⟩ := Prod.mk.inj hxy
    exact selectCandidate_ok hsel
  · obtain hsel | ⟨x, _, hlift⟩ := svdwMap_error.mp h
    · exact (selectCandidate_error.mp hsel).2
    · obtain ⟨hcause, _⟩ | ⟨hcause, _⟩ := liftCandidate_error.mp hlift <;> cases hcause
  · exact svdwMap_error.mpr (.inl (selectCandidate_error.mpr ⟨rfl, h⟩))
  · obtain hsel | ⟨x, hsel, hlift⟩ := svdwMap_error.mp h
    · cases (selectCandidate_error.mp hsel).1
    · obtain ⟨_, hnone⟩ | ⟨hcause, _⟩ := liftCandidate_error.mp hlift
      · exact ⟨_, selectCandidate_square hsel, hnone⟩
      · cases hcause

/-! ### The sign of the point and the choice of the root (R166, R168) -/

/-- On the elements of `C` negation is an involution and flips the sign of what is not zero (R154). -/
structure FieldOps.SignFlips (F : FieldOps α) (C : α → Prop) : Prop where
  neg_zero : F.neg F.zero = F.zero
  neg_neg : ∀ {y}, C y → F.neg (F.neg y) = y
  sgn0_neg : ∀ {y}, C y → y ≠ F.zero → F.sgn0 (F.neg y) = !F.sgn0 y

variable {F : FieldOps α} {C : α → Prop} (hF : F.SignFlips C) {u y : α}
include hF

theorem sgn0_matchSign (hy : C y) (h : matchSign F u y ≠ F.zero) : F.sgn0 (matchSign F u y) = F.sgn0 u := by
  revert h
  unfold matchSign
  split
  · next hsgn => exact fun _ => hsgn
  · next hsgn =>
    intro h
    have hy0 : y ≠ F.zero := fun h0 => h (h0 ▸ hF.neg_zero)
    rw [hF.sgn0_neg hy hy0, Bool.eq_not.mpr hsgn, Bool.not_not]

variable [DecidableEq α]

/-- The sign adjustment makes the same of a root and of its negative. -/
theorem matchSign_neg (hy : C y) : matchSign F u (F.neg y) = matchSign F u y := by
  by_cases h0 : y = F.zero
  · rw [h0, hF.neg_zero]
  · unfold matchSign
    rw [hF.sgn0_neg hy h0, hF.neg_neg hy]
    cases F.sgn0 y <;> cases F.sgn0 u <;> rfl

/-- The point the map answers has the sign of its input unless `y` is zero (R168). -/
theorem svdwMap_sgn0 (hrange : F.RangeIn C) {c : MapConsts α} {g : Group} {x : α}
    (h : svdwMap F c g u = .ok (x, y)) (hy : y ≠ F.zero) : F.sgn0 y = F.sgn0 u := by
  obtain ⟨x', _, hlift⟩ := svdwMap_ok.mp h
  obtain ⟨r, hr, hxy, _⟩ := liftCandidate_ok.mp hlift
  obtain ⟨_, rfl⟩ := Prod.mk.inj hxy
  exact sgn0_matchSign hF (hrange.sqrt hr) hy

/-- A square root that is `ref` up to a choice of sign gives the map the same answer as `ref` (R166). -/
theorem svdwMap_sqrt_choice {ref : α → Option α} (href : ∀ {a r}, ref a = some r → C r) (choice : α → Bool)
    (hsqrt : F.sqrt = fun a => (ref a).map fun r => if choice a then F.neg r else r) (c : MapConsts α) (g : Group) :
    svdwMap F c g u = svdwMap { F with sqrt := ref } c g u := by
  have hlift : ∀ x, liftCandidate F g c.b u x = liftCandidate { F with sqrt := ref } g c.b u x := by
    intro x
    have hrhs : curveRhs { F with sqrt := ref } c.b x = curveRhs F c.b x := rfl
    have hsgn : ∀ r, matchSign { F with sqrt := ref } u r = matchSign F u r := fun _ => rfl
    have hon : ∀ r, onCurve { F with sqrt := ref } c.b x r = onCurve F c.b x r := fun _ => rfl
    simp only [liftCandidate, hrhs, hsgn, hon, hsqrt]
    cases hr : ref (curveRhs F c.b x) with
    | none => rfl
    | some r =>
      have hchoice : ∀ b : Bool, matchSign F u (if b then F.neg r else r) = matchSign F u r := fun b => by
        cases b
        · rfl
        · exact matchSign_neg hF (href hr)
      simp only [Option.map_some, hchoice]
  have hsel : selectCandidate F c.b (mapCandidates F c u) =
    selectCandidate { F with sqrt := ref } c.b (mapCandidates { F with sqrt := ref } c u) := rfl
  unfold svdwMap
  simp only [← hsel, hlift]

end

theorem fqOpsBy_signFlips (choice : Nat → Bool) : (fqOpsBy choice).SignFlips (· < fieldP) where
  neg_zero := fqNeg_zero
  neg_neg := fun {y} hy => by
    refine (natCast_fq_inj (fqNeg_lt _) hy).mp ?_
    change ((fqNeg (fqNeg y) : Nat) : Fq) = y
    rw [natCast_fqNeg, natCast_fqNeg, neg_neg]
  sgn0_neg := sgn0Fq_fqNeg

theorem fq2OpsBy_signFlips (choice : Fq2 → Bool) : (fq2OpsBy choice).SignFlips canonicalFq2 where
  neg_zero := show fq2Neg ⟨0, 0⟩ = ⟨0, 0⟩ by decide
  neg_neg := fun {y} hy => by
    refine (toFqI_inj (fq2Neg_canonical _) hy).mp ?_
    change toFqI (fq2Neg (fq2Neg y)) = toFqI y
    rw [toFqI_fq2Neg, toFqI_fq2Neg, neg_neg]
  sgn0_neg := sgn0Fq2_fq2Neg

/-- Settles O40: under any choice the map answers as with the reference root, which is canonical. -/
theorem mapIgnoresRootChoice : Obligations.MapIgnoresRootChoice := by
  have hG1 : ∀ (choice : Nat → Bool) (k : Consts) (u : Nat),
      svdwMapG1 (fqOpsBy choice) k u = svdwMapG1 { fqOps with sqrt := fqRefRoot } k u := fun choice k u =>
    svdwMap_sqrt_choice (fqOpsBy_signFlips choice) (fun h => (fqRefRoot_some h).1) choice rfl _ _
  have hG2 : ∀ (choice : Fq2 → Bool) (k : Consts) (u : Fq2),
      svdwMapG2 (fq2OpsBy choice) k u = svdwMapG2 { fq2Ops with sqrt := fq2RefRoot } k u := fun choice k u =>
    svdwMap_sqrt_choice (fq2OpsBy_signFlips choice) fq2RefRoot_canonical choice rfl _ _
  exact ⟨fun choice choice' k u => (hG1 choice k u).trans (hG1 choice' k u).symm,
    fun choice choice' k u => (hG2 choice k u).trans (hG2 choice' k u).symm⟩

end Sys2Proof.Machine
end

section
/-! SUPPORT. The map over the two fields: the dictionaries and the constants of each, the candidates at the poles, and
how `MAP1` and `MAP2` complete (spec/43_svdw_map.md R160 to R171). -/

namespace Sys2Proof.Machine

/-! ### The two dictionaries and their constants (R161)

The first four are by rewriting and not by `rfl`, which would try to evaluate the powers behind these operations. -/

theorem fqOps_inv0 : fqOps.inv0 = fqInv0 := by rw [fqOps, fqOpsBy]

theorem fq2Ops_inv0 : fq2Ops.inv0 = fq2Inv0 := by rw [fq2Ops, fq2OpsBy]

theorem fqOps_isSquare : fqOps.isSquare = fqIsSquare := by rw [fqOps, fqOpsBy]

theorem fq2Ops_isSquare : fq2Ops.isSquare = fq2IsSquare := by rw [fq2Ops, fq2OpsBy]

theorem fqOps_reads [Fact fieldP.Prime] : fqOps.Reads (fun a => (a : Fq)) (MonoidHom.id Fq) where
  one := Nat.cast_one
  add := natCast_fqAdd
  sub := natCast_fqSub
  neg := natCast_fqNeg
  mul := natCast_fqMul
  sqr := natCast_fqSqr
  inv0 := fun a => by rw [fqOps_inv0, natCast_fqInv0, one_div]
  isSquare := fqIsSquare_iff

theorem fq2Ops_reads [Fact fieldP.Prime] [Fact (∀ r : Fq, r ^ 2 ≠ -1 + 0 * r)] :
    fq2Ops.Reads toFqI (QuadraticAlgebra.norm (a := -1) (b := 0)) where
  one := QuadraticAlgebra.ext Nat.cast_one Nat.cast_zero
  add := toFqI_fq2Add
  sub := toFqI_fq2Sub
  neg := toFqI_fq2Neg
  mul := toFqI_fq2Mul
  sqr := toFqI_fq2Sqr
  inv0 := toFqI_fq2Inv0
  isSquare := fq2IsSquare_iff

/-- The constants of the G1 column of R161 are made by the recipe. -/
theorem fqOps_svdwTable : fqOps.SvdwTable (mapConstsG1 constTable) where
  two := ⟨10944121435919637611123202872628637544348155578648911831344518947322613104292, by decide⟩
  three := ⟨14592161914559516814830937163504850059130874104865215775126025263096817472389, by decide⟩
  c1_inv := ⟨5472060717959818805561601436314318772174077789324455915672259473661306552146, by decide⟩
  c1_sqrt := ⟨2, by decide⟩
  c1 := by decide
  c2 := by decide
  c3 := by decide
  c4 := by decide

/-- The constants of the G2 column of R161 are made by the recipe. -/
theorem fq2Ops_svdwTable : fq2Ops.SvdwTable (mapConstsG2 constTable) where
  two := ⟨⟨10944121435919637611123202872628637544348155578648911831344518947322613104292, 0⟩, by decide⟩
  three := ⟨⟨14592161914559516814830937163504850059130874104865215775126025263096817472389, 0⟩, by decide⟩
  c1_inv := ⟨⟨1056673793812930527970516139426213280143959848972998383716022519051838506622,
    12680085525755166335646193673114559361727518187675980604592270228622062079455⟩, by decide⟩
  c1_sqrt := ⟨⟨18278151005453108793778860132295291098363647455926340152056652516292830556603,
    5912654199736721486680175016176231956195085055698687135131307249486702594212⟩, by decide⟩
  c1 := by decide
  c2 := by decide
  c3 := by decide
  c4 := by decide

/-! ### The candidates at the poles and at zero (R164) -/

/-- Where `tv1·tv2` is zero, so are `tv3` and `tv4`, and nothing is added to the constants (R164). -/
theorem mapCandidates_of_pole {α : Type} {F : FieldOps α} {c : MapConsts α} {u : α} (hinv : F.inv0 F.zero = F.zero)
    (hmul : ∀ a, F.mul a F.zero = F.zero) (hsqr : F.sqr F.zero = F.zero)
    (h : F.mul (mapTv1 F c u) (mapTv2 F c u) = F.zero) :
    mapCandidates F c u = ⟨F.sub c.c2 F.zero, F.add c.c2 F.zero, F.add c.z F.zero⟩ := by
  have htv3 : mapTv3 F c u = F.zero := by rw [mapTv3, h, hinv]
  have htv4 : mapTv4 F c u = F.zero := by rw [mapTv4, htv3, hmul]
  rw [mapCandidates, htv3, htv4, hmul, hsqr, hmul]

section
variable [Fact fieldP.Prime] {u : Nat}

theorem natCast_mapTv1_G1 (u : Nat) :
    ((mapTv1 fqOps (mapConstsG1 constTable) u : Nat) : Fq) = (1 - 2 * u) * (1 + 2 * u) := by
  rw [fqOps_reads.map_tv1]
  change 1 - ((4 : Nat) : Fq) * u ^ 2 = _
  push_cast
  ring

/-- `C1·u^2 = (2u)^2` is not `-1` (R164). -/
theorem natCast_mapTv2_G1_ne_zero (u : Nat) : ((mapTv2 fqOps (mapConstsG1 constTable) u : Nat) : Fq) ≠ 0 := by
  rw [fqOps_reads.map_tv2]
  change 1 + ((4 : Nat) : Fq) * u ^ 2 ≠ 0
  intro h
  refine not_isSquare_neg_one ⟨2 * u, ?_⟩
  push_cast at h
  linear_combination -h

theorem one_sub_two_mul_eq_zero_iff (hu : u < fieldP) : (1 : Fq) - 2 * u = 0 ↔ u = (fieldP + 1) / 2 := by
  have hhalf : 2 * (((fieldP + 1) / 2 : Nat) : Fq) = 1 := by
    have h : 2 * ((fieldP + 1) / 2) = fieldP + 1 := by decide
    rw [← Nat.cast_ofNat, ← Nat.cast_mul, h, Nat.cast_add, ZMod.natCast_self, zero_add, Nat.cast_one]
  rw [← natCast_fq_inj hu (by decide), ← mul_right_inj' (b := (u : Fq)) two_ne_zero_fq, hhalf, sub_eq_zero, eq_comm]

theorem one_add_two_mul_eq_zero_iff (hu : u < fieldP) : (1 : Fq) + 2 * u = 0 ↔ u = (fieldP - 1) / 2 := by
  have hhalf : 2 * (((fieldP - 1) / 2 : Nat) : Fq) = -1 := by
    have h : 2 * ((fieldP - 1) / 2) = fieldP - 1 := by decide
    rw [← Nat.cast_ofNat, ← Nat.cast_mul, h, Nat.cast_pred fieldP_pos, ZMod.natCast_self, zero_sub]
  rw [← natCast_fq_inj hu (by decide), ← mul_right_inj' (b := (u : Fq)) two_ne_zero_fq, hhalf,
    add_eq_zero_iff_neg_eq, eq_comm]

/-- The poles of G1 are the two inputs with `(2u)^2 = 1` (R164). -/
theorem mapTv1_mul_mapTv2_eq_zero_iff (hu : u < fieldP) :
    fqMul (mapTv1 fqOps (mapConstsG1 constTable) u) (mapTv2 fqOps (mapConstsG1 constTable) u) = 0 ↔
      u = (fieldP + 1) / 2 ∨ u = (fieldP - 1) / 2 := by
  rw [← natCast_fq_eq_zero (fqMul_lt _ _), natCast_fqMul, mul_eq_zero_iff_right (natCast_mapTv2_G1_ne_zero u),
    natCast_mapTv1_G1, mul_eq_zero, one_sub_two_mul_eq_zero_iff hu, one_add_two_mul_eq_zero_iff hu]

omit [Fact fieldP.Prime] in
theorem fqMul_zero (a : Nat) : fqMul a 0 = 0 := by rw [fqMul, Nat.mul_zero, Nat.zero_mod]

omit [Fact fieldP.Prime] in
theorem fq2Mul_zero (a : Fq2) : fq2Mul a ⟨0, 0⟩ = ⟨0, 0⟩ := by
  have hzero : toFqI ⟨0, 0⟩ = 0 := QuadraticAlgebra.ext Nat.cast_zero Nat.cast_zero
  refine (toFqI_inj (fq2Mul_canonical _ _) ⟨fieldP_pos, fieldP_pos⟩).mp ?_
  rw [toFqI_fq2Mul, hzero, mul_zero]

theorem fqInv0_zero : fqInv0 0 = 0 := by
  refine (natCast_fq_inj (a := fqInv0 0) (fqPow_lt _ _) fieldP_pos).mp ?_
  rw [natCast_fqInv0, Nat.cast_zero, div_zero]

theorem fqInv0_one : fqInv0 1 = 1 := by
  refine (natCast_fq_inj (a := fqInv0 1) (fqPow_lt _ _) (by decide)).mp ?_
  rw [natCast_fqInv0, Nat.cast_one, div_one]

theorem fq2Inv0_zero : fq2Inv0 ⟨0, 0⟩ = ⟨0, 0⟩ := by
  have hnorm : fq2Norm ⟨0, 0⟩ = 0 := by decide
  simp only [fq2Inv0, hnorm, fqInv0_zero]
  decide

theorem fq2Inv0_one : fq2Inv0 ⟨1, 0⟩ = ⟨1, 0⟩ := by
  have hnorm : fq2Norm ⟨1, 0⟩ = 1 := by decide
  simp only [fq2Inv0, hnorm, fqInv0_one]
  decide

theorem mapCandidates_G1_of_pole {u : Nat}
    (h : fqMul (mapTv1 fqOps (mapConstsG1 constTable) u) (mapTv2 fqOps (mapConstsG1 constTable) u) = 0) :
    mapCandidates fqOps (mapConstsG1 constTable) u = ⟨constTable.c2_1, constTable.c2_1, constTable.z1⟩ := by
  have hinv : fqOps.inv0 fqOps.zero = fqOps.zero := by rw [fqOps_inv0]; exact fqInv0_zero
  rw [mapCandidates_of_pole hinv fqMul_zero (by decide) h]
  decide

theorem mapCandidates_G2_of_pole {u : Fq2}
    (h : fq2Mul (mapTv1 fq2Ops (mapConstsG2 constTable) u) (mapTv2 fq2Ops (mapConstsG2 constTable) u) = ⟨0, 0⟩) :
    mapCandidates fq2Ops (mapConstsG2 constTable) u = ⟨constTable.c2_2, constTable.c2_2, constTable.z2⟩ := by
  have hinv : fq2Ops.inv0 fq2Ops.zero = fq2Ops.zero := by rw [fq2Ops_inv0]; exact fq2Inv0_zero
  rw [mapCandidates_of_pole hinv fq2Mul_zero (by decide) h]
  decide

theorem mapCandidates_G1_zero : mapCandidates fqOps (mapConstsG1 constTable) 0 =
    ⟨constTable.c2_1, constTable.c2_1, fqAdd constTable.z1 constTable.c4_1⟩ := by
  have htv : fqOps.mul (mapTv1 fqOps (mapConstsG1 constTable) 0) (mapTv2 fqOps (mapConstsG1 constTable) 0) = 1 := by
    decide
  have htv3 : mapTv3 fqOps (mapConstsG1 constTable) 0 = 1 := by rw [mapTv3, htv, fqOps_inv0, fqInv0_one]
  rw [mapCandidates, mapTv4, htv3]
  decide

theorem mapCandidates_G2_zero : mapCandidates fq2Ops (mapConstsG2 constTable) ⟨0, 0⟩ =
    ⟨constTable.c2_2, constTable.c2_2, fq2Add constTable.z2 constTable.c4_2⟩ := by
  have htv : fq2Ops.mul (mapTv1 fq2Ops (mapConstsG2 constTable) ⟨0, 0⟩)
      (mapTv2 fq2Ops (mapConstsG2 constTable) ⟨0, 0⟩) = ⟨1, 0⟩ := by decide
  have htv3 : mapTv3 fq2Ops (mapConstsG2 constTable) ⟨0, 0⟩ = ⟨1, 0⟩ := by
    rw [mapTv3, htv, fq2Ops_inv0, fq2Inv0_one]
  rw [mapCandidates, mapTv4, htv3]
  decide

end

/-- Settles O42: the poles of G1 are the roots of `tv1·tv2`; at a pole nothing is added to the constants; at zero `tv3`
is 1. -/
theorem mapCandidatesAtPolesAndZero : Obligations.MapCandidatesAtPolesAndZero := by
  have : Fact fieldP.Prime := ⟨fieldP_prime⟩
  exact ⟨fun u => mapTv1_mul_mapTv2_eq_zero_iff, fun u => mapCandidates_G1_of_pole, fun u => mapCandidates_G2_of_pole,
    mapCandidates_G1_zero, mapCandidates_G2_zero⟩

/-! ### How `MAP1` and `MAP2` complete (R170, R171) -/

theorem fq2Sqr_fq2Neg (a : Fq2) : fq2Sqr (fq2Neg a) = fq2Sqr a := by
  refine (toFqI_inj (fq2Mul_canonical _ _) (fq2Mul_canonical _ _)).mp ?_
  change toFqI (fq2Sqr (fq2Neg a)) = toFqI (fq2Sqr a)
  rw [toFqI_fq2Sqr, toFqI_fq2Sqr, toFqI_fq2Neg, neg_sq]

theorem fqOps_sqrt_of_isSquare [Fact fieldP.Prime] {a : Nat} (ha : a < fieldP) (h : fqOps.isSquare a = true) :
    ∃ r, fqOps.sqrt a = some r ∧ fqSqr r = a := by
  rw [fqOps_isSquare, fqIsSquare_iff] at h
  obtain ⟨r, hr⟩ := fqRefRoot_of_isSquare ha h
  have hroot : fqOps.sqrt a = some (if Config.fqRootChoice a then fqNeg r else r) := congrArg (Option.map _) hr
  exact ⟨_, hroot, fqSqr_of_sqrt hroot⟩

theorem fq2Ops_sqrt_of_isSquare [Fact fieldP.Prime] {a : Fq2} (ha : canonicalFq2 a) (h : fq2Ops.isSquare a = true) :
    ∃ r, fq2Ops.sqrt a = some r ∧ fq2Sqr r = a := by
  rw [fq2Ops_isSquare] at h
  obtain ⟨r, hr⟩ := fq2RefRoot_of_isSquare ha h
  have hroot : fq2Ops.sqrt a = some (if Config.fq2RootChoice a then fq2Neg r else r) := congrArg (Option.map _) hr
  refine ⟨_, hroot, ?_⟩
  split
  · rw [fq2Sqr_fq2Neg, fq2RefRoot_sqr ha hr]
  · exact fq2RefRoot_sqr ha hr

/-- The G1 map answers a point of E1 for every input (R160, R165). -/
theorem svdwMapG1_total (u : Nat) : ∃ x y, svdwMapG1 fqOps constTable u = .ok (x, y) ∧
    onCurve fqOps constTable.b1 x y = true :=
  have : Fact fieldP.Prime := ⟨fieldP_prime⟩
  svdwMap_total fqOps_reads fqOps_svdwTable (fun _ h => fqOps_sqrt_of_isSquare (fqAdd_lt _ _) h) fqSqr_fqNeg .g1 u

/-- The G2 map answers a point of E2 for every input (R160, R165, R167). -/
theorem svdwMapG2_total (u : Fq2) : ∃ x y, svdwMapG2 fq2Ops constTable u = .ok (x, y) ∧
    onCurve fq2Ops constTable.b2 x y = true :=
  have : Fact fieldP.Prime := ⟨fieldP_prime⟩
  have := fqI_irreducible
  svdwMap_total fq2Ops_reads fq2Ops_svdwTable (fun _ h => fq2Ops_sqrt_of_isSquare (fq2Add_canonical _ _) h)
    fq2Sqr_fq2Neg .g2 u

/-- Settles O38: the map answers a point of E1, whose sign is that of the input, and `MAP1` writes it. -/
theorem map1Completes : Obligations.Map1Completes := by
  intro s pd fs u hk hpd hu _
  obtain ⟨x, y, hmap, hcurve⟩ := svdwMapG1_total u
  obtain ⟨hx, hy⟩ := svdwMap_coordsIn fqOps_rangeIn hmap
  refine ⟨x, y, hmap, hx, hy, (onCurve_fqOps_iff _ _ _).mp hcurve, fun hy0 => ?_, ?_⟩
  · have hsgn : sgn0Fq y = sgn0Fq u := svdwMap_sgn0 (fqOpsBy_signFlips _) fqOps_rangeIn hmap hy0
    rw [sgn0Fq_eq_decide, sgn0Fq_eq_decide, decide_eq_decide] at hsgn
    omega
  · exact exec_of_ok (runMap1_ok.mpr ⟨hpd, u, hu, (x, y), hk ▸ hmap, rfl⟩)

/-- Settles O39: the map answers a point of E2, whose sign is that of the input, and `MAP2` writes it. -/
theorem map2Completes : Obligations.Map2Completes := by
  intro s pd fs u hk hpd hfs h0 h1 _
  obtain ⟨x, y, hmap, hcurve⟩ := svdwMapG2_total u
  obtain ⟨hx, hy⟩ := svdwMap_coordsIn fq2Ops_rangeIn hmap
  have hpair : pairOperand s fs = .ok u := pairOperand_ok.mpr ⟨hfs, h0, h1⟩
  exact ⟨x, y, hmap, hx, hy, (onCurve_fq2Ops_iff _ _ _).mp hcurve,
    svdwMap_sgn0 (fq2OpsBy_signFlips _) fq2Ops_rangeIn hmap,
    exec_of_ok (runMap2_ok.mpr ⟨hpd, u, hpair, (x, y), hk ▸ hmap, rfl⟩)⟩

end Sys2Proof.Machine
end

section
/-! SUPPORT. The group law keeps the curve: read in the field, the sum of the model is that of the Weierstrass curve
`y^2 = x^3 + b`, whose equation the library's addition formulas keep (spec/49_collaborators.md R250 to R255). -/

namespace Sys2Proof.Machine

/-! ### The curve over the field (R250) -/

section
variable {α K : Type} [Field K]

/-- The curve `y^2 = x^3 + b` of R250, as a Weierstrass curve. -/
def shortCurve (b : K) : WeierstrassCurve.Affine K where
  a₁ := 0
  a₂ := 0
  a₃ := 0
  a₄ := 0
  a₆ := b

theorem shortCurve_equation_iff (b x y : K) : (shortCurve b).Equation x y ↔ y ^ 2 = x ^ 3 + b := by
  rw [WeierstrassCurve.Affine.equation_iff]
  simp [shortCurve]

theorem shortCurve_negY (b x y : K) : (shortCurve b).negY x y = -y := by
  simp [WeierstrassCurve.Affine.negY, shortCurve]

theorem shortCurve_addX (b x₁ x₂ ℓ : K) : (shortCurve b).addX x₁ x₂ ℓ = ℓ ^ 2 - x₁ - x₂ := by
  simp [WeierstrassCurve.Affine.addX, shortCurve]

theorem shortCurve_addY (b x₁ x₂ y₁ ℓ : K) :
    (shortCurve b).addY x₁ x₂ y₁ ℓ = ℓ * (x₁ - (ℓ ^ 2 - x₁ - x₂)) - y₁ := by
  rw [WeierstrassCurve.Affine.addY, shortCurve_negY, WeierstrassCurve.Affine.negAddY, shortCurve_addX]
  ring

/-- The reading `φ` tells the representatives in `C` apart, and what the dictionary compares lies in `C`. -/
structure FieldOps.FaithfulOn (F : FieldOps α) (φ : α → K) (C : α → Prop) : Prop where
  range : F.RangeIn C
  sqr_mem : ∀ a, C (F.sqr a)
  zero_mem : C F.zero
  map_zero : φ F.zero = 0
  inj : ∀ {a b}, C a → C b → (φ a = φ b ↔ a = b)

variable {F : FieldOps α} {φ : α → K} {N : K →* Fq} {C : α → Prop} (hF : F.Reads φ N) (hC : F.FaithfulOn φ C)
include hF

/-! ### The slopes of R253 are those of the library -/

theorem FieldOps.Reads.map_chordSlope [DecidableEq K] (b : K) {x₁ y₁ x₂ y₂ : α} (hx : φ x₁ ≠ φ x₂) :
    φ (F.mul (F.sub y₂ y₁) (F.inv0 (F.sub x₂ x₁))) = (shortCurve b).slope (φ x₁) (φ x₂) (φ y₁) (φ y₂) := by
  rw [WeierstrassCurve.Affine.slope_of_X_ne hx, hF.mul, hF.inv0, hF.sub, hF.sub, ← div_eq_mul_inv, ← neg_sub (φ y₁),
    ← neg_sub (φ x₁), neg_div_neg_eq]

theorem FieldOps.Reads.map_tangentSlope [DecidableEq K] (b : K) {x₁ y₁ x₂ y₂ : α} (hx : φ x₁ = φ x₂)
    (hy : φ y₁ ≠ (shortCurve b).negY (φ x₂) (φ y₂)) :
    φ (F.mul (fieldThree F (F.sqr x₁)) (F.inv0 (fieldTwo F y₁))) =
      (shortCurve b).slope (φ x₁) (φ x₂) (φ y₁) (φ y₂) := by
  rw [WeierstrassCurve.Affine.slope_of_Y_ne hx hy, shortCurve_negY, hF.mul, hF.inv0, hF.map_fieldThree, hF.sqr,
    hF.map_fieldTwo]
  simp [shortCurve, div_eq_mul_inv]

/-! ### The sum of points on the curve is on the curve (R253) -/

include hC
variable [DecidableEq α]

theorem FieldOps.FaithfulOn.onCurve_iff (b x y : α) :
    onCurve F b x y = true ↔ (shortCurve (φ b)).Equation (φ x) (φ y) := by
  rw [shortCurve_equation_iff, ← hF.map_curveRhs, ← hF.sqr, onCurve, beq_iff_eq]
  exact (hC.inj (hC.sqr_mem y) (hC.range.add _ b)).symm

/-- The chord or tangent through two points that are not opposite meets the curve in a third. -/
theorem FieldOps.FaithfulOn.ptChord_onCurve [DecidableEq K] {b lam x₁ y₁ x₂ y₂ : α}
    (h₁ : onCurve F b x₁ y₁ = true) (h₂ : onCurve F b x₂ y₂ = true)
    (hne : ¬ (φ x₁ = φ x₂ ∧ φ y₁ = (shortCurve (φ b)).negY (φ x₂) (φ y₂)))
    (hlam : φ lam = (shortCurve (φ b)).slope (φ x₁) (φ x₂) (φ y₁) (φ y₂)) :
    pointOnCurve F b (ptChord F lam x₁ y₁ x₂) = true := by
  have hsum := WeierstrassCurve.Affine.equation_add ((hC.onCurve_iff hF b x₁ y₁).mp h₁)
    ((hC.onCurve_iff hF b x₂ y₂).mp h₂) hne
  rw [← hlam, shortCurve_addX, shortCurve_addY] at hsum
  refine (hC.onCurve_iff hF b _ _).mpr ?_
  simpa only [hF.sub, hF.mul, hF.sqr] using hsum

theorem FieldOps.FaithfulOn.ptAdd_onCurve {b : α} {p q : Point α} (hp : p.CoordsIn C) (hq : q.CoordsIn C)
    (hpc : pointOnCurve F b p = true) (hqc : pointOnCurve F b q = true) :
    pointOnCurve F b (ptAdd F p q) = true := by
  classical
  fun_cases ptAdd F p q with
  | case1 => exact hqc
  | case2 => exact hpc
  | case3 => rfl
  | case4 y₁ x₁ y₂ hsum =>
    have hopp : φ y₁ ≠ (shortCurve (φ b)).negY (φ x₁) (φ y₂) := by
      rw [shortCurve_negY, ne_eq, ← add_eq_zero_iff_eq_neg, ← hF.add, ← hC.map_zero]
      exact (hC.inj (hC.range.add _ _) hC.zero_mem).not.mpr hsum
    exact hC.ptChord_onCurve hF hpc hqc (fun h => hopp h.2) (hF.map_tangentSlope (φ b) rfl hopp)
  | case5 x₁ y₁ x₂ y₂ hx =>
    have hne : φ x₁ ≠ φ x₂ := (hC.inj hp.1 hq.1).not.mpr hx
    exact hC.ptChord_onCurve hF hpc hqc (fun h => hne h.1) (hF.map_chordSlope (φ b) hne)

end

/-- What holds of `INF` and of `a`, and of a sum when it holds of both terms, holds of every multiple of `a` (R255). -/
theorem ptMul_of_closed {α : Type} [DecidableEq α] {F : FieldOps α} {M : Point α → Prop} (hinf : M .inf)
    (hadd : ∀ {p q}, M p → M q → M (ptAdd F p q)) (n : Nat) {a : Point α} (ha : M a) : M (ptMul F n a) := by
  unfold ptMul
  refine List.foldlRecOn (motive := M) _ _ hinf fun r hr bit _ => ?_
  cases bit with
  | false => exact hadd hr hr
  | true => exact hadd (hadd hr hr) ha

end Sys2Proof.Machine
end

section
/-! SUPPORT. The points of E2: closed under the sum, the scalar multiple and the endomorphism psi; how `PSI` and `CLRCOF`
complete (spec/44_cofactor.md R190 to R194). -/

namespace Sys2Proof.Machine

/-! ### The points of E2 (R251, R253, R255) -/

theorem isPointG2_iff (p : Point Fq2) :
    isPointG2 p ↔ p.CoordsIn canonicalFq2 ∧ pointOnCurve fq2Ops constTable.b2 p = true := by
  cases p with
  | inf => exact iff_of_true trivial ⟨trivial, rfl⟩
  | affine x y => exact and_assoc.symm

theorem fq2Ops_faithfulOn [Fact fieldP.Prime] [Fact (∀ r : Fq, r ^ 2 ≠ -1 + 0 * r)] :
    fq2Ops.FaithfulOn toFqI canonicalFq2 where
  range := fq2Ops_rangeIn
  sqr_mem := fun a => fq2Mul_canonical a a
  zero_mem := ⟨fieldP_pos, fieldP_pos⟩
  map_zero := QuadraticAlgebra.ext Nat.cast_zero Nat.cast_zero
  inj := toFqI_inj

theorem isPointG2_ptAdd {p q : Point Fq2} (hp : isPointG2 p) (hq : isPointG2 q) : isPointG2 (ptAdd fq2Ops p q) := by
  have : Fact fieldP.Prime := ⟨fieldP_prime⟩
  have := fqI_irreducible
  obtain ⟨hpC, hpc⟩ := (isPointG2_iff p).mp hp
  obtain ⟨hqC, hqc⟩ := (isPointG2_iff q).mp hq
  exact (isPointG2_iff _).mpr ⟨ptAdd_coordsIn fq2Ops_rangeIn hpC hqC,
    fq2Ops_faithfulOn.ptAdd_onCurve fq2Ops_reads hpC hqC hpc hqc⟩

theorem isPointG2_ptMul (n : Nat) {p : Point Fq2} (hp : isPointG2 p) : isPointG2 (ptMul fq2Ops n p) :=
  ptMul_of_closed (M := isPointG2) trivial isPointG2_ptAdd n hp

/-- A well-formed register of group G2 holds a point of E2 (R23). -/
theorem isPointG2_pointG2 {r : PointReg} (hg : r.grp = .g2) (hwf : r.wellFormed constTable = true) :
    isPointG2 r.pointG2 := by
  refine (isPointG2_iff _).mpr ⟨pointG2_coordsIn hwf, ?_⟩
  obtain ⟨valid, grp, inf, x0, x1, y0, y1⟩ := r
  obtain ⟨_, _, _, _, hcurve⟩ := (wellFormed_iff constTable valid grp inf x0 x1 y0 y1).mp hwf
  cases inf with
  | true => rfl
  | false => exact (onCurve_fq2Ops_iff _ _ _).mpr (hcurve rfl hg)

/-! ### The endomorphism psi (R190, R192) -/

theorem toFqI_fq2Conj (a : Fq2) : toFqI (fq2Conj a) = star (toFqI a) := by
  ext
  · rw [QuadraticAlgebra.re_star, zero_mul, add_zero]
    rfl
  · exact natCast_fqNeg a.c1

/-- The scales of psi and the curve fit together: `ENDO_U^3 = ENDO_V^2` (R12). -/
theorem endoU_cube : toFqI constTable.endoU ^ 3 = toFqI constTable.endoV ^ 2 := by
  have h : fq2Mul (fq2Sqr constTable.endoU) constTable.endoU = fq2Sqr constTable.endoV := by decide
  rw [← toFqI_fq2Sqr constTable.endoV, ← h, toFqI_fq2Mul, toFqI_fq2Sqr, pow_succ]

/-- The scale of psi takes the conjugate of `B2` back to `B2` (R12). -/
theorem star_b2_mul_endoV_sq : star (toFqI constTable.b2) * toFqI constTable.endoV ^ 2 = toFqI constTable.b2 := by
  have h : fq2Mul (fq2Conj constTable.b2) (fq2Sqr constTable.endoV) = constTable.b2 := by decide
  rw [← toFqI_fq2Conj, ← toFqI_fq2Sqr, ← toFqI_fq2Mul, h]

/-- psi conjugates the curve equation and scales it by `ENDO_V^2` (R192). -/
theorem isPointG2_psiPoint {p : Point Fq2} (hp : isPointG2 p) : isPointG2 (psiPoint constTable p) := by
  have : Fact fieldP.Prime := ⟨fieldP_prime⟩
  have := fqI_irreducible
  refine (isPointG2_iff _).mpr ⟨psiPoint_coordsIn _ _, ?_⟩
  cases p with
  | inf => rfl
  | affine x y =>
    obtain ⟨_, _, hcurve⟩ := hp
    rw [fq2Ops_faithfulOn.onCurve_iff fq2Ops_reads, shortCurve_equation_iff] at hcurve
    have hconj : star (toFqI y) ^ 2 = star (toFqI x) ^ 3 + star (toFqI constTable.b2) := by
      rw [← star_pow, ← star_pow, ← star_add, hcurve]
    refine (fq2Ops_faithfulOn.onCurve_iff fq2Ops_reads _ _ _).mpr ?_
    rw [shortCurve_equation_iff, toFqI_fq2Mul, toFqI_fq2Mul, toFqI_fq2Conj, toFqI_fq2Conj]
    calc (star (toFqI y) * toFqI constTable.endoV) ^ 2
      _ = star (toFqI x) ^ 3 * toFqI constTable.endoV ^ 2 +
          star (toFqI constTable.b2) * toFqI constTable.endoV ^ 2 := by rw [mul_pow, hconj, add_mul]
      _ = (star (toFqI x) * toFqI constTable.endoU) ^ 3 + toFqI constTable.b2 := by
          rw [star_b2_mul_endoV_sq, mul_pow, endoU_cube]

/-- The point psi answers for a register, by the register's fields (R190, R191). -/
theorem psiPoint_pointG2 (k : Consts) (r : PointReg) :
    psiPoint k r.pointG2 = if r.inf = true then .inf else
      .affine (fq2Mul (fq2Conj ⟨r.x0.toNat, r.x1.toNat⟩) k.endoU)
        (fq2Mul (fq2Conj ⟨r.y0.toNat, r.y1.toNat⟩) k.endoV) := by
  unfold PointReg.pointG2
  split <;> rfl

/-! ### Cofactor clearing (R193) -/

/-- Every term of the sum of R193 is a point of E2, so the sum is. -/
theorem isPointG2_clearingSum {q : Point Fq2} (hq : isPointG2 q) : isPointG2 (clearingSum fq2Ops constTable q) := by
  have hxq : isPointG2 (ptMul fq2Ops constTable.xGen q) := isPointG2_ptMul _ hq
  have hpsi_3xq := isPointG2_psiPoint (isPointG2_ptMul 3 hxq)
  have hpsi2_xq := isPointG2_psiPoint (isPointG2_psiPoint hxq)
  have hpsi3_q := isPointG2_psiPoint (isPointG2_psiPoint (isPointG2_psiPoint hq))
  exact isPointG2_ptAdd (isPointG2_ptAdd (isPointG2_ptAdd hxq hpsi_3xq) hpsi2_xq) hpsi3_q

/-! ### How `PSI` and `CLRCOF` complete (R191, R194) -/

theorem pointOperandG2_of_register {s : State} {ps : Nat} {r : PointReg} (hr : s.pt[ps]? = some r)
    (hv : r.valid = true) (hg : r.grp = .g2) : ps ≤ 15 ∧ pointOperandG2 s ps = .ok r.pointG2 := by
  obtain ⟨hps, _⟩ := Vector.getElem?_eq_some_iff.mp hr
  exact ⟨Nat.le_of_lt_succ hps, pointOperandG2_ok.mpr ⟨r, hr, hv, hg, rfl⟩⟩

/-- A point of E2 passes the check made before it is written (R191, R193). -/
theorem checkedG2_of_isPointG2 {p : Point Fq2} (hp : isPointG2 p) : checkedG2 fq2Ops constTable p = .ok p :=
  checkedG2_ok.mpr ⟨((isPointG2_iff p).mp hp).2, rfl⟩

/-- Settles O43: psi of the point held is a point of E2, so it passes the check and is written. -/
theorem psiCompletes : Obligations.PsiCompletes := by
  intro s pd ps r hk hpd hr hv hg hwf
  obtain ⟨hps, hq⟩ := pointOperandG2_of_register hr hv hg
  have hpoint : isPointG2 (psiPoint constTable r.pointG2) := isPointG2_psiPoint (isPointG2_pointG2 hg hwf)
  have hcheck : checkedG2 fq2Ops s.k (psiPoint s.k r.pointG2) = .ok (psiPoint constTable r.pointG2) := by
    rw [hk, checkedG2_of_isPointG2 hpoint]
  exact ⟨_, psiPoint_pointG2 constTable r, hpoint, exec_of_ok (runPsi_ok.mpr ⟨hpd, hps, _, hq, _, hcheck, rfl⟩)⟩

/-- Settles O44: the sum of R193 is a point of E2, so it passes the check and is written. -/
theorem clrcofCompletes : Obligations.ClrcofCompletes := by
  intro s pd ps r hk hpd hr hv hg hwf
  obtain ⟨hps, hq⟩ := pointOperandG2_of_register hr hv hg
  have hpoint : isPointG2 (clearingSum fq2Ops constTable r.pointG2) :=
    isPointG2_clearingSum (isPointG2_pointG2 hg hwf)
  have hclear : clearCofactor fq2Ops s.k r.pointG2 = .ok (clearingSum fq2Ops constTable r.pointG2) := by
    rw [hk, clearCofactor, checkedG2_of_isPointG2 hpoint]
  exact ⟨_, _, _, rfl, rfl, rfl, hpoint, exec_of_ok (runClrcof_ok.mpr ⟨hpd, hps, _, hq, _, hclear, rfl⟩)⟩

end Sys2Proof.Machine
end

section
/-! SUPPORT. The orchestrators: the sequences of `HASHG1`, `HASHG2` and `ENCG2` step by step, how the three commands
complete or fault, and their unit commands (spec/45_orchestrators.md R210 to R217). -/

namespace Sys2Proof.Machine

/-! ### The points of E1 (R251, R253) -/

theorem isPointG1_iff (p : Point Nat) :
    isPointG1 p ↔ p.CoordsIn (· < fieldP) ∧ pointOnCurve fqOps constTable.b1 p = true := by
  cases p with
  | inf => exact iff_of_true trivial ⟨trivial, rfl⟩
  | affine x y => exact and_assoc.symm

theorem fqOps_faithfulOn [Fact fieldP.Prime] : fqOps.FaithfulOn (fun a => (a : Fq)) (· < fieldP) where
  range := fqOps_rangeIn
  sqr_mem := fun a => fqMul_lt a a
  zero_mem := fieldP_pos
  map_zero := Nat.cast_zero
  inj := natCast_fq_inj

theorem isPointG1_ptAdd {p q : Point Nat} (hp : isPointG1 p) (hq : isPointG1 q) : isPointG1 (ptAdd fqOps p q) := by
  have : Fact fieldP.Prime := ⟨fieldP_prime⟩
  obtain ⟨hpC, hpc⟩ := (isPointG1_iff p).mp hp
  obtain ⟨hqC, hqc⟩ := (isPointG1_iff q).mp hq
  exact (isPointG1_iff _).mpr ⟨ptAdd_coordsIn fqOps_rangeIn hpC hqC,
    fqOps_faithfulOn.ptAdd_onCurve fqOps_reads hpC hqC hpc hqc⟩

/-! ### The steps of the three sequences (R211, R212, R214) -/

/-- A tag within its bound lets the field hash answer `count` elements (R140, R282). -/
theorem hashToField_total {s : State} {count : Nat} (hcount : count ≤ 170) (htag : s.dstLen.toNat ≤ 255) (p : Nat) :
    ∃ u : Nat → Nat, hashToField p (messageOf s) (tagOf s) count = .ok ((List.range count).map u) := by
  obtain ⟨e, he⟩ := expandXmd_of_bounds (n := 48 * count) (by omega) htag
  exact ⟨windowElement p e, hashToField_ok.mpr ⟨e, he, rfl⟩⟩

/-- The G1 map answers a point of E1 for every input (R160, R165). -/
theorem svdwMapG1_total_isPointG1 (u : Nat) :
    ∃ x y, svdwMapG1 fqOps constTable u = .ok (x, y) ∧ isPointG1 (.affine x y) := by
  obtain ⟨x, y, hmap, hcurve⟩ := svdwMapG1_total u
  exact ⟨x, y, hmap, (isPointG1_iff _).mpr ⟨svdwMap_coordsIn fqOps_rangeIn hmap, hcurve⟩⟩

/-- The G2 map answers a point of E2 for every input (R160, R165, R167). -/
theorem svdwMapG2_total_isPointG2 (u : Fq2) :
    ∃ x y, svdwMapG2 fq2Ops constTable u = .ok (x, y) ∧ isPointG2 (.affine x y) := by
  obtain ⟨x, y, hmap, hcurve⟩ := svdwMapG2_total u
  exact ⟨x, y, hmap, (isPointG2_iff _).mpr ⟨svdwMap_coordsIn fq2Ops_rangeIn hmap, hcurve⟩⟩

/-- With the constants of the spec the clearing of a point of E2 succeeds (R193). -/
theorem clearCofactor_of_isPointG2 {q : Point Fq2} (hq : isPointG2 q) :
    clearCofactor fq2Ops constTable q = .ok (clearingSum fq2Ops constTable q) :=
  checkedG2_of_isPointG2 (isPointG2_clearingSum hq)

theorem clearedHashG2_ok {F : FieldOps Fq2} {k : Consts} {msg dst : List Byte} {r : Point Fq2} :
    clearedHashG2 F k msg dst = .ok r ↔
      ∃ us, hashToField k.p msg dst 4 = .ok us ∧
      ∃ q0, svdwMapG2 F k ⟨us.getD 0 0, us.getD 1 0⟩ = .ok q0 ∧
      ∃ q1, svdwMapG2 F k ⟨us.getD 2 0, us.getD 3 0⟩ = .ok q1 ∧
        clearCofactor F k (ptAdd F (affineOf q0) (affineOf q1)) = .ok r := by
  simp only [clearedHashG2, sumMapsG2, except_bind_ok, except_ok_inj]
  constructor
  · rintro ⟨us, hus, _, ⟨q0, h0, q1, h1, rfl⟩, hclear⟩
    exact ⟨us, hus, q0, h0, q1, h1, hclear⟩
  · rintro ⟨us, hus, q0, h0, q1, h1, hclear⟩
    exact ⟨us, hus, _, ⟨q0, h0, q1, h1, rfl⟩, hclear⟩

theorem clearedEncodeG2_ok {F : FieldOps Fq2} {k : Consts} {msg dst : List Byte} {r : Point Fq2} :
    clearedEncodeG2 F k msg dst = .ok r ↔
      ∃ us, hashToField k.p msg dst 2 = .ok us ∧
      ∃ q, svdwMapG2 F k ⟨us.getD 0 0, us.getD 1 0⟩ = .ok q ∧ clearCofactor F k (affineOf q) = .ok r := by
  simp only [clearedEncodeG2, except_bind_ok]

/-! ### How `HASHG1` completes (R211, R213) -/

/-- Settles O45: the field hash and both maps answer, and the sum of two points of E1 passes the final check. -/
theorem hashg1Completes : Obligations.Hashg1Completes := by
  intro s pd hk hpd hmsg htag
  obtain ⟨u, hus⟩ := hashToField_total (count := 2) (by decide) htag fieldP
  obtain ⟨x0, y0, h0, hp0⟩ := svdwMapG1_total_isPointG1 (u 0)
  obtain ⟨x1, y1, h1, hp1⟩ := svdwMapG1_total_isPointG1 (u 1)
  have hsum : isPointG1 (ptAdd fqOps (.affine x0 y0) (.affine x1 y1)) := isPointG1_ptAdd hp0 hp1
  have hhash : hashToG1 fqOps s.k (messageOf s) (tagOf s) = .ok (ptAdd fqOps (.affine x0 y0) (.affine x1 y1)) := by
    rw [hk]
    exact hashToG1_ok.mpr ⟨_, hus, _, h0, _, h1, ((isPointG1_iff _).mp hsum).2, rfl⟩
  exact ⟨u 0, u 1, x0, y0, x1, y1, hus, h0, h1, hsum, exec_of_ok (runHashg1_ok.mpr ⟨hpd, hmsg, htag, _, hhash, rfl⟩)⟩

/-! ### How `HASHG2` and `ENCG2` end after the clearing (R213) -/

/-- A point that is on its curve already passes or fails the final check by `R_ORDER` alone (R213). -/
theorem finalCheckG2_of_onCurve {F : FieldOps Fq2} {k : Consts} {r : Point Fq2} (h : pointOnCurve F k.b2 r = true) :
    finalCheckG2 F k r = if ptMul F k.rOrder r = .inf then .ok r else .error .intNotInSubgroup := if_pos h

section
variable {s : State} {k : Consts} {pd : Nat} {q r : Point Fq2} (hk : s.k = k)
include hk

/-- A command that ends in `PT[pd] <- final_check(r)`, where the clearing answered `r` (R212, R213, R214). -/
theorem complete_finalCheckG2 (hclear : clearCofactor fq2Ops k q = .ok r) :
    complete s (do
      let r' ← finalCheckG2 fq2Ops s.k r
      .ok (s.setPointReg pd (pointRegG2 r'))) =
    .next (if ptMul fq2Ops k.rOrder r = .inf then s.setPointReg pd (pointRegG2 r)
      else raiseFault .intNotInSubgroup s) := by
  obtain ⟨hcurve, rfl⟩ := clearCofactor_ok.mp hclear
  rw [hk, finalCheckG2_of_onCurve hcurve]
  split <;> rfl

variable (hpd : pd ≤ 15) (hmsg : s.msgLen.toNat ≤ Config.msgMax.toNat) (htag : s.dstLen.toNat ≤ 255)
include hpd hmsg htag

/-- Once the clearing has answered, `HASHG2` ends by its subgroup check alone (R212, R213). -/
theorem exec_hashg2_of_cleared {u0 u1 u2 u3 : Nat} {q0 q1 : Fq2 × Fq2}
    (hus : hashToField k.p (messageOf s) (tagOf s) 4 = .ok [u0, u1, u2, u3])
    (h0 : svdwMapG2 fq2Ops k ⟨u0, u1⟩ = .ok q0) (h1 : svdwMapG2 fq2Ops k ⟨u2, u3⟩ = .ok q1)
    (hclear : clearCofactor fq2Ops k (ptAdd fq2Ops (affineOf q0) (affineOf q1)) = .ok r) :
    exec (.hashg2 pd) s = .next (if ptMul fq2Ops k.rOrder r = .inf then s.setPointReg pd (pointRegG2 r)
      else raiseFault .intNotInSubgroup s) := by
  have hops : checkHashOperands pd s = .ok () := checkHashOperands_ok.mpr ⟨hpd, hmsg, htag⟩
  have hcleared : clearedHashG2 fq2Ops s.k (messageOf s) (tagOf s) = .ok r :=
    hk ▸ clearedHashG2_ok.mpr ⟨_, hus, q0, h0, q1, h1, hclear⟩
  rw [← complete_finalCheckG2 hk hclear, exec_eq_complete, runCommand, runHashg2, hashToG2, hops, hcleared]
  rfl

/-- Once the clearing has answered, `ENCG2` ends by its subgroup check alone (R213, R214). -/
theorem exec_encg2_of_cleared {u0 u1 : Nat} {xy : Fq2 × Fq2}
    (hus : hashToField k.p (messageOf s) (tagOf s) 2 = .ok [u0, u1])
    (hmap : svdwMapG2 fq2Ops k ⟨u0, u1⟩ = .ok xy) (hclear : clearCofactor fq2Ops k (affineOf xy) = .ok r) :
    exec (.encg2 pd) s = .next (if ptMul fq2Ops k.rOrder r = .inf then s.setPointReg pd (pointRegG2 r)
      else raiseFault .intNotInSubgroup s) := by
  have hops : checkHashOperands pd s = .ok () := checkHashOperands_ok.mpr ⟨hpd, hmsg, htag⟩
  have hcleared : clearedEncodeG2 fq2Ops s.k (messageOf s) (tagOf s) = .ok r :=
    hk ▸ clearedEncodeG2_ok.mpr ⟨_, hus, xy, hmap, hclear⟩
  rw [← complete_finalCheckG2 hk hclear, exec_eq_complete, runCommand, runEncg2, encodeToG2, hops, hcleared]
  rfl

end

/-- Settles O46: the point cleared is in the subgroup, so the check writes it. -/
theorem hashg2Completes : Obligations.Hashg2Completes := by
  intro s pd u0 u1 u2 u3 x0 y0 x1 y1 R hpd hmsg htag hus h0 h1 hclear horder
  rw [exec_hashg2_of_cleared rfl hpd hmsg htag hus h0 h1 hclear, if_pos horder, State.setPointReg]

/-- Settles O47: the point cleared is in the subgroup, so the check writes it. -/
theorem encg2Completes : Obligations.Encg2Completes := by
  intro s pd u0 u1 x y R hpd hmsg htag hus hmap hclear horder
  rw [exec_encg2_of_cleared rfl hpd hmsg htag hus hmap hclear, if_pos horder, State.setPointReg]

/-- Settles O48: the field hash, the maps and the clearing answer, with points of E2 throughout, so that each command
reaches its subgroup check. -/
theorem g2HashesReachSubgroupCheck : Obligations.G2HashesReachSubgroupCheck := by
  intro s pd hk hpd hmsg htag
  constructor
  · obtain ⟨u, hus⟩ := hashToField_total (count := 4) (by decide) htag fieldP
    obtain ⟨x0, y0, h0, hp0⟩ := svdwMapG2_total_isPointG2 ⟨u 0, u 1⟩
    obtain ⟨x1, y1, h1, hp1⟩ := svdwMapG2_total_isPointG2 ⟨u 2, u 3⟩
    have hsum : isPointG2 (ptAdd fq2Ops (.affine x0 y0) (.affine x1 y1)) := isPointG2_ptAdd hp0 hp1
    have hend := exec_hashg2_of_cleared hk hpd hmsg htag hus h0 h1 (clearCofactor_of_isPointG2 hsum)
    exact ⟨u 0, u 1, u 2, u 3, x0, y0, x1, y1, _, hus, h0, h1, rfl, isPointG2_clearingSum hsum, hend⟩
  · obtain ⟨u, hus⟩ := hashToField_total (count := 2) (by decide) htag fieldP
    obtain ⟨x, y, hmap, hp⟩ := svdwMapG2_total_isPointG2 ⟨u 0, u 1⟩
    have hend := exec_encg2_of_cleared hk hpd hmsg htag hus hmap (clearCofactor_of_isPointG2 hp)
    exact ⟨u 0, u 1, x, y, _, hus, hmap, rfl, isPointG2_clearingSum hp, hend⟩

/-! ### What `HASHG2` and `ENCG2` write (R213, R217) -/

/-- A point with canonical coordinates reads back from the register that holds it (R23). -/
theorem pointG2_pointRegG2_of_coordsIn {r : Point Fq2} (hr : r.CoordsIn canonicalFq2) :
    (pointRegG2 r).pointG2 = r := by
  have hP : fieldP < 2 ^ 256 := by decide
  cases r with
  | inf => rfl
  | affine x y =>
    obtain ⟨⟨hx0, hx1⟩, hy0, hy1⟩ := hr
    exact pointG2_pointRegG2 (hx0.trans hP) (hx1.trans hP) (hy0.trans hP) (hy1.trans hP)

theorem pointG1_pointRegG1_of_coordsIn {r : Point Nat} (hr : r.CoordsIn (· < fieldP)) :
    (pointRegG1 r).pointG1 = r := by
  have hP : fieldP < 2 ^ 256 := by decide
  cases r with
  | inf => rfl
  | affine x y => exact pointG1_pointRegG1 (hr.1.trans hP) (hr.2.trans hP)

theorem pointReg_setPointReg_same (s : State) {k : Nat} (r : PointReg) (hk : k ≤ 15) :
    (s.setPointReg k r).pt[k]? = some r :=
  (pointReg_setPointReg s k k r (Nat.lt_succ_of_le hk)).trans (if_pos rfl)

theorem pointRegG2_valid (r : Point Fq2) : (pointRegG2 r).valid = true := by cases r <;> rfl

theorem pointRegG2_grp (r : Point Fq2) : (pointRegG2 r).grp = .g2 := by cases r <;> rfl

/-- A completed `HASHG2` or `ENCG2` has written a point that passed the final check (R213). -/
theorem run_g2Hash_ok {s t : State} {pd : Nat} {i : Instr} (hi : i = .hashg2 pd ∨ i = .encg2 pd)
    (h : runCommand i s = .ok t) :
    pd ≤ 15 ∧ ∃ r, r.CoordsIn canonicalFq2 ∧ pointOnCurve fq2Ops s.k.b2 r = true ∧ ptMul fq2Ops s.k.rOrder r = .inf ∧
      t = s.setPointReg pd (pointRegG2 r) := by
  rcases hi with rfl | rfl
  · obtain ⟨hpd, _, _, r, hr, rfl⟩ := runHashg2_ok.mp h
    obtain ⟨hcleared, hcurve, horder⟩ := hashToG2_ok.mp hr
    exact ⟨hpd, r, clearedHashG2_coordsIn hcleared, hcurve, horder, rfl⟩
  · obtain ⟨hpd, _, _, r, hr, rfl⟩ := runEncg2_ok.mp h
    obtain ⟨hcleared, hcurve, horder⟩ := encodeToG2_ok.mp hr
    exact ⟨hpd, r, clearedEncodeG2_coordsIn hcleared, hcurve, horder, rfl⟩

/-- Settles O49: the register written holds the point that passed the final check. -/
theorem g2HashResultsInSubgroup : Obligations.G2HashResultsInSubgroup := by
  intro s t pd i hi _ hexec hclear
  obtain ⟨hpd, r, hcoords, hcurve, horder, rfl⟩ := run_g2Hash_ok hi (runCommand_ok_of_no_fault hexec hclear)
  have hread := pointG2_pointRegG2_of_coordsIn hcoords
  exact ⟨_, pointReg_setPointReg_same s _ hpd, pointRegG2_valid r, pointRegG2_grp r, hread.symm ▸ hcurve,
    hread.symm ▸ horder⟩

/-! ### The unit commands (R210, R211, R214) -/

/-- A command that ends outside the fault state has completed, and began outside it (R284, R287). -/
theorem runCommand_ok_and_no_fault {i : Instr} {s t : State} (h : exec i s = .next t) (hf : t.status.fault = false) :
    runCommand i s = .ok t ∧ s.status.fault = false := by
  have hrun := runCommand_ok_of_no_fault h hf
  exact ⟨hrun, (commandEffect_of_run hrun).fault_eq ▸ hf⟩

/-- Three commands that end outside the fault state have all completed. -/
theorem runCommands_ok_of_no_fault {i₁ i₂ i₃ : Instr} {s s₁ s₂ s₃ : State} (h₁ : exec i₁ s = .next s₁)
    (h₂ : exec i₂ s₁ = .next s₂) (h₃ : exec i₃ s₂ = .next s₃) (hf : s₃.status.fault = false) :
    runCommand i₁ s = .ok s₁ ∧ runCommand i₂ s₁ = .ok s₂ ∧ runCommand i₃ s₂ = .ok s₃ := by
  obtain ⟨hrun₃, hf₂⟩ := runCommand_ok_and_no_fault h₃ hf
  obtain ⟨hrun₂, hf₁⟩ := runCommand_ok_and_no_fault h₂ hf₂
  exact ⟨runCommand_ok_of_no_fault h₁ hf₁, hrun₂, hrun₃⟩

/-- After `H2F F0, 2` the registers `F0` and `F1` read the two elements of the field hash, which is what `HASHG1` and
`ENCG2` map (R141, R211, R214). -/
theorem readField_of_run_h2f_two {s t : State} {us : List Nat} (hk : s.k = constTable)
    (h : runCommand (.h2f 0 2) s = .ok t) (hus : hashToField s.k.p (messageOf s) (tagOf s) 2 = .ok us) :
    t.k = s.k ∧ t.readField 0 = some (us.getD 0 0) ∧ t.readField 1 = some (us.getD 1 0) := by
  obtain ⟨_, _, _, _, us', hus', rfl⟩ := runH2f_ok.mp h
  obtain rfl := Except.ok.inj (hus.symm.trans hus')
  have hlen : us.length = 2 := hashToField_length hus
  have hlt : ∀ u ∈ us, u < fieldP := by
    rw [hk] at hus
    exact hashToField_lt hus fieldP_pos
  have hread (j : Nat) (hj : j < 2) : (s.writeFields 0 us).readField j = some (us.getD j 0) := by
    have hget : us[j]? = some (us.getD j 0) := by
      rw [List.getD_eq_getElem?_getD, List.getElem?_eq_getElem (hlen ▸ hj), Option.getD_some]
    simpa only [Nat.zero_add] using readField_writeFields (fd := 0) s (by omega) hlt hget
  exact ⟨writeFields_k s 0 us, hread 0 (by decide), hread 1 (by decide)⟩

/-- A completed `MAP1 Pd, Fs` whose source reads `u` has written the point the map gives for `u` (R170). -/
theorem eq_of_run_map1 {s t : State} {pd fs u : Nat} {xy : Nat × Nat} (h : runCommand (.map1 pd fs) s = .ok t)
    (hu : s.readField fs = some u) (hmap : svdwMapG1 fqOps s.k u = .ok xy) :
    t = s.setPointReg pd (pointRegG1 (affineOf xy)) := by
  obtain ⟨_, u', hu', xy', hmap', rfl⟩ := runMap1_ok.mp h
  obtain rfl := Option.some.inj (hu'.symm.trans hu)
  obtain rfl := Except.ok.inj (hmap'.symm.trans hmap)
  rfl

/-- A completed `MAP2 Pd, Fs` whose source pair is `u` has written the point the map gives for `u` (R171). -/
theorem eq_of_run_map2 {s t : State} {pd fs : Nat} {u : Fq2} {xy : Fq2 × Fq2} (h : runCommand (.map2 pd fs) s = .ok t)
    (hu : pairOperand s fs = .ok u) (hmap : svdwMapG2 fq2Ops s.k u = .ok xy) :
    t = s.setPointReg pd (pointRegG2 (affineOf xy)) := by
  obtain ⟨_, u', hu', xy', hmap', rfl⟩ := runMap2_ok.mp h
  obtain rfl := Except.ok.inj (hu'.symm.trans hu)
  obtain rfl := Except.ok.inj (hmap'.symm.trans hmap)
  rfl

/-- A completed `CLRCOF Pd, Ps` whose source holds `q` has written the point the clearing gives for `q` (R194). -/
theorem eq_of_run_clrcof {s t : State} {pd ps : Nat} {q r : Point Fq2} (h : runCommand (.clrcof pd ps) s = .ok t)
    (hq : pointOperandG2 s ps = .ok q) (hclear : clearCofactor fq2Ops s.k q = .ok r) :
    t = s.setPointReg pd (pointRegG2 r) := by
  obtain ⟨_, _, q', hq', r', hr', rfl⟩ := runClrcof_ok.mp h
  obtain rfl := Except.ok.inj (hq'.symm.trans hq)
  obtain rfl := Except.ok.inj (hr'.symm.trans hclear)
  rfl

/-- `CLRCOF` and `PSI` take from a register the point that was written to it (R23, R191). -/
theorem pointOperandG2_setPointReg (s : State) {k : Nat} {r : Point Fq2} (hk : k ≤ 15) (hr : r.CoordsIn canonicalFq2) :
    pointOperandG2 (s.setPointReg k (pointRegG2 r)) k = .ok r :=
  pointOperandG2_ok.mpr ⟨_, pointReg_setPointReg_same s _ hk, pointRegG2_valid r, pointRegG2_grp r,
    pointG2_pointRegG2_of_coordsIn hr⟩

/-- Settles O50: each unit command takes over the value `ENCG2` hands on inside: the registers `F0`, `F1` and `PT[0]`
read back what was written, whole. -/
theorem encodeEqualsUnitSequence : Obligations.EncodeEqualsUnitSequence := by
  intro s s₁ s₂ s₃ t pd hk h₁ h₂ h₃ hf₃ hexec hf
  obtain ⟨hpd, _, _, r, hr, rfl⟩ := runEncg2_ok.mp (runCommand_ok_of_no_fault hexec hf)
  obtain ⟨us, hus, xy, hmap, hclear⟩ := clearedEncodeG2_ok.mp (encodeToG2_ok.mp hr).1
  obtain ⟨hrun₁, hrun₂, hrun₃⟩ := runCommands_ok_of_no_fault h₁ h₂ h₃ hf₃
  obtain ⟨hk₁, hF0, hF1⟩ := readField_of_run_h2f_two hk hrun₁ hus
  obtain rfl := eq_of_run_map2 hrun₂ (pairOperand_ok.mpr ⟨by decide, hF0, hF1⟩) (hk₁ ▸ hmap)
  have hpoint := pointOperandG2_setPointReg s₁ (k := 0) (by decide) (svdwMap_coordsIn fq2Ops_rangeIn hmap)
  obtain rfl := eq_of_run_clrcof hrun₃ hpoint (hk₁ ▸ hclear)
  rw [pointReg_setPointReg_same s _ hpd, pointReg_setPointReg_same _ _ (by decide)]

/-- Settles O51: `MAP1` writes the two points whose sum `HASHG1` takes, and both registers read back whole. -/
theorem hashG1SumsUnitPoints : Obligations.HashG1SumsUnitPoints := by
  intro s s₁ s₂ s₃ t pd r₀ r₁ hk h₁ h₂ h₃ hf₃ hr₀ hr₁ hexec hf
  obtain ⟨hpd, _, _, r, hr, rfl⟩ := runHashg1_ok.mp (runCommand_ok_of_no_fault hexec hf)
  obtain ⟨us, hus, q0, h0, q1, h1, _, rfl⟩ := hashToG1_ok.mp hr
  obtain ⟨hrun₁, hrun₂, hrun₃⟩ := runCommands_ok_of_no_fault h₁ h₂ h₃ hf₃
  obtain ⟨hk₁, hF0, hF1⟩ := readField_of_run_h2f_two hk hrun₁ hus
  obtain rfl := eq_of_run_map1 hrun₂ hF0 (hk₁ ▸ h0)
  obtain rfl := eq_of_run_map1 hrun₃ hF1 (hk₁ ▸ h1)
  rw [pointReg_setPointReg _ _ _ _ (by decide), if_neg (by decide), pointReg_setPointReg_same _ _ (by decide)] at hr₀
  rw [pointReg_setPointReg_same _ _ (by decide)] at hr₁
  obtain rfl := Option.some.inj hr₀
  obtain rfl := Option.some.inj hr₁
  rw [pointReg_setPointReg_same s _ hpd, pointG1_pointRegG1_of_coordsIn (svdwMap_coordsIn fqOps_rangeIn h0),
    pointG1_pointRegG1_of_coordsIn (svdwMap_coordsIn fqOps_rangeIn h1)]

end Sys2Proof.Machine
end

section
/-! SUPPORT. The contracts of the field collaborators: the modular power, the inverse, the residue test and the square
root of both fields (spec/49_collaborators.md R233 to R236, R243 to R246). -/

namespace Sys2Proof.Machine

/-! ### The modular power (R235) -/

theorem fqPow_eq (a e : Nat) : fqPow a e = a ^ e % fieldP := by
  have hcast : ((fqPow a e : Nat) : Fq) = ((a ^ e : Nat) : Fq) := by rw [natCast_fqPow, Nat.cast_pow]
  rw [ZMod.natCast_eq_natCast_iff', Nat.mod_eq_of_lt (fqPow_lt a e)] at hcast
  exact hcast

/-- Settles O52: the power is read in the field `Fq`, where square-and-multiply is the power of the library. -/
theorem fqPowIsModularPower : Obligations.FqPowIsModularPower := ⟨fqPow_eq, fun _ => rfl⟩

/-! ### The inverse (R233, R243) -/

/-- Read in a field, the product of a nonzero element with `b` is one exactly when `b` is what `inv0` answers. -/
theorem FieldOps.FaithfulOn.mul_eq_one_iff {α K : Type} [Field K] {F : FieldOps α} {φ : α → K} {N : K →* Fq}
    {C : α → Prop} (hC : F.FaithfulOn φ C) (hF : F.Reads φ N) (hone : C F.one) {a b : α} (ha : C a) (hb : C b)
    (hinv : C (F.inv0 a)) (h0 : a ≠ F.zero) : F.mul a b = F.one ↔ b = F.inv0 a := by
  have hφ : φ a ≠ 0 := by rwa [ne_eq, ← hC.map_zero, hC.inj ha hC.zero_mem]
  rw [← hC.inj (hC.range.mul a b) hone, ← hC.inj hb hinv, hF.mul, hF.one, hF.inv0, mul_eq_one_iff_inv_eq₀ hφ]
  exact eq_comm

theorem fqMul_eq_one_iff {a b : Nat} (ha : a < fieldP) (hb : b < fieldP) (h0 : a ≠ 0) :
    fqMul a b = 1 ↔ b = fqInv0 a := by
  have : Fact fieldP.Prime := ⟨fieldP_prime⟩
  have h := fqOps_faithfulOn.mul_eq_one_iff fqOps_reads (by decide) ha hb (by rw [fqOps_inv0]; exact fqPow_lt _ _) h0
  rwa [fqOps_inv0] at h

theorem fq2Inv0_canonical (a : Fq2) : canonicalFq2 (fq2Inv0 a) := ⟨fqMul_lt _ _, fqNeg_lt _⟩

theorem fq2Mul_eq_one_iff {a b : Fq2} (ha : canonicalFq2 a) (hb : canonicalFq2 b) (h0 : a ≠ ⟨0, 0⟩) :
    fq2Mul a b = ⟨1, 0⟩ ↔ b = fq2Inv0 a := by
  have : Fact fieldP.Prime := ⟨fieldP_prime⟩
  have := fqI_irreducible
  have hone : canonicalFq2 fq2Ops.one := ⟨by decide, by decide⟩
  have h := fq2Ops_faithfulOn.mul_eq_one_iff fq2Ops_reads hone ha hb
    (by rw [fq2Ops_inv0]; exact fq2Inv0_canonical a) h0
  rwa [fq2Ops_inv0] at h

/-- Settles O53: an inverse in the field `Fq` is unique. -/
theorem fqInverseOrZero : Obligations.FqInverseOrZero := by
  have : Fact fieldP.Prime := ⟨fieldP_prime⟩
  refine ⟨fqInv0_zero, fun a ha h0 => ?_⟩
  have hlt : fqInv0 a < fieldP := fqPow_lt _ _
  exact ⟨hlt, (fqMul_eq_one_iff ha hlt h0).mpr rfl, fun b hb => (fqMul_eq_one_iff ha hb h0).mp⟩

/-- Settles O56: an inverse in the field of pairs is unique. -/
theorem fq2InverseOrZero : Obligations.Fq2InverseOrZero := by
  have : Fact fieldP.Prime := ⟨fieldP_prime⟩
  refine ⟨fq2Inv0_zero, fun a ha h0 => ?_⟩
  have hcanon := fq2Inv0_canonical a
  exact ⟨hcanon, (fq2Mul_eq_one_iff ha hcanon h0).mpr rfl, fun b hb => (fq2Mul_eq_one_iff ha hb h0).mp⟩

/-! ### The residue test (R234, R244) -/

theorem fqIsSquare_fqSqr (b : Nat) : fqIsSquare (fqSqr b) = true := by
  have : Fact fieldP.Prime := ⟨fieldP_prime⟩
  rw [fqIsSquare_iff, natCast_fqSqr]
  exact IsSquare.sq _

theorem fqRefRoot_isSome {a : Nat} (ha : a < fieldP) : (fqRefRoot a).isSome = fqIsSquare a := by
  have : Fact fieldP.Prime := ⟨fieldP_prime⟩
  rw [Bool.eq_iff_iff, Option.isSome_iff_exists]
  constructor
  · rintro ⟨r, hr⟩
    exact (fqRefRoot_some hr).2 ▸ fqIsSquare_fqSqr r
  · exact fun h => fqRefRoot_of_isSquare ha ((fqIsSquare_iff a).mp h)

/-- The norm of a square is a square. -/
theorem fq2IsSquare_fq2Sqr (b : Fq2) : fq2IsSquare (fq2Sqr b) = true := by
  have : Fact fieldP.Prime := ⟨fieldP_prime⟩
  rw [fq2IsSquare_iff, toFqI_fq2Sqr, map_pow]
  exact IsSquare.sq _

/-- The norm of an element of the base field is its square (R244). -/
theorem fq2IsSquare_of_base (a0 : Nat) : fq2IsSquare ⟨a0, 0⟩ = true := by
  have : Fact fieldP.Prime := ⟨fieldP_prime⟩
  have hnorm : (fq2Norm ⟨a0, 0⟩ : Fq) = (a0 : Fq) ^ 2 := by
    rw [fq2Norm, natCast_fqAdd, natCast_fqSqr, natCast_fqSqr, Nat.cast_zero, zero_pow two_ne_zero, add_zero]
  rw [fq2IsSquare, fqIsSquare_iff, hnorm]
  exact IsSquare.sq _

theorem fq2RefRoot_isSome {a : Fq2} (ha : canonicalFq2 a) : (fq2RefRoot a).isSome = fq2IsSquare a := by
  have : Fact fieldP.Prime := ⟨fieldP_prime⟩
  rw [Bool.eq_iff_iff, Option.isSome_iff_exists]
  constructor
  · rintro ⟨r, hr⟩
    exact fq2RefRoot_sqr ha hr ▸ fq2IsSquare_fq2Sqr r
  · exact fq2RefRoot_of_isSquare ha

/-! ### The square root, whichever is chosen (R236, R246) -/

section
variable (choice : Nat → Bool)

theorem fqSqrtBy_isSome {a : Nat} (ha : a < fieldP) : (fqSqrtBy choice a).isSome = fqIsSquare a := by
  rw [fqSqrtBy, Option.isSome_map, fqRefRoot_isSome ha]

theorem fqSqrtBy_some {a r : Nat} (h : fqSqrtBy choice a = some r) : r < fieldP ∧ fqSqr r = a := by
  obtain ⟨x, hx, rfl⟩ := Option.map_eq_some_iff.mp h
  obtain ⟨hlt, hsq⟩ := fqRefRoot_some hx
  split
  · exact ⟨fqNeg_lt x, (fqSqr_fqNeg x).trans hsq⟩
  · exact ⟨hlt, hsq⟩

theorem exists_fqSqrtBy {a : Nat} (ha : a < fieldP) (h : fqIsSquare a = true) :
    ∃ r, r < fieldP ∧ fqSqrtBy choice a = some r ∧ fqSqr r = a := by
  rw [← fqSqrtBy_isSome choice ha, Option.isSome_iff_exists] at h
  obtain ⟨r, hr⟩ := h
  obtain ⟨hlt, hsq⟩ := fqSqrtBy_some choice hr
  exact ⟨r, hlt, hr, hsq⟩

/-- 0 is the only root of 0. -/
theorem fqSqrtBy_zero : fqSqrtBy choice 0 = some 0 := by
  have : Fact fieldP.Prime := ⟨fieldP_prime⟩
  obtain ⟨r, hlt, hr, hsq⟩ := exists_fqSqrtBy choice fieldP_pos (fqIsSquare_fqSqr 0)
  have hzero : (r : Fq) ^ 2 = 0 := by rw [← natCast_fqSqr, hsq, Nat.cast_zero]
  rw [hr, (natCast_fq_eq_zero hlt).mp (pow_eq_zero_iff two_ne_zero |>.mp hzero)]

end

section
variable (choice : Fq2 → Bool) {a : Fq2} (ha : canonicalFq2 a)
include ha

theorem fq2SqrtBy_isSome : (fq2SqrtBy choice a).isSome = fq2IsSquare a := by
  rw [fq2SqrtBy, Option.isSome_map, fq2RefRoot_isSome ha]

theorem fq2SqrtBy_some {r : Fq2} (h : fq2SqrtBy choice a = some r) : canonicalFq2 r ∧ fq2Sqr r = a := by
  obtain ⟨x, hx, rfl⟩ := Option.map_eq_some_iff.mp h
  have hsq := fq2RefRoot_sqr ha hx
  split
  · exact ⟨fq2Neg_canonical x, (fq2Sqr_fq2Neg x).trans hsq⟩
  · exact ⟨fq2RefRoot_canonical hx, hsq⟩

theorem exists_fq2SqrtBy (h : fq2IsSquare a = true) :
    ∃ r, canonicalFq2 r ∧ fq2SqrtBy choice a = some r ∧ fq2Sqr r = a := by
  rw [← fq2SqrtBy_isSome choice ha, Option.isSome_iff_exists] at h
  obtain ⟨r, hr⟩ := h
  obtain ⟨hcanon, hsq⟩ := fq2SqrtBy_some choice ha hr
  exact ⟨r, hcanon, hr, hsq⟩

end

/-- Settles O54: a chosen root is the witness of a square. -/
theorem fqSquareTestFindsRoots : Obligations.FqSquareTestFindsRoots := by
  refine ⟨fun a ha => ⟨fun h => ?_, ?_⟩, fqIsSquare_fqSqr 0⟩
  · obtain ⟨r, hlt, _, hsq⟩ := exists_fqSqrtBy (fun _ => false) ha h
    exact ⟨r, hlt, hsq⟩
  · rintro ⟨b, _, rfl⟩
    exact fqIsSquare_fqSqr b

/-- Settles O55: both roots of a square meet the contract. -/
theorem fqRootMeetsContract : Obligations.FqRootMeetsContract := fun choice a ha => by
  refine ⟨exists_fqSqrtBy choice ha, fun h => ?_, fqSqrtBy_zero choice⟩
  rwa [← fqSqrtBy_isSome choice ha, Option.isSome_eq_false_iff, Option.isNone_iff_eq_none] at h

/-- Settles O57: a chosen root is the witness of a square, and the norm of a square is a square. -/
theorem fq2SquareTestFindsRoots : Obligations.Fq2SquareTestFindsRoots := by
  refine ⟨fun a ha => ⟨fun h => ?_, ?_⟩, fq2IsSquare_of_base 0, fun a0 _ => fq2IsSquare_of_base a0⟩
  · obtain ⟨r, hcanon, _, hsq⟩ := exists_fq2SqrtBy (fun _ => false) ha h
    exact ⟨r, hcanon, hsq⟩
  · rintro ⟨b, _, rfl⟩
    exact fq2IsSquare_fq2Sqr b

/-- Settles O58: both roots of a square meet the contract. -/
theorem fq2RootMeetsContract : Obligations.Fq2RootMeetsContract := fun choice a ha => by
  refine ⟨exists_fq2SqrtBy choice ha, fun h => ?_⟩
  rwa [← fq2SqrtBy_isSome choice ha, Option.isSome_eq_false_iff, Option.isNone_iff_eq_none] at h

end Sys2Proof.Machine
end

section
/-! SUPPORT. The group law: read in the field, the points of the model are those of a Weierstrass curve, whose group
law the library proves (spec/49_collaborators.md R251 to R255). -/

namespace Sys2Proof.Machine

/-! ### The points of the model as points of the library's curve (R251) -/

section
variable {α K : Type} [Field K]

/-- Where 2 and 3 are invertible, `y^2 = x^3 + b` with `b ≠ 0` has no singular point. -/
theorem shortCurve_nonsingular_iff {b : K} (h2 : (2 : K) ≠ 0) (h3 : (3 : K) ≠ 0) (hb : b ≠ 0) (x y : K) :
    (shortCurve b).Nonsingular x y ↔ (shortCurve b).Equation x y := by
  have hΔ : (shortCurve b).Δ = -(2 ^ 4 * 3 ^ 3 * b ^ 2) := by
    simp [shortCurve, WeierstrassCurve.Δ, WeierstrassCurve.b₂, WeierstrassCurve.b₄, WeierstrassCurve.b₆,
      WeierstrassCurve.b₈]
    ring
  refine ((shortCurve b).equation_iff_nonsingular_of_Δ_ne_zero ?_).symm
  rw [hΔ]
  exact neg_ne_zero.mpr (mul_ne_zero (mul_ne_zero (pow_ne_zero _ h2) (pow_ne_zero _ h3)) (pow_ne_zero _ hb))

open Classical in
/-- The point of the curve over the field that a point of the model stands for. A pair that is not on the curve stands
for none; it reads as infinity. -/
noncomputable def Point.toCurve (φ : α → K) (b : K) : Point α → (shortCurve b).Point
  | .inf => 0
  | .affine x y => if h : (shortCurve b).Nonsingular (φ x) (φ y) then .some _ _ h else 0

/-- `M` picks out the points of `y^2 = x^3 + b` with coordinates in `C`, and `φ` reads them in a field where that curve
is smooth (R250, R251). -/
structure CurveReads (F : FieldOps α) (φ : α → K) (N : K →* Fq) (C : α → Prop) (b : α) [DecidableEq α]
    (M : Point α → Prop) : Prop where
  reads : F.Reads φ N
  faithful : F.FaithfulOn φ C
  two : (2 : K) ≠ 0
  three : (3 : K) ≠ 0
  b_ne_zero : φ b ≠ 0
  point_iff : ∀ p, M p ↔ p.CoordsIn C ∧ pointOnCurve F b p = true

variable {F : FieldOps α} {φ : α → K} {N : K →* Fq} {C : α → Prop} {b : α} [DecidableEq α] {M : Point α → Prop}
  (h : CurveReads F φ N C b M)
include h

namespace CurveReads

theorem inf_mem : M .inf := (h.point_iff _).mpr ⟨trivial, rfl⟩

theorem ptAdd_mem {p q : Point α} (hp : M p) (hq : M q) : M (ptAdd F p q) := by
  obtain ⟨hpC, hpc⟩ := (h.point_iff p).mp hp
  obtain ⟨hqC, hqc⟩ := (h.point_iff q).mp hq
  exact (h.point_iff _).mpr
    ⟨ptAdd_coordsIn h.faithful.range hpC hqC, h.faithful.ptAdd_onCurve h.reads hpC hqC hpc hqc⟩

theorem ptMul_mem (n : Nat) {p : Point α} (hp : M p) : M (ptMul F n p) := ptMul_of_closed h.inf_mem h.ptAdd_mem n hp

theorem affine_iff (x y : α) : M (.affine x y) ↔ C x ∧ C y ∧ (shortCurve (φ b)).Nonsingular (φ x) (φ y) := by
  rw [h.point_iff, shortCurve_nonsingular_iff h.two h.three h.b_ne_zero, ← h.faithful.onCurve_iff h.reads, ← and_assoc]
  rfl

theorem coords_mem {x y : α} (hp : M (.affine x y)) : C x ∧ C y :=
  ⟨((h.affine_iff x y).mp hp).1, ((h.affine_iff x y).mp hp).2.1⟩

theorem nonsingular {x y : α} (hp : M (.affine x y)) : (shortCurve (φ b)).Nonsingular (φ x) (φ y) :=
  ((h.affine_iff x y).mp hp).2.2

theorem toCurve_affine {x y : α} (hp : M (.affine x y)) :
    (Point.affine x y).toCurve φ (φ b) = .some _ _ (h.nonsingular hp) := dif_pos _

theorem toCurve_inj {p q : Point α} (hp : M p) (hq : M q) (heq : p.toCurve φ (φ b) = q.toCurve φ (φ b)) : p = q := by
  cases p with
  | inf =>
    cases q with
    | inf => rfl
    | affine x₂ y₂ =>
      rw [h.toCurve_affine hq] at heq
      exact absurd heq.symm (WeierstrassCurve.Affine.Point.some_ne_zero _)
  | affine x₁ y₁ =>
    rw [h.toCurve_affine hp] at heq
    cases q with
    | inf => exact absurd heq (WeierstrassCurve.Affine.Point.some_ne_zero _)
    | affine x₂ y₂ =>
      rw [h.toCurve_affine hq, WeierstrassCurve.Affine.Point.some.injEq] at heq
      obtain ⟨hx₁, hy₁⟩ := h.coords_mem hp
      obtain ⟨hx₂, hy₂⟩ := h.coords_mem hq
      rw [(h.faithful.inj hx₁ hx₂).mp heq.1, (h.faithful.inj hy₁ hy₂).mp heq.2]

/-! ### The operations are those of the library's group (R252, R253, R255) -/

theorem ptNeg_mem {p : Point α} (hp : M p) : M (ptNeg F p) := by
  cases p with
  | inf => exact hp
  | affine x y =>
    obtain ⟨hx, -⟩ := h.coords_mem hp
    have hneg := (shortCurve (φ b)).nonsingular_neg (φ x) (φ y) |>.mpr (h.nonsingular hp)
    rw [shortCurve_negY, ← h.reads.neg] at hneg
    exact (h.affine_iff _ _).mpr ⟨hx, h.faithful.range.neg y, hneg⟩

theorem toCurve_ptNeg {p : Point α} (hp : M p) : (ptNeg F p).toCurve φ (φ b) = -p.toCurve φ (φ b) := by
  cases p with
  | inf => rfl
  | affine x y =>
    have hneg : M (.affine x (F.neg y)) := h.ptNeg_mem hp
    rw [ptNeg, h.toCurve_affine hneg, h.toCurve_affine hp, WeierstrassCurve.Affine.Point.neg_some]
    simp only [shortCurve_negY, h.reads.neg]

section
variable [DecidableEq K]

/-- The chord or tangent through two points that are not opposite gives their sum in the group. -/
theorem toCurve_ptChord {lam x₁ y₁ x₂ y₂ : α} (hp : M (.affine x₁ y₁)) (hq : M (.affine x₂ y₂))
    (hsum : M (ptChord F lam x₁ y₁ x₂))
    (hne : ¬ (φ x₁ = φ x₂ ∧ φ y₁ = (shortCurve (φ b)).negY (φ x₂) (φ y₂)))
    (hlam : φ lam = (shortCurve (φ b)).slope (φ x₁) (φ x₂) (φ y₁) (φ y₂)) :
    (ptChord F lam x₁ y₁ x₂).toCurve φ (φ b) =
      (Point.affine x₁ y₁).toCurve φ (φ b) + (Point.affine x₂ y₂).toCurve φ (φ b) := by
  rw [h.toCurve_affine hp, h.toCurve_affine hq, WeierstrassCurve.Affine.Point.add_some hne, ptChord,
    h.toCurve_affine hsum]
  simp only [← hlam, shortCurve_addX, shortCurve_addY, h.reads.sub, h.reads.mul, h.reads.sqr]

theorem toCurve_ptAdd {p q : Point α} (hp : M p) (hq : M q) :
    (ptAdd F p q).toCurve φ (φ b) = p.toCurve φ (φ b) + q.toCurve φ (φ b) := by
  have hsum := h.ptAdd_mem hp hq
  revert hsum
  fun_cases ptAdd F p q with
  | case1 => exact fun _ => (zero_add _).symm
  | case2 => exact fun _ => (add_zero _).symm
  | case3 y₁ x₁ y₂ hzero =>
    intro _
    have hopp : φ y₁ = (shortCurve (φ b)).negY (φ x₁) (φ y₂) := by
      rw [shortCurve_negY, ← add_eq_zero_iff_eq_neg, ← h.reads.add, hzero, h.faithful.map_zero]
    rw [h.toCurve_affine hp, h.toCurve_affine hq, WeierstrassCurve.Affine.Point.add_of_Y_eq rfl hopp]
    rfl
  | case4 y₁ x₁ y₂ hzero =>
    intro hsum
    have hopp : φ y₁ ≠ (shortCurve (φ b)).negY (φ x₁) (φ y₂) := by
      rw [shortCurve_negY, ne_eq, ← add_eq_zero_iff_eq_neg, ← h.reads.add, ← h.faithful.map_zero]
      exact (h.faithful.inj (h.faithful.range.add _ _) h.faithful.zero_mem).not.mpr hzero
    exact h.toCurve_ptChord hp hq hsum (fun heq => hopp heq.2) (h.reads.map_tangentSlope (φ b) rfl hopp)
  | case5 x₁ y₁ x₂ y₂ hx =>
    intro hsum
    have hne : φ x₁ ≠ φ x₂ := (h.faithful.inj (h.coords_mem hp).1 (h.coords_mem hq).1).not.mpr hx
    exact h.toCurve_ptChord hp hq hsum (fun heq => hne heq.1) (h.reads.map_chordSlope (φ b) hne)

/-- Double-and-add is the scalar multiple of the group, by the bits of the scalar. -/
theorem toCurve_ptMul (n : Nat) {p : Point α} (hp : M p) : (ptMul F n p).toCurve φ (φ b) = n • p.toCurve φ (φ b) := by
  induction n using Nat.strong_induction_on with
  | _ n ih =>
    obtain ⟨k, rfl | rfl⟩ := Nat.even_or_odd' n
    · by_cases hk : k = 0
      · subst hk
        exact (zero_nsmul _).symm
      · have hm := h.ptMul_mem k hp
        rw [ptMul_double, h.toCurve_ptAdd hm hm, ih k (by omega), two_mul, add_nsmul]
    · have hm := h.ptMul_mem k hp
      rw [ptMul_double_add_one, h.toCurve_ptAdd (h.ptAdd_mem hm hm) hp, h.toCurve_ptAdd hm hm, ih k (by omega), succ_nsmul,
        two_mul, add_nsmul]

end

/-- The group law of the library's curve, read back in the model. -/
theorem obeysGroupLaw : obeysGroupLaw F M := by
  classical
  intro p q r hp hq hr
  have hpq := h.ptAdd_mem hp hq
  have hqr := h.ptAdd_mem hq hr
  have hneg := h.ptNeg_mem hp
  refine ⟨hpq, ?_, ?_, ptAdd_inf_left F p, ptAdd_inf_right F p, hneg, ?_, ptMul_zero F p, fun n => ⟨h.ptMul_mem n hp, ?_⟩⟩
  · refine h.toCurve_inj hpq (h.ptAdd_mem hq hp) ?_
    rw [h.toCurve_ptAdd hp hq, h.toCurve_ptAdd hq hp, add_comm]
  · refine h.toCurve_inj (h.ptAdd_mem hpq hr) (h.ptAdd_mem hp hqr) ?_
    rw [h.toCurve_ptAdd hpq hr, h.toCurve_ptAdd hp hq, h.toCurve_ptAdd hp hqr, h.toCurve_ptAdd hq hr, add_assoc]
  · refine h.toCurve_inj (h.ptAdd_mem hp hneg) h.inf_mem ?_
    rw [h.toCurve_ptAdd hp hneg, h.toCurve_ptNeg hp, add_neg_cancel]
    rfl
  · have hm := h.ptMul_mem n hp
    refine h.toCurve_inj (h.ptMul_mem (n + 1) hp) (h.ptAdd_mem hm hp) ?_
    rw [h.toCurve_ptAdd hm hp, h.toCurve_ptMul n hp, h.toCurve_ptMul (n + 1) hp, succ_nsmul]

end CurveReads
end

/-! ### The two curves (R250) -/

theorem three_ne_zero_fq : (3 : Fq) ≠ 0 := by
  have h := (natCast_fq_eq_zero (a := 3) (by decide)).mp.mt (by decide)
  exact_mod_cast h

theorem curveReads_G1 [Fact fieldP.Prime] :
    CurveReads fqOps (fun a => (a : Fq)) (MonoidHom.id Fq) (· < fieldP) constTable.b1 isPointG1 where
  reads := fqOps_reads
  faithful := fqOps_faithfulOn
  two := two_ne_zero_fq
  three := three_ne_zero_fq
  b_ne_zero := (natCast_fq_eq_zero (by decide)).not.mpr (by decide)
  point_iff := isPointG1_iff

/-- The numbers of the base field that are not zero are not zero in the extension field. -/
theorem natCast_fqI_ne_zero {n : Nat} (h : (n : Fq) ≠ 0) : (n : FqI) ≠ 0 := fun h0 =>
  h (by simpa using congrArg QuadraticAlgebra.re h0)

theorem curveReads_G2 [Fact fieldP.Prime] [Fact (∀ r : Fq, r ^ 2 ≠ -1 + 0 * r)] :
    CurveReads fq2Ops toFqI (QuadraticAlgebra.norm (a := -1) (b := 0)) canonicalFq2 constTable.b2 isPointG2 where
  reads := fq2Ops_reads
  faithful := fq2Ops_faithfulOn
  two := by exact_mod_cast natCast_fqI_ne_zero (n := 2) (by exact_mod_cast two_ne_zero_fq)
  three := by exact_mod_cast natCast_fqI_ne_zero (n := 3) (by exact_mod_cast three_ne_zero_fq)
  b_ne_zero := by
    rw [← fq2Ops_faithfulOn.map_zero, ne_eq, toFqI_inj ⟨by decide, by decide⟩ fq2Ops_faithfulOn.zero_mem]
    decide
  point_iff := isPointG2_iff

/-- Settles O59: both curves carry the group law of a smooth Weierstrass curve over their field. -/
theorem pointSumStaysOnCurve : Obligations.PointSumStaysOnCurve := by
  have : Fact fieldP.Prime := ⟨fieldP_prime⟩
  have := fqI_irreducible
  exact ⟨curveReads_G1.obeysGroupLaw, curveReads_G2.obeysGroupLaw⟩

end Sys2Proof.Machine
end

section
/-! SUPPORT. The padding of SHA-256 and the big-endian bytes it ends in (spec/00_scope.md R16,
spec/49_collaborators.md R260, R262). -/

namespace Sys2Proof.Machine

/-! ### What big-endian bytes spell (R16) -/

theorem foldl_bigEndian (n v acc : Nat) :
    (bigEndian n v).foldl (fun acc b => acc * 256 + b.toNat) acc = acc * 256 ^ n + v % 256 ^ n := by
  induction n generalizing acc with
  | zero => simp [bigEndian, Nat.mod_one]
  | succ n ih =>
    have hbyte : (byteOf (v / 256 ^ n)).toNat = v / 256 ^ n % 256 := BitVec.toNat_ofNat _ _
    rw [bigEndian, List.foldl_cons, ih, hbyte, pow_succ, Nat.mod_mul]
    ring

theorem os2ip_bigEndian (n v : Nat) : os2ip (bigEndian n v) = v % 256 ^ n := by
  rw [os2ip, foldl_bigEndian, Nat.zero_mul, Nat.zero_add]

/-! ### The shape of the padded input (R262) -/

/-- The number `k` of zero bytes in the padding (R262). -/
def shaZeroCount (m : List Byte) : Nat := (119 - m.length % 64) % 64

theorem shaPad_eq (m : List Byte) :
    shaPad m = (m ++ [0x80]) ++ (zeroBytes (shaZeroCount m) ++ bigEndian 8 (8 * m.length)) := by
  simp [shaPad, shaZeroCount, byteOf]

theorem shaPad_length (m : List Byte) : (shaPad m).length = m.length + 1 + (shaZeroCount m + 8) := by
  simp only [shaPad_eq, zeroBytes, List.length_append, List.length_replicate, List.length_singleton, bigEndian_length]

theorem take_shaPad (m : List Byte) : (shaPad m).take (m.length + 1) = m ++ [0x80] := by
  rw [shaPad_eq]
  exact List.take_left' (by simp)

theorem shaPad_getElem?_of_zero (m : List Byte) {j : Nat} (hlo : m.length + 1 ≤ j) (hhi : j + 8 < (shaPad m).length) :
    (shaPad m)[j]? = some 0 := by
  rw [shaPad_length] at hhi
  have hk : j - (m.length + 1) < shaZeroCount m := by omega
  rw [shaPad_eq, List.getElem?_append_right (by simpa using hlo), List.length_append, List.length_singleton,
    List.getElem?_append_left (by simpa [zeroBytes] using hk), zeroBytes, List.getElem?_replicate_of_lt hk]

theorem drop_shaPad (m : List Byte) : (shaPad m).drop ((shaPad m).length - 8) = bigEndian 8 (8 * m.length) := by
  have hlen : (shaPad m).length - 8 = (m ++ [0x80] ++ zeroBytes (shaZeroCount m)).length := by
    rw [shaPad_length]
    simp [zeroBytes]
    omega
  rw [hlen, shaPad_eq, ← List.append_assoc, List.drop_left]

/-- Settles O60: the number of zero bytes fills the last block. -/
theorem sha256PadsToWholeBlocks : Obligations.Sha256PadsToWholeBlocks := by
  intro m
  have hk : shaZeroCount m = (119 - m.length % 64) % 64 := rfl
  have hlen := shaPad_length m
  refine ⟨sha256_length m, by omega, by omega, by omega, take_shaPad m, fun _ => shaPad_getElem?_of_zero m, fun hm => ?_⟩
  have hfits : 8 * m.length < 256 ^ 8 := by omega
  rw [drop_shaPad, os2ip_bigEndian, Nat.mod_eq_of_lt hfits]

end Sys2Proof.Machine
end

section
/-! SUPPORT. Faults: when a step can enter or leave the fault state, what fault entry writes, and which causes each
command raises (spec/60_exceptions.md R281 to R300). -/

namespace Sys2Proof.Machine

/-! ### The idle block (R300) -/

/-- Settles O8: with no event to come the step is the idle one. -/
theorem idleBlockKeepsState : Obligations.IdleBlockKeepsState := by
  intro s hp
  rcases step_cases s with ⟨_, hidle⟩ | ⟨e, rest, hevent, _⟩
  · exact hidle
  · cases hp.symm.trans hevent

/-! ### Words that are no command (R292) -/

/-- The rows of the opcode map leave out exactly the words the decoder rejects (R94, R95). -/
theorem no_row_selects_iff {w : Word} :
    (∀ r ∈ opcodeRows, r.selects w = false) ↔ ∃ e, decode w = .error e := by
  constructor
  · intro hnone
    cases hd : decode w with
    | error e => exact ⟨e, rfl⟩
    | ok i => exact absurd (rowOf_selects_of_decode hd) (by simp [hnone _ (rowOf_mem i)])
  · rintro ⟨e, he⟩ r hr
    obtain ⟨i, rfl⟩ := exists_rowOf_eq hr
    refine Bool.eq_false_iff.mpr fun hsel => ?_
    obtain ⟨j, hj, _⟩ := decode_of_rowOf_selects hsel
    cases he.symm.trans hj

/-- The opcodes in use are 0x01 to 0x0B (R94). -/
theorem opcodeOf_bounds (i : Instr) : 0 < opcodeOf i ∧ opcodeOf i < 0x0C := by cases i <;> simp [opcodeOf]

/-- Settles O7: no row selects a word the decoder rejects, and a row selects only words of its opcode. -/
theorem unselectedWordRaisesIllegalCmd : Obligations.UnselectedWordRaisesIllegalCmd := by
  refine ⟨fun s w rest hp hf hnone => ?_, fun w r hr hop => ?_, fun w op hd => no_row_selects_iff.mpr ⟨_, hd⟩⟩
  · obtain ⟨e, he⟩ := no_row_selects_iff.mp hnone
    obtain ⟨_, _, hreject⟩ := stepIssuesCommand s w rest hp
    exact hreject hf e he
  · obtain ⟨i, rfl⟩ := exists_rowOf_eq hr
    refine Bool.eq_false_iff.mpr fun hsel => ?_
    obtain ⟨heq, _⟩ := (rowOf_selects_iff i w).mp hsel
    have hbounds := opcodeOf_bounds i
    omega

/-! ### Leaving the fault state (R287, R320) -/

@[simp] theorem hostWriteField_status (k : Nat) (v : Wide) (s : State) : (hostWriteField k v s).status = s.status := by
  unfold hostWriteField
  split <;> rfl

@[simp] theorem hostWritePoint_status (k : Nat) (grp : Group) (inf : Bool) (x0 x1 y0 y1 : Wide) (s : State) :
    (hostWritePoint k grp inf x0 x1 y0 y1 s).status = s.status := by
  obtain ⟨d, hd⟩ := hostWritePoint_eq k grp inf x0 x1 y0 y1 s
  rw [hd, setPointReg_status]

/-- In the fault state every event but a reset leaves `STATUS` as it is; a write to `CMD` is ignored (R286, R287). -/
theorem HostEffect.isReset_or_status_eq {e : HostEvent} {s t : State} (he : HostEffect s e t)
    (hf : s.status.fault = true) : e.isReset = true ∨ t.status = s.status := by
  cases he with
  | reset hr => exact .inl hr
  | command hi =>
    cases hi.symm.trans (issue_of_fault hf)
    exact .inr rfl
  | fieldReg k v => exact .inr (hostWriteField_status k v s)
  | pointReg k grp inf x0 x1 y0 y1 => exact .inr (hostWritePoint_status k grp inf x0 x1 y0 y1 s)
  | read | ignored | msgLen | dstLen | msgByte | dstByte => exact .inr rfl

/-- Settles O21: a step that clears `STATUS.FAULT` is not idle and changes `STATUS`, so its event is a reset. -/
theorem onlyResetLeavesFaultState : Obligations.OnlyResetLeavesFaultState := by
  intro s t hst hf hclear
  have hchanged : t.status ≠ s.status := fun heq => by
    rw [heq, hf] at hclear
    cases hclear
  rcases step_cases s with ⟨_, hidle⟩ | ⟨e, rest, hp, hevent⟩
  · cases hidle.symm.trans hst
    exact absurd rfl hchanged
  · have he := hostEffect_of_hostAccess (hevent.symm.trans hst)
    exact ⟨e, rest, hp, (he.isReset_or_status_eq hf).resolve_right hchanged⟩

/-! ### Entering the fault state (R281, R284) -/

/-- A command that enters the fault state has raised a cause, since one that completes leaves `STATUS.FAULT` clear. -/
theorem runCommand_error_of_fault {i : Instr} {s t : State} (h : exec i s = .next t) (hs : s.status.fault = false)
    (ht : t.status.fault = true) : ∃ c, runCommand i s = .error c ∧ t = raiseFault c s := by
  rcases exec_cases h with hrun | hraise
  · have hkept := (commandEffect_of_run hrun).fault_eq
    rw [hs, ht] at hkept
    cases hkept
  · exact hraise

theorem causeCode_bounds (c : Cause) : 1 ≤ (causeCode c).toNat ∧ (causeCode c).toNat ≤ 8 := by cases c <;> decide

/-- Settles O24: the state entered is `raiseFault` of some cause. -/
theorem faultEntryWritesOnlyFaultRegisters : Obligations.FaultEntryWritesOnlyFaultRegisters := by
  intro i s t h hs ht
  obtain ⟨c, _, rfl⟩ := runCommand_error_of_fault h hs ht
  obtain ⟨hlo, hhi⟩ := causeCode_bounds c
  exact ⟨hlo, hhi, rfl, rfl⟩

/-! ### Which causes a computation raises -/

/-- Every cause `x` can end with is one of `cs`. -/
def RaisesOnly {α : Type} (cs : List Cause) (x : Except Cause α) : Prop := ∀ c, x = .error c → c ∈ cs

section
variable {α β : Type} {cs ds : List Cause} {x : Except Cause α}

theorem RaisesOnly.mono (h : RaisesOnly cs x) (hsub : cs ⊆ ds) : RaisesOnly ds x := fun c hc => hsub (h c hc)

/-- A sequence raises what its parts raise. -/
theorem RaisesOnly.bind {f : α → Except Cause β} (hx : RaisesOnly cs x) (hf : ∀ a, RaisesOnly ds (f a)) :
    RaisesOnly (cs ++ ds) (x >>= f) := by
  intro c hc
  rcases except_bind_error.mp hc with hc | ⟨a, _, hc⟩
  · exact List.mem_append_left _ (hx c hc)
  · exact List.mem_append_right _ (hf a c hc)

/-- Writing a result raises nothing. -/
theorem RaisesOnly.bind_ok {g : α → β} (hx : RaisesOnly cs x) : RaisesOnly cs (x >>= fun a => .ok (g a)) := by
  intro c hc
  rcases except_bind_error.mp hc with hc | ⟨a, _, hc⟩
  · exact hx c hc
  · cases hc

/-- A sequence ends with cause `c` if its first part can raise no other and its second part raises `c` whenever it is
reached. -/
theorem RaisesOnly.bind_eq_error {c : Cause} {f : α → Except Cause β} (hx : RaisesOnly [c] x)
    (hf : ∀ a, x = .ok a → f a = .error c) : x >>= f = .error c := by
  cases x with
  | ok a => exact hf a rfl
  | error d => exact congrArg Except.error (List.mem_singleton.mp (hx d rfl))

end

/-! ### The causes of the shared operations (R282, R291, R295) -/

theorem checkPointIndex_raisesOnly (pd : Nat) : RaisesOnly [.operand] (checkPointIndex pd) :=
  fun _ hc => List.mem_singleton.mpr (checkPointIndex_error.mp hc).2

theorem fieldOperand_raisesOnly (s : State) (fs : Nat) : RaisesOnly [.operand] (fieldOperand s fs) :=
  fun _ hc => List.mem_singleton.mpr (fieldOperand_error.mp hc).2

theorem pairOperand_raisesOnly (s : State) (fs : Nat) : RaisesOnly [.operand] (pairOperand s fs) :=
  fun _ hc => List.mem_singleton.mpr (pairOperand_error.mp hc).1

theorem pointOperandG2_raisesOnly (s : State) (ps : Nat) : RaisesOnly [.operand] (pointOperandG2 s ps) :=
  fun _ hc => List.mem_singleton.mpr (pointOperandG2_error.mp hc).1

theorem checkHashOperands_raisesOnly (pd : Nat) (s : State) :
    RaisesOnly [.operand, .cfgDstTooLong] (checkHashOperands pd s) := by
  intro c hc
  rcases checkHashOperands_error.mp hc with ⟨rfl, _⟩ | ⟨rfl, _⟩ <;> decide

/-- The lengths the orchestrators ask for are within the bound of the expander, so only the tag can be at fault. -/
theorem hashToField_raisesOnly (p : Nat) (msg dst : List Byte) {count : Nat} (hcount : count ≤ 170) :
    RaisesOnly [.cfgDstTooLong] (hashToField p msg dst count) := by
  intro c hc
  rcases expandXmd_error.mp (hashToField_error.mp hc) with ⟨_, hlong⟩ | ⟨rfl, _⟩
  · omega
  · decide

/-- The map raises `INT_NOT_ON_CURVE` for G2 alone (R162, R166, R167). -/
theorem svdwMap_cause {α : Type} [DecidableEq α] {F : FieldOps α} {c : MapConsts α} {g : Group} {u : α} {e : Cause}
    (h : svdwMap F c g u = .error e) : e = .intNoSquare ∨ e = .intSqrtFailed ∨ (e = .intNotOnCurve ∧ g = .g2) := by
  rcases svdwMap_error.mp h with hsel | ⟨x, _, hlift⟩
  · exact .inl (selectCandidate_error.mp hsel).1
  · rcases liftCandidate_error.mp hlift with ⟨he, _⟩ | ⟨he, hg, _⟩
    · exact .inr (.inl he)
    · exact .inr (.inr ⟨he, hg⟩)

theorem svdwMapG1_raisesOnly (F : FieldOps Nat) (k : Consts) (u : Nat) :
    RaisesOnly [.intNoSquare, .intSqrtFailed] (svdwMapG1 F k u) := by
  intro e he
  rcases svdwMap_cause he with rfl | rfl | ⟨_, hg⟩
  · decide
  · decide
  · cases hg

theorem svdwMapG2_raisesOnly (F : FieldOps Fq2) (k : Consts) (u : Fq2) :
    RaisesOnly [.intNoSquare, .intSqrtFailed, .intNotOnCurve] (svdwMapG2 F k u) := by
  intro e he
  rcases svdwMap_cause he with rfl | rfl | ⟨rfl, _⟩ <;> decide

theorem sumMapsG1_raisesOnly (F : FieldOps Nat) (k : Consts) (u0 u1 : Nat) :
    RaisesOnly [.intNoSquare, .intSqrtFailed] (sumMapsG1 F k u0 u1) :=
  RaisesOnly.mono ((svdwMapG1_raisesOnly F k u0).bind fun q0 => (svdwMapG1_raisesOnly F k u1).bind_ok) (by decide)

theorem sumMapsG2_raisesOnly (F : FieldOps Fq2) (k : Consts) (u0 u1 : Fq2) :
    RaisesOnly [.intNoSquare, .intSqrtFailed, .intNotOnCurve] (sumMapsG2 F k u0 u1) :=
  RaisesOnly.mono ((svdwMapG2_raisesOnly F k u0).bind fun q0 => (svdwMapG2_raisesOnly F k u1).bind_ok) (by decide)

theorem checkedG2_raisesOnly (F : FieldOps Fq2) (k : Consts) (r : Point Fq2) :
    RaisesOnly [.intNotOnCurve] (checkedG2 F k r) :=
  fun _ hc => List.mem_singleton.mpr (checkedG2_error.mp hc).2

theorem clearCofactor_raisesOnly (F : FieldOps Fq2) (k : Consts) (q : Point Fq2) :
    RaisesOnly [.intNotOnCurve] (clearCofactor F k q) := checkedG2_raisesOnly F k _

theorem finalCheckG1_raisesOnly (F : FieldOps Nat) (k : Consts) (r : Point Nat) :
    RaisesOnly [.intNotOnCurve] (finalCheckG1 F k r) :=
  fun _ hc => List.mem_singleton.mpr (finalCheckG1_error.mp hc).2

theorem finalCheckG2_raisesOnly (F : FieldOps Fq2) (k : Consts) (r : Point Fq2) :
    RaisesOnly [.intNotOnCurve, .intNotInSubgroup] (finalCheckG2 F k r) := by
  intro c hc
  rcases finalCheckG2_error.mp hc with ⟨rfl, _⟩ | ⟨rfl, _⟩ <;> decide

theorem hashToG1_raisesOnly (F : FieldOps Nat) (k : Consts) (msg dst : List Byte) :
    RaisesOnly [.cfgDstTooLong, .intNoSquare, .intSqrtFailed, .intNotOnCurve] (hashToG1 F k msg dst) :=
  RaisesOnly.mono ((hashToField_raisesOnly k.p msg dst (count := 2) (by decide)).bind fun us =>
    (sumMapsG1_raisesOnly F k _ _).bind fun r => finalCheckG1_raisesOnly F k r) (by decide)

theorem clearedHashG2_raisesOnly (F : FieldOps Fq2) (k : Consts) (msg dst : List Byte) :
    RaisesOnly [.cfgDstTooLong, .intNoSquare, .intSqrtFailed, .intNotOnCurve] (clearedHashG2 F k msg dst) :=
  RaisesOnly.mono ((hashToField_raisesOnly k.p msg dst (count := 4) (by decide)).bind fun us =>
    (sumMapsG2_raisesOnly F k _ _).bind fun q => clearCofactor_raisesOnly F k q) (by decide)

theorem clearedEncodeG2_raisesOnly (F : FieldOps Fq2) (k : Consts) (msg dst : List Byte) :
    RaisesOnly [.cfgDstTooLong, .intNoSquare, .intSqrtFailed, .intNotOnCurve] (clearedEncodeG2 F k msg dst) :=
  RaisesOnly.mono ((hashToField_raisesOnly k.p msg dst (count := 2) (by decide)).bind fun us =>
    (svdwMapG2_raisesOnly F k _).bind fun q => clearCofactor_raisesOnly F k (affineOf q)) (by decide)

/-! ### The causes of each command (R296) -/

/-- A command's run raises only the causes of its row: those of its operand fetches and checks, then those of its
algorithm. -/
theorem runCommand_raisesOnly (i : Instr) (s : State) : RaisesOnly (allowedCauses i) (runCommand i s) := by
  cases i with
  | expand n =>
    intro c hc
    rcases runExpand_error.mp hc with ⟨_, rfl⟩ | ⟨_, _, rfl⟩ | ⟨_, _, _, rfl⟩ <;> simp [allowedCauses]
  | h2f fd count =>
    intro c hc
    rcases runH2f_error.mp hc with ⟨_, rfl⟩ | ⟨_, _, _, rfl⟩ | ⟨_, _, _, _, rfl⟩ <;> simp [allowedCauses]
  | sgn0 fs => exact (fieldOperand_raisesOnly s fs).bind_ok
  | sgn0e fs => exact (pairOperand_raisesOnly s fs).bind_ok
  | map1 pd fs =>
    exact RaisesOnly.mono ((checkPointIndex_raisesOnly pd).bind fun _ => (fieldOperand_raisesOnly s fs).bind fun u =>
      (svdwMapG1_raisesOnly fqOps s.k u).bind_ok) (by simp [allowedCauses])
  | map2 pd fs =>
    exact RaisesOnly.mono ((checkPointIndex_raisesOnly pd).bind fun _ => (pairOperand_raisesOnly s fs).bind fun u =>
      (svdwMapG2_raisesOnly fq2Ops s.k u).bind_ok) (by simp [allowedCauses])
  | psi pd ps =>
    exact RaisesOnly.mono ((checkPointIndex_raisesOnly pd).bind fun _ => (checkPointIndex_raisesOnly ps).bind fun _ =>
      (pointOperandG2_raisesOnly s ps).bind fun q => (checkedG2_raisesOnly fq2Ops s.k _).bind_ok)
      (by simp [allowedCauses])
  | clrcof pd ps =>
    exact RaisesOnly.mono ((checkPointIndex_raisesOnly pd).bind fun _ => (checkPointIndex_raisesOnly ps).bind fun _ =>
      (pointOperandG2_raisesOnly s ps).bind fun q => (clearCofactor_raisesOnly fq2Ops s.k q).bind_ok)
      (by simp [allowedCauses])
  | hashg1 pd =>
    exact RaisesOnly.mono ((checkHashOperands_raisesOnly pd s).bind fun _ =>
      (hashToG1_raisesOnly fqOps s.k _ _).bind_ok) (by simp [allowedCauses])
  | hashg2 pd =>
    exact RaisesOnly.mono ((checkHashOperands_raisesOnly pd s).bind fun _ => RaisesOnly.bind_ok <|
      (clearedHashG2_raisesOnly fq2Ops s.k _ _).bind fun r => finalCheckG2_raisesOnly fq2Ops s.k r)
      (by simp [allowedCauses])
  | encg2 pd =>
    exact RaisesOnly.mono ((checkHashOperands_raisesOnly pd s).bind fun _ => RaisesOnly.bind_ok <|
      (clearedEncodeG2_raisesOnly fq2Ops s.k _ _).bind fun r => finalCheckG2_raisesOnly fq2Ops s.k r)
      (by simp [allowedCauses])

/-- Settles O25: the cause raised is one of those of `runCommand_raisesOnly`, and `ERR` holds its code. -/
theorem commandsRaiseOnlyTheirCauses : Obligations.CommandsRaiseOnlyTheirCauses := by
  intro i s t h hs ht
  obtain ⟨c, hc, rfl⟩ := runCommand_error_of_fault h hs ht
  exact ⟨c, runCommand_raisesOnly i s c hc, rfl⟩

/-! ### Operands of the point commands (R291, R295) -/

section
variable {s : State} {pd fs ps : Nat}

theorem runMap1_operand (h : 15 < pd ∨ s.readField fs = none) : runMap1 pd fs s = .error .operand := by
  refine (checkPointIndex_raisesOnly pd).bind_eq_error fun _ hpd => except_bind_error.mpr (.inl ?_)
  exact fieldOperand_error.mpr ⟨h.resolve_left (Nat.not_lt.mpr (checkPointIndex_ok.mp hpd)), rfl⟩

theorem runMap2_operand (h : 15 < pd ∨ 255 ≤ fs ∨ s.readField fs = none ∨ s.readField (fs + 1) = none) :
    runMap2 pd fs s = .error .operand := by
  refine (checkPointIndex_raisesOnly pd).bind_eq_error fun _ hpd => except_bind_error.mpr (.inl ?_)
  exact pairOperand_error.mpr ⟨rfl, h.resolve_left (Nat.not_lt.mpr (checkPointIndex_ok.mp hpd))⟩

/-- What `PSI` and `CLRCOF` do first: both indices are checked and the source is fetched, whatever comes after. -/
theorem sourcePoint_operand (h : 15 < pd ∨ 15 < ps ∨ ∃ r, s.pt[ps]? = some r ∧ (r.valid = false ∨ r.grp = .g1))
    (f : Point Fq2 → Except Cause State) :
    (do checkPointIndex pd; checkPointIndex ps; let q ← pointOperandG2 s ps; f q) = .error .operand := by
  refine (checkPointIndex_raisesOnly pd).bind_eq_error fun _ hpd =>
    (checkPointIndex_raisesOnly ps).bind_eq_error fun _ hps => except_bind_error.mpr (.inl ?_)
  obtain ⟨r, hr, hbad⟩ := (h.resolve_left (Nat.not_lt.mpr (checkPointIndex_ok.mp hpd))).resolve_left
    (Nat.not_lt.mpr (checkPointIndex_ok.mp hps))
  refine pointOperandG2_error.mpr ⟨rfl, fun r' hr' => ?_⟩
  cases hr.symm.trans hr'
  exact hbad

/-- The first check of an orchestrator that fails: its index or message length, then its tag (R295). -/
theorem checkHashOperands_first_cause
    (h : 15 < pd ∨ Config.msgMax.toNat < s.msgLen.toNat ∨ 255 < s.dstLen.toNat) :
    checkHashOperands pd s =
      .error (if 15 < pd ∨ Config.msgMax.toNat < s.msgLen.toNat then .operand else .cfgDstTooLong) := by
  refine checkHashOperands_error.mpr ?_
  by_cases hop : 15 < pd ∨ Config.msgMax.toNat < s.msgLen.toNat
  · exact .inl ⟨if_pos hop, hop⟩
  · obtain ⟨hpd, hmsg⟩ := not_or.mp hop
    exact .inr ⟨if_neg hop, Nat.not_lt.mp hpd, Nat.not_lt.mp hmsg, (h.resolve_left hpd).resolve_left hmsg⟩

end

/-- Settles O28: in each command the checks come before everything else. -/
theorem pointCommandsTrapOnOperands : Obligations.PointCommandsTrapOnOperands := by
  refine ⟨fun s pd fs h => exec_of_error (runMap1_operand h), fun s pd fs h => exec_of_error (runMap2_operand h),
    fun s pd ps h => ⟨exec_of_error (sourcePoint_operand h _), exec_of_error (sourcePoint_operand h _)⟩,
    fun s pd h i hi => ?_⟩
  have hcheck := checkHashOperands_first_cause h
  simp only [List.mem_cons, List.not_mem_nil, or_false] at hi
  rcases hi with rfl | rfl | rfl <;> exact exec_of_error (except_bind_error.mpr (.inl hcheck))

end Sys2Proof.Machine
end

section
/-! SUPPORT. The frame of a command: each command that completes writes its destinations of R74 and nothing else
(spec/20_memory.md R74, spec/70_reset_and_hazards.md R332). -/

namespace Sys2Proof.Machine

/-! ### What each command writes (R74) -/

/-- The write of a completed command, tied to the destination that its operands name. `CommandEffect` says what kind of
values are written; this says where. -/
inductive DestinationWrite (s : State) : Instr → State → Prop where
  | xout (n : Nat) (out : List Byte) : DestinationWrite s (.expand n) (s.writeXout out n)
  | fields (fd : Nat) (us : List Nat) : fd + us.length ≤ 256 →
      DestinationWrite s (.h2f fd us.length) (s.writeFields fd us)
  | sgn {i : Instr} (b : Bool) : i.writesSgn = true → DestinationWrite s i (s.writeSgn b)
  | point {i : Instr} {pd : Nat} (r : PointReg) : i.pointDest = some pd → DestinationWrite s i (s.setPointReg pd r)

theorem destinationWrite_of_run {i : Instr} {s t : State} (h : runCommand i s = .ok t) : DestinationWrite s i t := by
  cases i with
  | expand n =>
    obtain ⟨_, _, _, out, _, rfl⟩ := runExpand_ok.mp h
    exact .xout n out
  | h2f fd count =>
    obtain ⟨hrange, _, _, _, us, hus, rfl⟩ := runH2f_ok.mp h
    obtain rfl := hashToField_length hus
    exact .fields fd us hrange
  | sgn0 fs =>
    obtain ⟨x, _, rfl⟩ := runSgn0_ok.mp h
    exact .sgn _ rfl
  | sgn0e fs =>
    obtain ⟨x, _, rfl⟩ := runSgn0e_ok.mp h
    exact .sgn _ rfl
  | map1 pd fs =>
    obtain ⟨_, u, _, xy, _, rfl⟩ := runMap1_ok.mp h
    exact .point _ rfl
  | map2 pd fs =>
    obtain ⟨_, u, _, xy, _, rfl⟩ := runMap2_ok.mp h
    exact .point _ rfl
  | psi pd ps =>
    obtain ⟨_, _, q, _, r, _, rfl⟩ := runPsi_ok.mp h
    exact .point _ rfl
  | clrcof pd ps =>
    obtain ⟨_, _, q, _, r, _, rfl⟩ := runClrcof_ok.mp h
    exact .point _ rfl
  | hashg1 pd =>
    obtain ⟨_, _, _, r, _, rfl⟩ := runHashg1_ok.mp h
    exact .point _ rfl
  | hashg2 pd =>
    obtain ⟨_, _, _, r, _, rfl⟩ := runHashg2_ok.mp h
    exact .point _ rfl
  | encg2 pd =>
    obtain ⟨_, _, _, r, _, rfl⟩ := runEncg2_ok.mp h
    exact .point _ rfl

/-! ### What the write leaves unchanged (R332) -/

namespace DestinationWrite

variable {i : Instr} {s t : State}

/-- No command has these among its destinations, whatever it writes. -/
theorem keeps_inputs (h : DestinationWrite s i t) :
    t.msg = s.msg ∧ t.dst = s.dst ∧ t.msgLen = s.msgLen ∧ t.dstLen = s.dstLen ∧ t.k = s.k ∧ t.cmd = s.cmd ∧
    t.pending = s.pending ∧ t.returned = s.returned := by
  cases h <;> simp

theorem keeps_xout (h : DestinationWrite s i t) (hx : i.writesXout = false) :
    t.xout = s.xout ∧ t.xoutLen = s.xoutLen ∧ t.draws = s.draws := by
  cases h with
  | xout n out => cases hx
  | fields fd us => simp
  | sgn b => exact ⟨rfl, rfl, rfl⟩
  | point r => exact ⟨rfl, rfl, rfl⟩

theorem keeps_sgn (h : DestinationWrite s i t) (hg : i.writesSgn = false) : t.status.sgn = s.status.sgn := by
  cases h with
  | sgn b hi => cases hi.symm.trans hg
  | fields fd us => rw [writeFields_status]
  | xout n out => rfl
  | point r => rfl

theorem keeps_field (h : DestinationWrite s i t) {j : Nat}
    (hj : ¬ (i.fieldDest.1 ≤ j ∧ j < i.fieldDest.1 + i.fieldDest.2)) : t.f[j]? = s.f[j]? := by
  cases h with
  | fields fd us hrange => exact (fieldReg_writeFields us s fd j hrange).trans (dif_neg hj)
  | xout n out => rfl
  | sgn b => rfl
  | point r => rfl

theorem keeps_point (h : DestinationWrite s i t) {j : Nat} (hj : i.pointDest ≠ some j) : t.pt[j]? = s.pt[j]? := by
  cases h with
  | @point _ pd r hpd =>
    have hne : pd ≠ j := fun heq => hj (heq ▸ hpd)
    exact Vector.getElem?_setIfInBounds_ne hne
  | fields fd us => rw [writeFields_pt]
  | xout n out => rfl
  | sgn b => rfl

/-- The registers of fault entry are no destination of a command that completes (R284). -/
theorem keeps_fault (h : DestinationWrite s i t) :
    t.status.fault = s.status.fault ∧ t.err = s.err ∧ t.errInfo = s.errInfo := by
  cases h <;> simp

end DestinationWrite

/-- Settles O26: a command that completes makes its one write, and fault entry changes `STATUS.FAULT`, `ERR` and
`ERRINFO` only. -/
theorem commandsWriteOnlyTheirDestinations : Obligations.CommandsWriteOnlyTheirDestinations := by
  intro i s t h
  rcases exec_cases h with hrun | ⟨c, _, rfl⟩
  · have hw := destinationWrite_of_run hrun
    obtain ⟨hmsg, hdst, hmsgLen, hdstLen, hk, hcmd, hpending, hreturned⟩ := hw.keeps_inputs
    obtain ⟨hfault, herr⟩ := hw.keeps_fault
    exact ⟨hmsg, hdst, hmsgLen, hdstLen, hk, hcmd, hpending, hreturned, hw.keeps_xout, hw.keeps_sgn,
      fun _ => hw.keeps_field, fun _ => hw.keeps_point, hfault.trans, fun _ _ => herr⟩
  · exact ⟨rfl, rfl, rfl, rfl, rfl, rfl, rfl, rfl, fun _ => ⟨rfl, rfl, rfl⟩, fun _ => rfl, fun _ _ => rfl,
      fun _ _ => rfl, fun _ => rfl, fun hsame hclear => nomatch hsame.trans hclear⟩

end Sys2Proof.Machine
end
